-- ==== Sys2Proof/Word.lean ====
section
/-! DEFINITION. The words of the machine: widths fixed by 00_scope.md rule R3 (XLEN 64, ILEN 32, AW 32)
and the register number of 00_scope.md rule R7. -/

namespace Sys2Proof

/-- The content of a general register, of HI or of LO: 64 bits (10_state.md rules R11, R13). -/
abbrev Word := BitVec 64

/-- An address, and the program counter: 32 bits (10_state.md rules R14, R18). -/
abbrev Addr := BitVec 32

/-- What one address names: 8 bits (10_state.md rule R18). -/
abbrev Byte := BitVec 8

/-- An instruction word: 32 bits (30_encoding.md rule R60). -/
abbrev InstrWord := BitVec 32

/-- A register number, as the fields `rs`, `rt`, `rd` hold it: 0 to 31 (00_scope.md rule R7). -/
abbrev RegIdx := BitVec 5

end Sys2Proof
end

