-- ==== Sys2Proof/Config.lean ====
section
/-! DEFINITION. What a configuration of the block is (the parameters of 00_scope.md rule R3), the region
descriptors of 20_memory.md rules R31 and R32, and the free values of the model. The default configuration is in
Machine/Platform.lean. -/

namespace Sys2Proof

/-- The capability kind of a region with its payload (20_memory.md rule R32). A Data kind carries the initial
contents of its buffer as (offset, byte) pairs: an offset that is not listed holds 0x00 (70_reset_and_hazards.md
rule R246, "if not given, all 0x00"). A Device kind's endpoints belong to the environment (20_memory.md
rule R43), so they have no payload here. -/
inductive RegionKind where
  | empty
  | dummy
  | readWriteData (init : List Host.Cell)
  | readOnlyData (init : List Host.Cell)
  | readWriteDevice
  | readOnlyDevice
  | writeOnlyDevice
  | mirror (target : Addr)
deriving DecidableEq, Repr

/-- A MemoryRegion descriptor (20_memory.md rule R31): it covers the addresses `a` with
`start <= a < start + size`, compared as non-negative integers. -/
structure Region where
  start : Addr
  size  : Nat
  kind  : RegionKind
deriving DecidableEq, Repr

/-- The second argument of `resolve` (20_memory.md rule R35): there is no Execute intent. -/
inductive Intent where
  | read
  | write
deriving DecidableEq, Repr

/-- A byte string given sparsely: `size` bytes, those not listed being 0x00. The ROM image is one
(00_scope.md rule R3). -/
structure Image where
  size  : Nat
  bytes : List Host.Cell
deriving DecidableEq, Repr

/-- The construction-time parameters other than ROM, which reaches the block only through the initial contents of
the regions (00_scope.md rule R3, 70_reset_and_hazards.md rules R241, R246). `preset` lists the five register
numbers that receive 0, 1, 0, 0x3F, 0 in that order. -/
structure Params where
  regions : List Region
  resetPc : Addr
  spIndex : RegIdx
  resetSp : Word
  preset  : Vector RegIdx 5
deriving DecidableEq, Repr

namespace Config

/-- FREE VALUE. The n-th 64-bit value the rules do not fix (`any_64` of 43_muldiv_hilo.md rule R129): it has no
body, so nothing can be proved of it. Assumption log entry 3. -/
opaque freeWord : Nat → Word

/-- FREE VALUE. The byte that the n-th draw gives when a device read endpoint answers (20_memory.md rule R43: an
oracle answer, any byte). Assumption log entry 4. -/
opaque freeByte : Nat → Byte

end Config

end Sys2Proof
end

