-- ==== Sys2Proof/Syntax.lean ====
section
/-! DEFINITION. The abstract syntax: one constructor for each of the 63 rows of spec/opcode_table.json. A constructor
carries EVERY bit of the instruction word outside its dispatch key, the bits its rule ignores included
(30_encoding.md rule R64), because the log record of a stub and the diagnostic of an unmapped access report the whole
word (60_exceptions.md rules R213, R214). `rs`, `rt`, `rd`, `sa`, `imm`, `target` are the fields of 30_encoding.md
rule R62. A field whose name begins with `ign`, and a field its instruction's docstring calls ignored, is read by no
meaning. -/

namespace Sys2Proof

/-- An instruction with its fields (30_encoding.md rules R67 to R70). -/
inductive Instr where
  -- Shifts (42_shifts.md): `sll`, `srl`, `sra` ignore `rs`; `sllv`, `srlv`, `srav` ignore `sa`.
  | sll (rs rt rd sa : BitVec 5)
  | srl (rs rt rd sa : BitVec 5)
  | sra (rs rt rd sa : BitVec 5)
  | sllv (rs rt rd sa : BitVec 5)
  | srlv (rs rt rd sa : BitVec 5)
  | srav (rs rt rd sa : BitVec 5)
  -- Register jumps (46_jumps.md rules R173, R174).
  | jr (rs : BitVec 5) (ign : BitVec 15)
  | jalr (rs ignRt rd ignSa : BitVec 5)
  -- System stubs (48_system_stubs.md rules R201, R202): the code field is ignored.
  | syscall (code : BitVec 20)
  | brk (code : BitVec 20)
  -- HI/LO moves (43_muldiv_hilo.md rules R124 to R127).
  | mfhi (ign : BitVec 10) (rd ignSa : BitVec 5)
  | mthi (rs : BitVec 5) (ign : BitVec 15)
  | mflo (ign : BitVec 10) (rd ignSa : BitVec 5)
  | mtlo (rs : BitVec 5) (ign : BitVec 15)
  -- Multiply and divide (43_muldiv_hilo.md rules R120 to R123).
  | mult (rs rt : BitVec 5) (ign : BitVec 10)
  | multu (rs rt : BitVec 5) (ign : BitVec 10)
  | div (rs rt : BitVec 5) (ign : BitVec 10)
  | divu (rs rt : BitVec 5) (ign : BitVec 10)
  -- Add, subtract, bitwise, compare (41_alu_register.md, 44_compare_bitwise.md): `sa` is ignored.
  | add (rs rt rd sa : BitVec 5)
  | addu (rs rt rd sa : BitVec 5)
  | sub (rs rt rd sa : BitVec 5)
  | subu (rs rt rd sa : BitVec 5)
  | and (rs rt rd sa : BitVec 5)
  | or (rs rt rd sa : BitVec 5)
  | xor (rs rt rd sa : BitVec 5)
  | nor (rs rt rd sa : BitVec 5)
  | slt (rs rt rd sa : BitVec 5)
  | sltu (rs rt rd sa : BitVec 5)
  -- REGIMM branches (45_branches.md rules R153 to R156, R161 to R164).
  | bltz (rs : BitVec 5) (imm : BitVec 16)
  | bgez (rs : BitVec 5) (imm : BitVec 16)
  | bltzl (rs : BitVec 5) (imm : BitVec 16)
  | bgezl (rs : BitVec 5) (imm : BitVec 16)
  | bltzal (rs : BitVec 5) (imm : BitVec 16)
  | bgezal (rs : BitVec 5) (imm : BitVec 16)
  | bltzall (rs : BitVec 5) (imm : BitVec 16)
  | bgezall (rs : BitVec 5) (imm : BitVec 16)
  -- Absolute jumps (46_jumps.md rules R171, R172).
  | j (target : BitVec 26)
  | jal (target : BitVec 26)
  -- Branches with a primary opcode (45_branches.md): `blez`, `bgtz`, `blezl`, `bgtzl` ignore `rt`.
  | beq (rs rt : BitVec 5) (imm : BitVec 16)
  | bne (rs rt : BitVec 5) (imm : BitVec 16)
  | blez (rs rt : BitVec 5) (imm : BitVec 16)
  | bgtz (rs rt : BitVec 5) (imm : BitVec 16)
  -- Add immediate (41_alu_register.md rule R106).
  | addi (rs rt : BitVec 5) (imm : BitVec 16)
  -- Coprocessor-0 stubs (48_system_stubs.md rules R204, R205): every field is ignored.
  | mfc0 (rt rd : BitVec 5) (ign : BitVec 11)
  | mtc0 (rt rd : BitVec 5) (ign : BitVec 11)
  -- Likely branches (45_branches.md rules R157 to R160).
  | beql (rs rt : BitVec 5) (imm : BitVec 16)
  | bnel (rs rt : BitVec 5) (imm : BitVec 16)
  | blezl (rs rt : BitVec 5) (imm : BitVec 16)
  | bgtzl (rs rt : BitVec 5) (imm : BitVec 16)
  -- Loads, stores, and the stubs LWL, LWR, SWL, SWR, CACHE, whose fields are ignored (47_loads_stores.md, 48_system_stubs.md
  -- rule R203).
  | lb (rs rt : BitVec 5) (imm : BitVec 16)
  | lh (rs rt : BitVec 5) (imm : BitVec 16)
  | lwl (rs rt : BitVec 5) (imm : BitVec 16)
  | lw (rs rt : BitVec 5) (imm : BitVec 16)
  | lbu (rs rt : BitVec 5) (imm : BitVec 16)
  | lhu (rs rt : BitVec 5) (imm : BitVec 16)
  | lwr (rs rt : BitVec 5) (imm : BitVec 16)
  | lwu (rs rt : BitVec 5) (imm : BitVec 16)
  | sb (rs rt : BitVec 5) (imm : BitVec 16)
  | sh (rs rt : BitVec 5) (imm : BitVec 16)
  | swl (rs rt : BitVec 5) (imm : BitVec 16)
  | sw (rs rt : BitVec 5) (imm : BitVec 16)
  | swr (rs rt : BitVec 5) (imm : BitVec 16)
  | cache (rs rt : BitVec 5) (imm : BitVec 16)
deriving DecidableEq, Repr

/-- The 20 control-transfer instructions: the 16 branches and the 4 jumps, "and no others" (40_dispatch_step.md
rule R84). -/
def Instr.isControlTransfer : Instr → Bool
  | .sll _ _ _ _ => false
  | .srl _ _ _ _ => false
  | .sra _ _ _ _ => false
  | .sllv _ _ _ _ => false
  | .srlv _ _ _ _ => false
  | .srav _ _ _ _ => false
  | .jr _ _ => true
  | .jalr _ _ _ _ => true
  | .syscall _ => false
  | .brk _ => false
  | .mfhi _ _ _ => false
  | .mthi _ _ => false
  | .mflo _ _ _ => false
  | .mtlo _ _ => false
  | .mult _ _ _ => false
  | .multu _ _ _ => false
  | .div _ _ _ => false
  | .divu _ _ _ => false
  | .add _ _ _ _ => false
  | .addu _ _ _ _ => false
  | .sub _ _ _ _ => false
  | .subu _ _ _ _ => false
  | .and _ _ _ _ => false
  | .or _ _ _ _ => false
  | .xor _ _ _ _ => false
  | .nor _ _ _ _ => false
  | .slt _ _ _ _ => false
  | .sltu _ _ _ _ => false
  | .bltz _ _ => true
  | .bgez _ _ => true
  | .bltzl _ _ => true
  | .bgezl _ _ => true
  | .bltzal _ _ => true
  | .bgezal _ _ => true
  | .bltzall _ _ => true
  | .bgezall _ _ => true
  | .j _ => true
  | .jal _ => true
  | .beq _ _ _ => true
  | .bne _ _ _ => true
  | .blez _ _ _ => true
  | .bgtz _ _ _ => true
  | .addi _ _ _ => false
  | .mfc0 _ _ _ => false
  | .mtc0 _ _ _ => false
  | .beql _ _ _ => true
  | .bnel _ _ _ => true
  | .blezl _ _ _ => true
  | .bgtzl _ _ _ => true
  | .lb _ _ _ => false
  | .lh _ _ _ => false
  | .lwl _ _ _ => false
  | .lw _ _ _ => false
  | .lbu _ _ _ => false
  | .lhu _ _ _ => false
  | .lwr _ _ _ => false
  | .lwu _ _ _ => false
  | .sb _ _ _ => false
  | .sh _ _ _ => false
  | .swl _ _ _ => false
  | .sw _ _ _ => false
  | .swr _ _ _ => false
  | .cache _ _ _ => false

/-- The nine stubs (60_exceptions.md rule R214). -/
def Instr.isStub : Instr → Bool
  | .sll _ _ _ _ => false
  | .srl _ _ _ _ => false
  | .sra _ _ _ _ => false
  | .sllv _ _ _ _ => false
  | .srlv _ _ _ _ => false
  | .srav _ _ _ _ => false
  | .jr _ _ => false
  | .jalr _ _ _ _ => false
  | .syscall _ => true
  | .brk _ => true
  | .mfhi _ _ _ => false
  | .mthi _ _ => false
  | .mflo _ _ _ => false
  | .mtlo _ _ => false
  | .mult _ _ _ => false
  | .multu _ _ _ => false
  | .div _ _ _ => false
  | .divu _ _ _ => false
  | .add _ _ _ _ => false
  | .addu _ _ _ _ => false
  | .sub _ _ _ _ => false
  | .subu _ _ _ _ => false
  | .and _ _ _ _ => false
  | .or _ _ _ _ => false
  | .xor _ _ _ _ => false
  | .nor _ _ _ _ => false
  | .slt _ _ _ _ => false
  | .sltu _ _ _ _ => false
  | .bltz _ _ => false
  | .bgez _ _ => false
  | .bltzl _ _ => false
  | .bgezl _ _ => false
  | .bltzal _ _ => false
  | .bgezal _ _ => false
  | .bltzall _ _ => false
  | .bgezall _ _ => false
  | .j _ => false
  | .jal _ => false
  | .beq _ _ _ => false
  | .bne _ _ _ => false
  | .blez _ _ _ => false
  | .bgtz _ _ _ => false
  | .addi _ _ _ => false
  | .mfc0 _ _ _ => true
  | .mtc0 _ _ _ => true
  | .beql _ _ _ => false
  | .bnel _ _ _ => false
  | .blezl _ _ _ => false
  | .bgtzl _ _ _ => false
  | .lb _ _ _ => false
  | .lh _ _ _ => false
  | .lwl _ _ _ => true
  | .lw _ _ _ => false
  | .lbu _ _ _ => false
  | .lhu _ _ _ => false
  | .lwr _ _ _ => true
  | .lwu _ _ _ => false
  | .sb _ _ _ => false
  | .sh _ _ _ => false
  | .swl _ _ _ => true
  | .sw _ _ _ => false
  | .swr _ _ _ => true
  | .cache _ _ _ => true

end Sys2Proof
end

