-- ==== Sys2Proof/WellFormed.lean ====
section
/-! DEFINITION. What the model admits: region lists (20_memory.md rule R34), ROM images and reset parameters
(00_scope.md rule R3, 70_reset_and_hazards.md rule R241), and instructions. -/

namespace Sys2Proof

/-- Every term of `Instr` is an instruction of the hardware: no value of any field outside the dispatch key is
illegal (30_encoding.md rule R64), and the fields are bit vectors of the encoding's widths. -/
def Instr.wellFormed (_ : Instr) : Bool := true

/-- The region is a Mirror. -/
def Region.isMirror (r : Region) : Bool :=
  match r.kind with
  | .mirror _ => true
  | _ => false

/-- The sparse contents of a buffer of `size` bytes: offsets strictly rising and below `size`, so that the buffer has
exactly `size` bytes (20_memory.md rule R34 clause (c)). -/
def contentsFit (size : Nat) (cells : List Host.Cell) : Bool :=
  decide (cells.Pairwise (fun c d => c.1 < d.1)) && cells.all (fun c => c.1 < size)

/-- 20_memory.md rule R34 clauses (a), (b), (c) for one region. Clause (d) holds of every `RegionKind` by its type. -/
def Region.wellFormed (r : Region) : Bool :=
  decide (1 ≤ r.size) && decide (r.start.toNat + r.size ≤ 2 ^ 32) &&
    match r.kind with
    | .readWriteData init => contentsFit r.size init
    | .readOnlyData init => contentsFit r.size init
    | _ => true

/-- The arrow of 20_memory.md rule R38: from the Mirror `m` to the Mirror `m'` when the rebased range of `m`
intersects the range of `m'`. The second disjunct is the part of the rebased range that wraps past 2^32
(rule R37 rebases modulo 2^32; DEDUCED, assumption log entry 9). -/
def mirrorArrow (m m' : Region) : Bool :=
  match m.kind, m'.kind with
  | .mirror t, .mirror _ =>
    (decide (t.toNat < m'.start.toNat + m'.size) && decide (m'.start.toNat < t.toNat + m.size)) ||
      (decide (t.toNat < m'.start.toNat + m'.size + 2 ^ 32) &&
        decide (m'.start.toNat + 2 ^ 32 < t.toNat + m.size))
  | _, _ => false

/-- There are `n` arrows in a row starting at `m`. -/
def mirrorChain (regions : List Region) : Nat → Region → Bool
  | 0, _ => true
  | n + 1, m => regions.any (fun m' => mirrorArrow m m' && mirrorChain regions n m')

/-- 20_memory.md rule R34 clause (e): the Mirrors form no cycle. As many arrows in a row as there are regions
would pass some Mirror twice. -/
def mirrorsAcyclic (regions : List Region) : Bool :=
  regions.all (fun m => !mirrorChain regions regions.length m)

/-- A list that breaks any clause of 20_memory.md rule R34 is not a configuration of this hardware. -/
def regionsWellFormed (regions : List Region) : Bool :=
  regions.all Region.wellFormed && mirrorsAcyclic regions

/-- A ROM image has at least the 4096 bytes of the header (00_scope.md rule R3). Construction does not ask this of the
image: DESIGN CHOICE, assumption log entry 24. -/
def Image.wellFormed (rom : Image) : Bool :=
  decide (4096 ≤ rom.size) && contentsFit rom.size rom.bytes

/-- A configuration in which the preset indices repeat, or include the stack pointer's or 0, is refused
(70_reset_and_hazards.md rule R241). -/
def Params.presetsWellFormed (p : Params) : Bool :=
  decide p.preset.toList.Nodup && !p.preset.toList.contains 0 && !p.preset.toList.contains p.spIndex

/-- The parameters a block is constructed from are admitted. -/
def Params.wellFormed (p : Params) : Bool :=
  regionsWellFormed p.regions && p.presetsWellFormed

/-- How many regions of the list satisfy `f`. -/
def countRegions (f : Region → Bool) (regions : List Region) : Nat :=
  (regions.filter f).length

/-- The shape of the address map of 20_memory.md rule R52, in any registration order: a multi-megabyte
ReadWriteData window at address 0, another of 8 KB, several small ReadWriteDevice windows, a ReadOnlyData window of
4096 bytes and two large Dummy windows. The default map has it; a configuration need not (rule R34 does not ask
for it). The numbers for "multi-megabyte" (2 MB or more), "several" (two or more), "tens of bytes" (below 100) and
"hundreds of MB" (200 MB or more) are the model's: DESIGN CHOICE, assumption log entry 25. -/
def hasMapShape (regions : List Region) : Bool :=
  let isData (r : Region) : Bool := match r.kind with | .readWriteData _ => true | _ => false
  let isRom (r : Region) : Bool := match r.kind with | .readOnlyData _ => true | _ => false
  decide (1 ≤ countRegions (fun r => isData r && r.start == 0 && decide (0x200000 ≤ r.size)) regions) &&
  decide (1 ≤ countRegions (fun r => isData r && r.start != 0 && r.size == 0x2000) regions) &&
  decide (2 ≤ countRegions (fun r => r.kind == .readWriteDevice && decide (r.size < 100)) regions) &&
  decide (1 ≤ countRegions (fun r => isRom r && r.size == 4096) regions) &&
  decide (2 ≤ countRegions (fun r => r.kind == .dummy && decide (0x0C800000 ≤ r.size)) regions)

end Sys2Proof
end

