-- ==== Sys2Proof/Decode.lean ====
section
/-! DEFINITION. Decoding (30_encoding.md rules R61 to R72) and, after it, the encoder written from the same tables. Every
opcode, function and selector number is the spec's, from general knowledge (92_eei_decisions.md D7). -/

namespace Sys2Proof

/-! ### Fields (30_encoding.md rule R62) -/

/-- The primary opcode, bits 31 to 26. -/
def fieldOp (w : InstrWord) : BitVec 6 := w.extractLsb' 26 6

/-- `rs`, bits 25 to 21: also the coprocessor-0 selector. -/
def fieldRs (w : InstrWord) : BitVec 5 := w.extractLsb' 21 5

/-- `rt`, bits 20 to 16: also the REGIMM selector. -/
def fieldRt (w : InstrWord) : BitVec 5 := w.extractLsb' 16 5

/-- `rd`, bits 15 to 11. -/
def fieldRd (w : InstrWord) : BitVec 5 := w.extractLsb' 11 5

/-- `sa`, bits 10 to 6. -/
def fieldSa (w : InstrWord) : BitVec 5 := w.extractLsb' 6 5

/-- The function code, bits 5 to 0. -/
def fieldFunct (w : InstrWord) : BitVec 6 := w.extractLsb' 0 6

/-- The immediate, bits 15 to 0. -/
def fieldImm (w : InstrWord) : BitVec 16 := w.extractLsb' 0 16

/-- The jump target field, bits 25 to 0. -/
def fieldTarget (w : InstrWord) : BitVec 26 := w.extractLsb' 0 26

/-! ### The dispatch key -/

/-- The dispatch key of a word (30_encoding.md rule R63): the ALU class with its function, the REGIMM class with its
selector, the coprocessor-0 class with its selector, or a primary opcode alone. -/
inductive Key where
  | alu (funct : BitVec 6)
  | regimm (selector : BitVec 5)
  | cop0 (selector : BitVec 5)
  | primary (op : BitVec 6)
deriving DecidableEq, Repr

/-- The dispatch key of a word (30_encoding.md rule R63). -/
def keyOf (w : InstrWord) : Key :=
  if fieldOp w = 0x00 then .alu (fieldFunct w)
  else if fieldOp w = 0x01 then .regimm (fieldRt w)
  else if fieldOp w = 0x10 then .cop0 (fieldRs w)
  else .primary (fieldOp w)

/-- Why no instruction was decoded. -/
inductive Reject where
  /-- The verdict NoHandler (30_encoding.md rule R65): the key has no handler. -/
  | noHandler (key : Key)
  /-- Fewer than the four bytes of an instruction word were given. -/
  | truncated
deriving DecidableEq, Repr

/-! ### The opcode maps -/

/-- The ALU-class function map (30_encoding.md rule R68). -/
def decodeAlu (w : InstrWord) : Option Instr :=
  match (fieldFunct w).toNat with
  | 0x00 => some (.sll (fieldRs w) (fieldRt w) (fieldRd w) (fieldSa w))
  | 0x02 => some (.srl (fieldRs w) (fieldRt w) (fieldRd w) (fieldSa w))
  | 0x03 => some (.sra (fieldRs w) (fieldRt w) (fieldRd w) (fieldSa w))
  | 0x04 => some (.sllv (fieldRs w) (fieldRt w) (fieldRd w) (fieldSa w))
  | 0x06 => some (.srlv (fieldRs w) (fieldRt w) (fieldRd w) (fieldSa w))
  | 0x07 => some (.srav (fieldRs w) (fieldRt w) (fieldRd w) (fieldSa w))
  | 0x08 => some (.jr (fieldRs w) (w.extractLsb' 6 15))
  | 0x09 => some (.jalr (fieldRs w) (fieldRt w) (fieldRd w) (fieldSa w))
  | 0x0C => some (.syscall (w.extractLsb' 6 20))
  | 0x0D => some (.brk (w.extractLsb' 6 20))
  | 0x10 => some (.mfhi (w.extractLsb' 16 10) (fieldRd w) (fieldSa w))
  | 0x11 => some (.mthi (fieldRs w) (w.extractLsb' 6 15))
  | 0x12 => some (.mflo (w.extractLsb' 16 10) (fieldRd w) (fieldSa w))
  | 0x13 => some (.mtlo (fieldRs w) (w.extractLsb' 6 15))
  | 0x18 => some (.mult (fieldRs w) (fieldRt w) (w.extractLsb' 6 10))
  | 0x19 => some (.multu (fieldRs w) (fieldRt w) (w.extractLsb' 6 10))
  | 0x1A => some (.div (fieldRs w) (fieldRt w) (w.extractLsb' 6 10))
  | 0x1B => some (.divu (fieldRs w) (fieldRt w) (w.extractLsb' 6 10))
  | 0x20 => some (.add (fieldRs w) (fieldRt w) (fieldRd w) (fieldSa w))
  | 0x21 => some (.addu (fieldRs w) (fieldRt w) (fieldRd w) (fieldSa w))
  | 0x22 => some (.sub (fieldRs w) (fieldRt w) (fieldRd w) (fieldSa w))
  | 0x23 => some (.subu (fieldRs w) (fieldRt w) (fieldRd w) (fieldSa w))
  | 0x24 => some (.and (fieldRs w) (fieldRt w) (fieldRd w) (fieldSa w))
  | 0x25 => some (.or (fieldRs w) (fieldRt w) (fieldRd w) (fieldSa w))
  | 0x26 => some (.xor (fieldRs w) (fieldRt w) (fieldRd w) (fieldSa w))
  | 0x27 => some (.nor (fieldRs w) (fieldRt w) (fieldRd w) (fieldSa w))
  | 0x2A => some (.slt (fieldRs w) (fieldRt w) (fieldRd w) (fieldSa w))
  | 0x2B => some (.sltu (fieldRs w) (fieldRt w) (fieldRd w) (fieldSa w))
  | _ => none

/-- The REGIMM selector map (30_encoding.md rule R69). -/
def decodeRegimm (w : InstrWord) : Option Instr :=
  match (fieldRt w).toNat with
  | 0x00 => some (.bltz (fieldRs w) (fieldImm w))
  | 0x01 => some (.bgez (fieldRs w) (fieldImm w))
  | 0x02 => some (.bltzl (fieldRs w) (fieldImm w))
  | 0x03 => some (.bgezl (fieldRs w) (fieldImm w))
  | 0x10 => some (.bltzal (fieldRs w) (fieldImm w))
  | 0x11 => some (.bgezal (fieldRs w) (fieldImm w))
  | 0x12 => some (.bltzall (fieldRs w) (fieldImm w))
  | 0x13 => some (.bgezall (fieldRs w) (fieldImm w))
  | _ => none

/-- The coprocessor-0 selector map (30_encoding.md rule R70). -/
def decodeCop0 (w : InstrWord) : Option Instr :=
  match (fieldRs w).toNat with
  | 0x00 => some (.mfc0 (fieldRt w) (fieldRd w) (w.extractLsb' 0 11))
  | 0x04 => some (.mtc0 (fieldRt w) (fieldRd w) (w.extractLsb' 0 11))
  | _ => none

/-- The primary opcode map outside the three classes (30_encoding.md rule R67). Every other key, those of LUI, ORI and ADDIU
among them, has no handler (rules R72, R73, R75). -/
def decodePrimary (w : InstrWord) : Option Instr :=
  match (fieldOp w).toNat with
  | 0x02 => some (.j (fieldTarget w))
  | 0x03 => some (.jal (fieldTarget w))
  | 0x04 => some (.beq (fieldRs w) (fieldRt w) (fieldImm w))
  | 0x05 => some (.bne (fieldRs w) (fieldRt w) (fieldImm w))
  | 0x06 => some (.blez (fieldRs w) (fieldRt w) (fieldImm w))
  | 0x07 => some (.bgtz (fieldRs w) (fieldRt w) (fieldImm w))
  | 0x08 => some (.addi (fieldRs w) (fieldRt w) (fieldImm w))
  | 0x14 => some (.beql (fieldRs w) (fieldRt w) (fieldImm w))
  | 0x15 => some (.bnel (fieldRs w) (fieldRt w) (fieldImm w))
  | 0x16 => some (.blezl (fieldRs w) (fieldRt w) (fieldImm w))
  | 0x17 => some (.bgtzl (fieldRs w) (fieldRt w) (fieldImm w))
  | 0x20 => some (.lb (fieldRs w) (fieldRt w) (fieldImm w))
  | 0x21 => some (.lh (fieldRs w) (fieldRt w) (fieldImm w))
  | 0x22 => some (.lwl (fieldRs w) (fieldRt w) (fieldImm w))
  | 0x23 => some (.lw (fieldRs w) (fieldRt w) (fieldImm w))
  | 0x24 => some (.lbu (fieldRs w) (fieldRt w) (fieldImm w))
  | 0x25 => some (.lhu (fieldRs w) (fieldRt w) (fieldImm w))
  | 0x26 => some (.lwr (fieldRs w) (fieldRt w) (fieldImm w))
  | 0x27 => some (.lwu (fieldRs w) (fieldRt w) (fieldImm w))
  | 0x28 => some (.sb (fieldRs w) (fieldRt w) (fieldImm w))
  | 0x29 => some (.sh (fieldRs w) (fieldRt w) (fieldImm w))
  | 0x2A => some (.swl (fieldRs w) (fieldRt w) (fieldImm w))
  | 0x2B => some (.sw (fieldRs w) (fieldRt w) (fieldImm w))
  | 0x2E => some (.swr (fieldRs w) (fieldRt w) (fieldImm w))
  | 0x2F => some (.cache (fieldRs w) (fieldRt w) (fieldImm w))
  | _ => none

/-- The handler the key of a word selects, with the word's fields; none where the key has no handler. -/
def handlerOf (w : InstrWord) : Option Instr :=
  match keyOf w with
  | .alu _ => decodeAlu w
  | .regimm _ => decodeRegimm w
  | .cop0 _ => decodeCop0 w
  | .primary _ => decodePrimary w

/-- Decode a word: pure and total (30_encoding.md rule R65). -/
def decode (w : InstrWord) : Except Reject Instr :=
  match handlerOf w with
  | some i => .ok i
  | none => .error (.noHandler (keyOf w))

/-- The number that bytes make, the most significant byte first (20_memory.md rules R45, R49). -/
def bigEndian (bytes : List Byte) : Nat :=
  bytes.foldl (fun acc b => acc * 256 + b.toNat) 0

/-- Decode the first four bytes of a byte sequence, the byte at the lowest address first, and give the rest
(30_encoding.md rule R60). -/
def decodeBytes : List Byte → Except Reject (Instr × List Byte)
  | b0 :: b1 :: b2 :: b3 :: rest =>
    match decode (BitVec.ofNat 32 (bigEndian [b0, b1, b2, b3])) with
    | .ok i => .ok (i, rest)
    | .error r => .error r
  | _ => .error .truncated

/-! ### The encoder -/

/-- An R-format word of the ALU class (30_encoding.md rule R61). -/
def rWord (rs rt rd sa : BitVec 5) (funct : BitVec 6) : InstrWord :=
  0x00#6 ++ rs ++ rt ++ rd ++ sa ++ funct

/-- An ALU-class word whose bits 25 to 6 are given together. -/
def aluWord (bits : BitVec 20) (funct : BitVec 6) : InstrWord :=
  0x00#6 ++ bits ++ funct

/-- An I-format word (30_encoding.md rule R61). -/
def iWord (op : BitVec 6) (rs rt : BitVec 5) (imm : BitVec 16) : InstrWord :=
  op ++ rs ++ rt ++ imm

/-- A J-format word (30_encoding.md rule R61). -/
def jWord (op : BitVec 6) (target : BitVec 26) : InstrWord :=
  op ++ target

/-- A coprocessor-0 word whose bits 20 to 0 are given together (30_encoding.md rule R70). -/
def cop0Word (selector : BitVec 5) (bits : BitVec 21) : InstrWord :=
  0x10#6 ++ selector ++ bits

/-- The word of an instruction, from the tables of 30_encoding.md rules R67 to R70. -/
def encode : Instr → InstrWord
  | .sll rs rt rd sa => rWord rs rt rd sa 0x00
  | .srl rs rt rd sa => rWord rs rt rd sa 0x02
  | .sra rs rt rd sa => rWord rs rt rd sa 0x03
  | .sllv rs rt rd sa => rWord rs rt rd sa 0x04
  | .srlv rs rt rd sa => rWord rs rt rd sa 0x06
  | .srav rs rt rd sa => rWord rs rt rd sa 0x07
  | .jr rs ign => aluWord (rs ++ ign) 0x08
  | .jalr rs rt rd sa => rWord rs rt rd sa 0x09
  | .syscall code => aluWord code 0x0C
  | .brk code => aluWord code 0x0D
  | .mfhi ign rd sa => aluWord (ign ++ rd ++ sa) 0x10
  | .mthi rs ign => aluWord (rs ++ ign) 0x11
  | .mflo ign rd sa => aluWord (ign ++ rd ++ sa) 0x12
  | .mtlo rs ign => aluWord (rs ++ ign) 0x13
  | .mult rs rt ign => aluWord (rs ++ rt ++ ign) 0x18
  | .multu rs rt ign => aluWord (rs ++ rt ++ ign) 0x19
  | .div rs rt ign => aluWord (rs ++ rt ++ ign) 0x1A
  | .divu rs rt ign => aluWord (rs ++ rt ++ ign) 0x1B
  | .add rs rt rd sa => rWord rs rt rd sa 0x20
  | .addu rs rt rd sa => rWord rs rt rd sa 0x21
  | .sub rs rt rd sa => rWord rs rt rd sa 0x22
  | .subu rs rt rd sa => rWord rs rt rd sa 0x23
  | .and rs rt rd sa => rWord rs rt rd sa 0x24
  | .or rs rt rd sa => rWord rs rt rd sa 0x25
  | .xor rs rt rd sa => rWord rs rt rd sa 0x26
  | .nor rs rt rd sa => rWord rs rt rd sa 0x27
  | .slt rs rt rd sa => rWord rs rt rd sa 0x2A
  | .sltu rs rt rd sa => rWord rs rt rd sa 0x2B
  | .bltz rs imm => iWord 0x01 rs 0x00 imm
  | .bgez rs imm => iWord 0x01 rs 0x01 imm
  | .bltzl rs imm => iWord 0x01 rs 0x02 imm
  | .bgezl rs imm => iWord 0x01 rs 0x03 imm
  | .bltzal rs imm => iWord 0x01 rs 0x10 imm
  | .bgezal rs imm => iWord 0x01 rs 0x11 imm
  | .bltzall rs imm => iWord 0x01 rs 0x12 imm
  | .bgezall rs imm => iWord 0x01 rs 0x13 imm
  | .j target => jWord 0x02 target
  | .jal target => jWord 0x03 target
  | .beq rs rt imm => iWord 0x04 rs rt imm
  | .bne rs rt imm => iWord 0x05 rs rt imm
  | .blez rs rt imm => iWord 0x06 rs rt imm
  | .bgtz rs rt imm => iWord 0x07 rs rt imm
  | .addi rs rt imm => iWord 0x08 rs rt imm
  | .mfc0 rt rd ign => cop0Word 0x00 (rt ++ rd ++ ign)
  | .mtc0 rt rd ign => cop0Word 0x04 (rt ++ rd ++ ign)
  | .beql rs rt imm => iWord 0x14 rs rt imm
  | .bnel rs rt imm => iWord 0x15 rs rt imm
  | .blezl rs rt imm => iWord 0x16 rs rt imm
  | .bgtzl rs rt imm => iWord 0x17 rs rt imm
  | .lb rs rt imm => iWord 0x20 rs rt imm
  | .lh rs rt imm => iWord 0x21 rs rt imm
  | .lwl rs rt imm => iWord 0x22 rs rt imm
  | .lw rs rt imm => iWord 0x23 rs rt imm
  | .lbu rs rt imm => iWord 0x24 rs rt imm
  | .lhu rs rt imm => iWord 0x25 rs rt imm
  | .lwr rs rt imm => iWord 0x26 rs rt imm
  | .lwu rs rt imm => iWord 0x27 rs rt imm
  | .sb rs rt imm => iWord 0x28 rs rt imm
  | .sh rs rt imm => iWord 0x29 rs rt imm
  | .swl rs rt imm => iWord 0x2A rs rt imm
  | .sw rs rt imm => iWord 0x2B rs rt imm
  | .swr rs rt imm => iWord 0x2E rs rt imm
  | .cache rs rt imm => iWord 0x2F rs rt imm

/-! ### Pseudo-instructions

Each is a second name of one real instruction (30_encoding.md rule R75), so it has no constructor and no meaning of its
own: its effect is its expansion's. -/

/-- `nop` is `sll r0, r0, 0`. -/
def pseudoNop : Instr := .sll 0 0 0 0

/-- `move rd, rs` is `or rd, rs, r0`. -/
def pseudoMove (rd rs : RegIdx) : Instr := .or rs 0 rd 0

/-- `li rt, imm` is `addi rt, r0, imm`; the field holds the values from -32768 to 32767 and no others. -/
def pseudoLi (rt : RegIdx) (imm : BitVec 16) : Instr := .addi 0 rt imm

/-- `b off` is `beq r0, r0, off`. -/
def pseudoB (off : BitVec 16) : Instr := .beq 0 0 off

/-- `bal off` is `bgezal r0, off`. -/
def pseudoBal (off : BitVec 16) : Instr := .bgezal 0 off

/-- `neg rd, rt` is `sub rd, r0, rt`. -/
def pseudoNeg (rd rt : RegIdx) : Instr := .sub 0 rt rd 0

/-- `not rd, rs` is `nor rd, rs, r0`. -/
def pseudoNot (rd rs : RegIdx) : Instr := .nor rs 0 rd 0

/-! ### The opcode table's numbering -/

/-- The instruction this decoder reads from an opcode-table row's bits: bit 0 is the least significant bit of the first
(and only) word; bits above `nbits` are 0. -/
def decodeTableWord (nbits w : Nat) : Option Instr :=
  match decode (BitVec.ofNat 32 (w % 2 ^ nbits)) with
  | .ok i => some i
  | .error _ => none

end Sys2Proof
end

