-- ==== Sys2Proof/Machine/Platform.lean ====
section
/-! DEFINITION. The default configuration of the block: the address map of 92_eei_decisions.md D27 with the initial
contents of 70_reset_and_hazards.md rule R246, the reset parameters of D29 and D43, and the registers that
70_reset_and_hazards.md rule R241 fills. The addresses and register numbers are the spec's defaults, from general
knowledge and not normative: PRESUMED, assumption log entry 1. -/

namespace Sys2Proof.Machine

/-- The size of the ROM header: 4096 bytes (70_reset_and_hazards.md rule R247, 92_eei_decisions.md D44). -/
def headerSize : Nat := 0x1000

/-- HDR of 70_reset_and_hazards.md rule R246: the first 4096 bytes of the ROM image. -/
def romHeader (rom : Image) : List Host.Cell :=
  rom.bytes.filter (fun c => c.1 < headerSize)

/-- RAM_SIZE's default, "multi-megabyte" (00_scope.md rule R3). -/
def defaultRamSize : Nat := 0x00400000

/-- One small device window (92_eei_decisions.md D27, entries 3 to 11). -/
def deviceWindow (start : Addr) (size : Nat) : Region := ⟨start, size, .readWriteDevice⟩

/-- The default map in registration order (92_eei_decisions.md D27). RAM is all 0x00; the scratchpad holds the header
and then 0x00; the ROM-header window holds the header (70_reset_and_hazards.md rule R246). -/
def defaultRegions (rom : Image) (ramSize : Nat) : List Region :=
  [⟨0x00000000, ramSize, .readWriteData []⟩,
   ⟨0xA4000000, 0x2000, .readWriteData (romHeader rom)⟩] ++
  [deviceWindow 0xA4040000 0x20, deviceWindow 0xA4100000 0x20, deviceWindow 0xA4200000 0x10,
   deviceWindow 0xA4300000 0x10, deviceWindow 0xA4400000 0x38, deviceWindow 0xA4500000 0x18,
   deviceWindow 0xA4600000 0x34, deviceWindow 0xA4700000 0x20, deviceWindow 0xA4800000 0x1C] ++
  [⟨0xB0000000, headerSize, .readOnlyData (romHeader rom)⟩,
   ⟨0x80000000, 0x20000000, .dummy⟩,
   ⟨0xA0000000, 0x20000000, .dummy⟩]

/-- The ROM image of the default configuration: 4096 bytes of 0x00. The spec gives ROM no default; DESIGN CHOICE,
assumption log entry 2. -/
def defaultRom : Image := ⟨headerSize, []⟩

/-- The default parameters (92_eei_decisions.md D27, D29, D43) for a ROM image. Of an image shorter than 4096 bytes the
missing header bytes read 0x00: DESIGN CHOICE, assumption log entry 24. -/
def defaultParams (rom : Image) : Params where
  regions := defaultRegions rom defaultRamSize
  resetPc := 0xA4000040
  spIndex := 29
  resetSp := 0x00000000A4001FF0
  preset := #v[19, 20, 21, 22, 23]

/-- The values the five preset registers receive, in the order of `Params.preset` (10_state.md rule R22). -/
def presetValues : List Word := [0, 1, 0, 0x3F, 0]

/-- Put `v` in register `i` of a register file, but discard it for register 0 (10_state.md rule R11). -/
def putReg (regs : Vector Word 32) (i : RegIdx) (v : Word) : Vector Word 32 :=
  if i = 0 then regs else regs.set i.toNat v i.isLt

/-- The general registers after reset (70_reset_and_hazards.md rule R241): all 0, then the five presets, then the
stack pointer. -/
def resetRegs (p : Params) : Vector Word 32 :=
  let presets := (p.preset.toList.zip presetValues).foldl (fun regs iv => putReg regs iv.1 iv.2)
    (Vector.replicate 32 0)
  putReg presets p.spIndex p.resetSp

/-- HI and LO after reset (10_state.md rule R22, decision D29). -/
def resetAccumulator : Word := 0

end Sys2Proof.Machine
end

