-- ==== Sys2Proof/Machine/State.lean ====
section
/-! DEFINITION. The state of the block (10_state.md rule R10), its reset value, and the reasons a step can stop. -/

namespace Sys2Proof.Machine

/-- The pending effect a control transfer gives the scheduler (10_state.md rule R16). -/
inductive Effect where
  | noRedirect
  | redirect (t : Addr)
deriving DecidableEq, Repr

/-- The state of the DelaySlotScheduler (10_state.md rule R16). -/
inductive Sched where
  | idle
  | pending (e : Effect)
deriving DecidableEq, Repr

/-- A fatal condition with what it reports (60_exceptions.md rule R210). The word of an `unmappedAddress` is absent
when the instruction fetch itself is unmapped (rule R213). -/
inductive Diagnostic where
  | decodeError (word : InstrWord) (pc : Addr)
  | unmappedAddress (word : Option InstrWord) (pc addr : Addr)
  | branchInDelaySlot (word : InstrWord) (pc : Addr)
deriving DecidableEq, Repr

/-- The run state (10_state.md rule R17). The value of `State.run` is what the `halted` port shows
(40_dispatch_step.md rule R94). -/
inductive Run where
  | running
  | halted (d : Diagnostic)
deriving DecidableEq, Repr

/-- A record on the log port (60_exceptions.md rule R216). -/
inductive LogRecord where
  | unimplementedInstruction (word : InstrWord) (pc : Addr)
  | dummyRead (addr : Addr)
  | dummyWrite (addr : Addr) (byte : Byte)
deriving DecidableEq, Repr

/-- A call of a device endpoint: `region` is the region's place in the registration order, `off` the offset
`address - start` (20_memory.md rule R43). -/
inductive DeviceEvent where
  | read (region off : Nat)
  | write (region off : Nat) (byte : Byte)
deriving DecidableEq, Repr

/-- The state of the block: 10_state.md rule R10 (a) to (g), then the configuration it was constructed with, its
outputs and its `run_request` input, and the model's own counter of free values. -/
structure State where
  /-- The general registers (10_state.md rule R11). -/
  regs : Vector Word 32
  /-- The accumulator HI (10_state.md rule R13). -/
  hi : Word
  /-- The accumulator LO (10_state.md rule R13). -/
  lo : Word
  /-- The program counter (10_state.md rule R14). -/
  pc : Addr
  /-- The load-linked indicator bit, unused (10_state.md rule R15). -/
  ll : Bool
  /-- The delay-slot scheduler (10_state.md rule R16). -/
  sched : Sched
  /-- The run state (10_state.md rule R17). -/
  run : Run
  /-- The bytes of every Data region's buffer (10_state.md rule R18), as the cells that differ from their initial
  contents, in rising order of key. The key of a byte is `cellKey` of its region and offset. -/
  mem : List Host.Cell
  /-- REGIONS, in registration order, fixed at construction (20_memory.md rule R30). -/
  regions : List Region
  /-- The history of the log port, oldest first (60_exceptions.md rule R216). -/
  log : List LogRecord
  /-- The history of the device endpoint calls, oldest first (20_memory.md rule R43). -/
  deviceLog : List DeviceEvent
  /-- The level of the `run_request` input at the next iteration boundary (40_dispatch_step.md rule R92). -/
  runRequest : Bool
  /-- The model's own: how many free values have been drawn. Assumption log entries 3 and 4. -/
  draws : Nat
deriving DecidableEq, Repr

/-- Why the machine is stuck, with no next state. -/
inductive Fault where
  /-- Raised by `State.failAccess` (a fetch, a load or a store) when resolving an address has restarted as many times
  as there are regions and meets one more Mirror: the hardware would hang (20_memory.md rule R38). Safe: no claim about
  the hardware's next state can be proved there. It needs a region list that breaks clause (e) of rule R34, and
  `State.construct` admits none. -/
  | mirrorLoop
deriving DecidableEq, Repr

/-- Why an instruction has no meaning. -/
inductive Refusal where
  /-- Raised by `exec` for an instruction not modelled yet. Safe. No arm raises it: every instruction has its meaning. -/
  | notModelled (mnemonic : String)
deriving DecidableEq, Repr

/-- What a meaning and a step answer. -/
abbrev Result := Host.Outcome State Fault Refusal

/-- Every piece of state at its reset value (10_state.md rule R22, 70_reset_and_hazards.md rule R241). -/
def State.initial (p : Params) : State where
  regs := resetRegs p
  hi := resetAccumulator
  lo := resetAccumulator
  pc := p.resetPc
  ll := false
  sched := .idle
  run := .running
  mem := []
  regions := p.regions
  log := []
  deviceLog := []
  runRequest := true
  draws := 0

/-- Construction: the block in its reset state, or none for parameters the model does not admit (20_memory.md
rule R34, 70_reset_and_hazards.md rule R241: such a configuration is refused). The length of the ROM image is not among
what it asks: DESIGN CHOICE, assumption log entry 24. -/
def State.construct (p : Params) : Option State :=
  if p.wellFormed then some (State.initial p) else none

/-- The machine right after reset, in the default configuration. -/
def State.reset : State := State.initial (defaultParams defaultRom)

end Sys2Proof.Machine
end

