-- ==== Sys2Proof/Machine/AddressSpace.lean ====
section
/-! DEFINITION. The resolver (20_memory.md rules R35 to R39), the buffers of the Data regions (rule R40), and the list
of cells that holds their bytes. -/

namespace Sys2Proof.Machine

/-! ### Resolution -/

/-- Whether a kind supports an intent (20_memory.md rule R35). -/
def supports (k : RegionKind) (intent : Intent) : Bool :=
  match k, intent with
  | .empty, _ => false
  | .dummy, _ => true
  | .readWriteData _, _ => true
  | .readOnlyData _, .read => true
  | .readOnlyData _, .write => false
  | .readWriteDevice, _ => true
  | .readOnlyDevice, .read => true
  | .readOnlyDevice, .write => false
  | .writeOnlyDevice, .read => false
  | .writeOnlyDevice, .write => true
  | .mirror _, _ => true

/-- The region's range contains the address (20_memory.md rule R31). -/
def covers (r : Region) (a : Addr) : Bool :=
  decide (r.start.toNat ≤ a.toNat) && decide (a.toNat < r.start.toNat + r.size)

/-- The address rebased by a Mirror: `(a + (target - start)) mod 2^32` (20_memory.md rule R37). -/
def rebase (r : Region) (target a : Addr) : Addr := a + (target - r.start)

/-- Where one byte access lands: `Target(k, off)` of 20_memory.md rule R36, sorted by what the region's kind does with
the access. A Dummy keeps the address after any rebasing, which its log record shows (rule R42). -/
inductive Target where
  | data (region off : Nat)
  | dummy (addr : Addr)
  | device (region off : Nat)
deriving DecidableEq, Repr

/-- What `resolve` answers: a target, `NoRegion` (20_memory.md rule R39), or no answer because the fuel of rule R38 is
exhausted. -/
inductive Resolution where
  | target (t : Target)
  | noRegion
  | loop
deriving DecidableEq, Repr

/-- The first region, from the one registered at place `k` on, whose range contains the address and whose kind
supports the intent (20_memory.md rule R36). -/
def firstMatch (a : Addr) (intent : Intent) : Nat → List Region → Option (Nat × Region)
  | _, [] => none
  | k, r :: rest =>
    if covers r a && supports r.kind intent then some (k, r) else firstMatch a intent (k + 1) rest

/-- What matching region `r`, registered at place `k`, makes of the address: a target, or the rebased address with
which resolution restarts. An Empty region matches no intent, so its arm is never reached (20_memory.md rule R44). -/
def landing (k : Nat) (r : Region) (a : Addr) : Resolution ⊕ Addr :=
  match r.kind with
  | .mirror t => .inr (rebase r t a)
  | .readWriteData _ => .inl (.target (.data k (a.toNat - r.start.toNat)))
  | .readOnlyData _ => .inl (.target (.data k (a.toNat - r.start.toNat)))
  | .dummy => .inl (.target (.dummy a))
  | .readWriteDevice => .inl (.target (.device k (a.toNat - r.start.toNat)))
  | .readOnlyDevice => .inl (.target (.device k (a.toNat - r.start.toNat)))
  | .writeOnlyDevice => .inl (.target (.device k (a.toNat - r.start.toNat)))
  | .empty => .inl .noRegion

/-- `resolve` with a fuel of restarts (20_memory.md rules R36 to R38). -/
def resolveFuel (regions : List Region) (intent : Intent) : Nat → Addr → Resolution
  | 0, a =>
    match firstMatch a intent 0 regions with
    | none => .noRegion
    | some (k, r) =>
      match landing k r a with
      | .inl res => res
      | .inr _ => .loop
  | fuel + 1, a =>
    match firstMatch a intent 0 regions with
    | none => .noRegion
    | some (k, r) =>
      match landing k r a with
      | .inl res => res
      | .inr a' => resolveFuel regions intent fuel a'

/-- `resolve(a, intent)` (20_memory.md rule R36), with the fuel of rule R38: as many restarts as there are
regions. -/
def resolve (regions : List Region) (a : Addr) (intent : Intent) : Resolution :=
  resolveFuel regions intent regions.length a

/-- Why an access performs nothing: a byte is unmapped (20_memory.md rule R39), or a resolution does not end. -/
inductive AccessFailure where
  | unmapped (addr : Addr)
  | loop
deriving DecidableEq, Repr

/-- The addresses of an access of `n` bytes, ascending modulo 2^32 (20_memory.md rules R45, R46). -/
def accessAddrs (a : Addr) (n : Nat) : List Addr :=
  (List.range n).map (fun i => a + BitVec.ofNat 32 i)

/-- Resolve every byte of an access, each on its own, before any is performed; of several unmapped bytes the first in
access order is the one reported (20_memory.md rule R47, 60_exceptions.md rule R213). -/
def resolveAll (regions : List Region) (intent : Intent) : List Addr → Except AccessFailure (List Target)
  | [] => .ok []
  | a :: rest =>
    match resolve regions a intent with
    | .noRegion => .error (.unmapped a)
    | .loop => .error .loop
    | .target t =>
      match resolveAll regions intent rest with
      | .ok ts => .ok (t :: ts)
      | .error e => .error e

/-! ### The bytes of the Data regions -/

/-- The key under which `State.mem` lists the byte at an offset of a region: every offset of a well-formed region is
below 2^32. Assumption log entry 11. -/
def cellKey (region off : Nat) : Nat := region * 2 ^ 32 + off

/-- The byte that a list of cells gives a key, `dflt` being what an unlisted key reads as. -/
def Memory.get (dflt : Nat → Byte) : List Host.Cell → Nat → Byte
  | [], key => dflt key
  | c :: rest, key => if c.1 = key then c.2 else Memory.get dflt rest key

/-- A list of cells with one byte written, in canonical form: the cell is left out when the byte is what an unlisted
key reads as. -/
def Memory.set (dflt : Nat → Byte) (key : Nat) (b : Byte) : List Host.Cell → List Host.Cell
  | [] => if b = dflt key then [] else [(key, b)]
  | c :: rest =>
    if c.1 < key then c :: Memory.set dflt key b rest
    else if c.1 = key then (if b = dflt key then rest else (key, b) :: rest)
    else (if b = dflt key then c :: rest else (key, b) :: c :: rest)

/-- The canonical form: keys strictly rising, and no cell equal to what an unlisted key reads as. -/
def Memory.wf (dflt : Nat → Byte) (cells : List Host.Cell) : Bool :=
  decide (cells.Pairwise (fun c d => c.1 < d.1)) && cells.all (fun c => c.2 != dflt c.1)

/-- The initial byte at an offset of a region's buffer (70_reset_and_hazards.md rule R246): an offset its kind does
not list holds 0x00. -/
def bufferInit (r : Region) (off : Nat) : Byte :=
  match r.kind with
  | .readWriteData init => Memory.get (fun _ => 0) init off
  | .readOnlyData init => Memory.get (fun _ => 0) init off
  | _ => 0

/-- What an unlisted key reads as: the initial contents of the buffer the key is in (70_reset_and_hazards.md
rule R246). -/
def initialByte (regions : List Region) (key : Nat) : Byte :=
  match regions[key / 2 ^ 32]? with
  | some r => bufferInit r (key % 2 ^ 32)
  | none => 0

/-- The key lies in the buffer of a ReadWriteData region. -/
def inWritableBuffer (regions : List Region) (key : Nat) : Bool :=
  match regions[key / 2 ^ 32]? with
  | some r =>
    match r.kind with
    | .readWriteData _ => decide (key % 2 ^ 32 < r.size)
    | _ => false
  | none => false

end Sys2Proof.Machine
end

