-- ==== Sys2Proof/Machine/Ops.lean ====
section
/-! DEFINITION. The operations every meaning is made of: registers, the log, byte and multi-byte access, the scheduler,
and what a fatal condition does. -/

namespace Sys2Proof.Machine

/-! ### Registers -/

/-- Read general register `i`; `x[0]` is always 0 (10_state.md rule R11). -/
def State.readReg (s : State) (i : RegIdx) : Word :=
  if i = 0 then 0 else s.regs[i.toNat]'i.isLt

/-- Write general register `i`; discarded when `i = 0` (10_state.md rule R11). -/
def State.writeReg (s : State) (i : RegIdx) (v : Word) : State :=
  { s with regs := putReg s.regs i v }

/-- Write HI (10_state.md rule R13). -/
def State.writeHi (s : State) (v : Word) : State := { s with hi := v }

/-- Write LO (10_state.md rule R13). -/
def State.writeLo (s : State) (v : Word) : State := { s with lo := v }

/-- LINK_INDEX: the link register of JAL and the linking branches is r31 (45_branches.md rule R147). -/
def linkIndex : RegIdx := 31

/-! ### The scheduler -/

/-- `sched <- Pending(e)`: how a control-transfer handler affects control flow (40_dispatch_step.md rule R88). -/
def State.enqueue (s : State) (e : Effect) : State := { s with sched := .pending e }

/-! ### Outputs -/

/-- Emit one record on the log port (60_exceptions.md rule R216). -/
def State.emit (s : State) (r : LogRecord) : State := { s with log := s.log ++ [r] }

/-- Call a device endpoint (20_memory.md rule R43). -/
def State.callDevice (s : State) (e : DeviceEvent) : State := { s with deviceLog := s.deviceLog ++ [e] }

/-! ### Fatal conditions -/

/-- What every fatal condition does (60_exceptions.md rule R212): the run halts with the diagnostic, and nothing else
changes. It stands where other machines enter an exception handler (rule R221); there is no return (rule R222). -/
def State.halt (s : State) (d : Diagnostic) : State := { s with run := .halted d }

/-- An access that performs nothing: `Fatal.UnmappedAddress` with the instruction word, absent for a fetch
(60_exceptions.md rule R213), or the stuck machine of 20_memory.md rule R38. -/
def State.failAccess (s : State) (word : Option InstrWord) (f : AccessFailure) : Result :=
  match f with
  | .unmapped a => .next (s.halt (.unmappedAddress word s.pc a))
  | .loop => .fault .mirrorLoop

/-! ### Bytes -/

/-- The byte at an offset of a Data region's buffer (20_memory.md rule R40). -/
def State.bufferByte (s : State) (region off : Nat) : Byte :=
  Memory.get (initialByte s.regions) s.mem (cellKey region off)

/-- Set the byte at an offset of a Data region's buffer (20_memory.md rule R40). -/
def State.setBufferByte (s : State) (region off : Nat) (b : Byte) : State :=
  { s with mem := Memory.set (initialByte s.regions) (cellKey region off) b s.mem }

/-- The byte an access with intent Read finds at an address, as far as the block's state decides it, with no effect:
none for a device and where nothing is mapped. -/
def State.peek (s : State) (a : Addr) : Option Byte :=
  match resolve s.regions a .read with
  | .target (.data k off) => some (s.bufferByte k off)
  | .target (.dummy _) => some 0
  | _ => none

/-- Read one byte of a resolved target (20_memory.md rules R40, R42, R43): a Data buffer's byte; zero and a log record
from a Dummy; a free byte and a call of the read endpoint from a device. -/
def State.readTarget (s : State) (t : Target) : Byte × State :=
  match t with
  | .data k off => (s.bufferByte k off, s)
  | .dummy a => (0, s.emit (.dummyRead a))
  | .device k off =>
    (Config.freeByte s.draws, { s.callDevice (.read k off) with draws := s.draws + 1 })

/-- Write one byte to a resolved target (20_memory.md rules R40, R42, R43). -/
def State.writeTarget (s : State) (t : Target) (b : Byte) : State :=
  match t with
  | .data k off => s.setBufferByte k off b
  | .dummy a => s.emit (.dummyWrite a b)
  | .device k off => s.callDevice (.write k off b)

/-- Read the bytes of resolved targets in order (20_memory.md rule R47). -/
def State.readTargets (s : State) : List Target → List Byte × State
  | [] => ([], s)
  | t :: rest =>
    let (b, s1) := s.readTarget t
    let (bs, s2) := s1.readTargets rest
    (b :: bs, s2)

/-- Write bytes to resolved targets in order (20_memory.md rule R47). -/
def State.writeTargets (s : State) : List (Target × Byte) → State
  | [] => s
  | (t, b) :: rest => (s.writeTarget t b).writeTargets rest

/-! ### Multi-byte access -/

/-- The bytes of the `8n`-bit value in the low bits of `v`, the most significant byte first: byte `i` is
`v[8(n-i)-1 : 8(n-i)-8]` (20_memory.md rule R46). -/
def bytesOf (n : Nat) (v : Word) : List Byte :=
  (List.range n).map (fun i => v.extractLsb' (8 * (n - 1 - i)) 8)

/-- `MemRead(a, n)` (20_memory.md rule R45): the bytes in ascending address order, and the state after their log
records and device calls. `bigEndian` makes the value. -/
def State.memRead (s : State) (a : Addr) (n : Nat) : Except AccessFailure (List Byte × State) :=
  match resolveAll s.regions .read (accessAddrs a n) with
  | .ok ts => .ok (s.readTargets ts)
  | .error f => .error f

/-- `MemWrite(a, n, v)` (20_memory.md rule R46). -/
def State.memWrite (s : State) (a : Addr) (n : Nat) (v : Word) : Except AccessFailure State :=
  match resolveAll s.regions .write (accessAddrs a n) with
  | .ok ts => .ok (s.writeTargets (ts.zip (bytesOf n v)))
  | .error f => .error f

/-! ### Free values -/

/-- HI and LO take two values the rules do not fix (43_muldiv_hilo.md rule R129). -/
def State.drawHiLo (s : State) : State :=
  { s with hi := Config.freeWord s.draws, lo := Config.freeWord (s.draws + 1), draws := s.draws + 2 }

end Sys2Proof.Machine
end

