-- ==== Sys2Proof/Machine/Operands.lean ====
section
/-! DEFINITION. How operands, addresses, targets and extended results are assembled (30_encoding.md rule R66). -/

namespace Sys2Proof.Machine

/-- `trunc_32(v)`: the low 32 bits (00_scope.md rule R5). -/
def low32 (v : Word) : BitVec 32 := v.extractLsb' 0 32

/-- `sext_64` of a 32-bit result (43_muldiv_hilo.md rule R128). -/
def sext64 (v : BitVec 32) : Word := v.signExtend 64

/-- `zext_64` of a 32-bit result (42_shifts.md rule R112) or of an address (46_jumps.md rule R170). -/
def zext64 (v : BitVec 32) : Word := v.setWidth 64

/-- The arithmetic immediate and the load/store displacement: `sext_64(imm)` (30_encoding.md rule R66). -/
def immWord (imm : BitVec 16) : Word := imm.signExtend 64

/-- The effective address: the low 32 bits of base plus displacement (47_loads_stores.md rule R180). -/
def effectiveAddr (base : Word) (imm : BitVec 16) : Addr := low32 (base + immWord imm)

/-- The branch target `(P + 4 + (sext_32(imm) << 2)) mod 2^32` (45_branches.md rule R145). -/
def branchTarget (pc : Addr) (imm : BitVec 16) : Addr := pc + 4 + (imm.signExtend 32 <<< 2)

/-- The absolute jump target `P[31:28] ++ target ++ 0b00` (46_jumps.md rule R170). -/
def jumpTarget (pc : Addr) (target : BitVec 26) : Addr := pc.extractLsb' 28 4 ++ target ++ 0b00#2

/-- The register jump target: the low 32 bits of the register (46_jumps.md rule R170). -/
def registerTarget (v : Word) : Addr := low32 v

/-- The link value `zext_64((P + 8) mod 2^32)` (45_branches.md rule R147). -/
def linkValue (pc : Addr) : Word := zext64 (pc + 8)

/-- The amount of a variable shift: the low five bits of the register (42_shifts.md rule R110). -/
def shiftAmount (v : Word) : BitVec 5 := v.extractLsb' 0 5

/-- A loaded value of `n` bytes, zero-extended to 64 bits (47_loads_stores.md rules R182, R184, R186). -/
def loadZero (bytes : List Byte) : Word := BitVec.ofNat 64 (bigEndian bytes)

/-- A loaded value of `n` bytes, sign-extended to 64 bits (47_loads_stores.md rules R181, R183, R185). -/
def loadSign (bytes : List Byte) : Word :=
  (BitVec.ofNat (8 * bytes.length) (bigEndian bytes)).signExtend 64

end Sys2Proof.Machine
end

