-- ==== Sys2Proof/Machine/Flags.lean ====
section
/-! DEFINITION. The hardware has no flags and no condition codes (10_state.md rule R19). What stands here is what takes
their place: the conditions of the branches (45_branches.md rule R146) and of SLT and SLTU (44_compare_bitwise.md
rule R135), computed on all 64 bits and written nowhere but to the scheduler or a general register. -/

namespace Sys2Proof.Machine

/-- All 64 bits agree (45_branches.md rules R149, R150). -/
def condEq (a b : Word) : Bool := a == b

/-- `signed(v) <= 0` (45_branches.md rule R151). -/
def condLez (v : Word) : Bool := decide (v.toInt ≤ 0)

/-- `signed(v) > 0` (45_branches.md rule R152). -/
def condGtz (v : Word) : Bool := decide (0 < v.toInt)

/-- `signed(v) < 0`, that is bit 63 (45_branches.md rule R153). -/
def condLtz (v : Word) : Bool := decide (v.toInt < 0)

/-- `signed(v) >= 0` (45_branches.md rule R154). -/
def condGez (v : Word) : Bool := decide (0 ≤ v.toInt)

/-- 64-bit signed comparison, as the value 1 or 0 (44_compare_bitwise.md rule R136). -/
def lessSigned (a b : Word) : Word := if a.toInt < b.toInt then 1 else 0

/-- 64-bit unsigned comparison, as the value 1 or 0 (44_compare_bitwise.md rule R137). -/
def lessUnsigned (a b : Word) : Word := if a.toNat < b.toNat then 1 else 0

end Sys2Proof.Machine
end

