-- ==== Sys2Proof/Machine/AddSub.lean ====
section
/-! DEFINITION. ADD, ADDU, SUB, SUBU, ADDI (41_alu_register.md), and the shape of every instruction that computes one general
register from two. -/

namespace Sys2Proof.Machine

/-- `x[rd] <- f(x[rs], x[rt])`: the sources are read before the destination is written (41_alu_register.md
rule R101). -/
def registerOp (f : Word → Word → Word) (rs rt rd : RegIdx) (s : State) : Result :=
  .next (s.writeReg rd (f (s.readReg rs) (s.readReg rt)))

/-- ADD: 64-bit, wrapping, no trap (41_alu_register.md rules R100, R102). -/
def execAdd (rs rt rd : RegIdx) (s : State) : Result := registerOp (· + ·) rs rt rd s

/-- ADDU behaves identically to ADD (41_alu_register.md rule R103). -/
def execAddu (rs rt rd : RegIdx) (s : State) : Result := registerOp (· + ·) rs rt rd s

/-- SUB: 64-bit, wrapping, no trap (41_alu_register.md rules R100, R104). -/
def execSub (rs rt rd : RegIdx) (s : State) : Result := registerOp (· - ·) rs rt rd s

/-- SUBU behaves identically to SUB (41_alu_register.md rule R105). -/
def execSubu (rs rt rd : RegIdx) (s : State) : Result := registerOp (· - ·) rs rt rd s

/-- ADDI: `x[rt] <- x[rs] + sext_64(imm)`, no trap (41_alu_register.md rule R106). -/
def execAddi (rs rt : RegIdx) (imm : BitVec 16) (s : State) : Result :=
  .next (s.writeReg rt (s.readReg rs + immWord imm))

end Sys2Proof.Machine
end

