-- ==== Sys2Proof/Machine/Branches.lean ====
section
/-! DEFINITION. The sixteen conditional branches (45_branches.md). -/

namespace Sys2Proof.Machine

/-- What every branch handler does with its condition: hand the scheduler the target or NoRedirect
(45_branches.md rule R146). -/
def branchOn (taken : Bool) (imm : BitVec 16) (s : State) : Result :=
  .next (s.enqueue (if taken then .redirect (branchTarget s.pc imm) else .noRedirect))

/-- A branch on two registers (45_branches.md rules R149, R150). -/
def branchTwo (cond : Word → Word → Bool) (rs rt : RegIdx) (imm : BitVec 16) (s : State) : Result :=
  branchOn (cond (s.readReg rs) (s.readReg rt)) imm s

/-- A branch that tests one register (45_branches.md rules R151 to R154). -/
def branchTest (cond : Word → Bool) (rs : RegIdx) (imm : BitVec 16) (s : State) : Result :=
  branchOn (cond (s.readReg rs)) imm s

/-- A linking branch: the condition is evaluated on the old register, and r31 is written at issue, taken or not
(45_branches.md rule R147). -/
def branchLink (cond : Word → Bool) (rs : RegIdx) (imm : BitVec 16) (s : State) : Result :=
  branchOn (cond (s.readReg rs)) imm (s.writeReg linkIndex (linkValue s.pc))

/-- BEQ (45_branches.md rule R149). -/
def execBeq (rs rt : RegIdx) (imm : BitVec 16) (s : State) : Result := branchTwo condEq rs rt imm s

/-- BNE (45_branches.md rule R150). -/
def execBne (rs rt : RegIdx) (imm : BitVec 16) (s : State) : Result := branchTwo (fun a b => !condEq a b) rs rt imm s

/-- BLEZ (45_branches.md rule R151). -/
def execBlez (rs : RegIdx) (imm : BitVec 16) (s : State) : Result := branchTest condLez rs imm s

/-- BGTZ (45_branches.md rule R152). -/
def execBgtz (rs : RegIdx) (imm : BitVec 16) (s : State) : Result := branchTest condGtz rs imm s

/-- BLTZ (45_branches.md rule R153). -/
def execBltz (rs : RegIdx) (imm : BitVec 16) (s : State) : Result := branchTest condLtz rs imm s

/-- BGEZ (45_branches.md rule R154). -/
def execBgez (rs : RegIdx) (imm : BitVec 16) (s : State) : Result := branchTest condGez rs imm s

/-- BLTZAL (45_branches.md rule R155). -/
def execBltzal (rs : RegIdx) (imm : BitVec 16) (s : State) : Result := branchLink condLtz rs imm s

/-- BGEZAL (45_branches.md rule R156). -/
def execBgezal (rs : RegIdx) (imm : BitVec 16) (s : State) : Result := branchLink condGez rs imm s

/-- BEQL: exactly BEQ (45_branches.md rules R148, R157). -/
def execBeql (rs rt : RegIdx) (imm : BitVec 16) (s : State) : Result := branchTwo condEq rs rt imm s

/-- BNEL: exactly BNE (45_branches.md rules R148, R158). -/
def execBnel (rs rt : RegIdx) (imm : BitVec 16) (s : State) : Result := branchTwo (fun a b => !condEq a b) rs rt imm s

/-- BLEZL: exactly BLEZ (45_branches.md rules R148, R159). -/
def execBlezl (rs : RegIdx) (imm : BitVec 16) (s : State) : Result := branchTest condLez rs imm s

/-- BGTZL: exactly BGTZ (45_branches.md rules R148, R160). -/
def execBgtzl (rs : RegIdx) (imm : BitVec 16) (s : State) : Result := branchTest condGtz rs imm s

/-- BLTZL: exactly BLTZ (45_branches.md rules R148, R161). -/
def execBltzl (rs : RegIdx) (imm : BitVec 16) (s : State) : Result := branchTest condLtz rs imm s

/-- BGEZL: exactly BGEZ (45_branches.md rules R148, R162). -/
def execBgezl (rs : RegIdx) (imm : BitVec 16) (s : State) : Result := branchTest condGez rs imm s

/-- BLTZALL: exactly BLTZAL, link included (45_branches.md rules R148, R163). -/
def execBltzall (rs : RegIdx) (imm : BitVec 16) (s : State) : Result := branchLink condLtz rs imm s

/-- BGEZALL: exactly BGEZAL, link included (45_branches.md rules R148, R164). -/
def execBgezall (rs : RegIdx) (imm : BitVec 16) (s : State) : Result := branchLink condGez rs imm s

end Sys2Proof.Machine
end

