-- ==== Sys2Proof/Machine/CompareBitwise.lean ====
section
/-! DEFINITION. SLT, SLTU, AND, OR, XOR, NOR (44_compare_bitwise.md). -/

namespace Sys2Proof.Machine

/-- SLT: 64-bit signed comparison (44_compare_bitwise.md rule R136). -/
def execSlt (rs rt rd : RegIdx) (s : State) : Result := registerOp lessSigned rs rt rd s

/-- SLTU: 64-bit unsigned comparison (44_compare_bitwise.md rule R137). -/
def execSltu (rs rt rd : RegIdx) (s : State) : Result := registerOp lessUnsigned rs rt rd s

/-- AND on 64 bits (44_compare_bitwise.md rule R138). -/
def execAnd (rs rt rd : RegIdx) (s : State) : Result := registerOp (· &&& ·) rs rt rd s

/-- OR on 64 bits (44_compare_bitwise.md rule R139). -/
def execOr (rs rt rd : RegIdx) (s : State) : Result := registerOp (· ||| ·) rs rt rd s

/-- XOR on 64 bits (44_compare_bitwise.md rule R140). -/
def execXor (rs rt rd : RegIdx) (s : State) : Result := registerOp (· ^^^ ·) rs rt rd s

/-- NOR: every one of the 64 bits inverted (44_compare_bitwise.md rule R141). -/
def execNor (rs rt rd : RegIdx) (s : State) : Result := registerOp (fun a b => ~~~(a ||| b)) rs rt rd s

end Sys2Proof.Machine
end

