-- ==== Sys2Proof/Machine/Jumps.lean ====
section
/-! DEFINITION. J, JAL, JR, JALR (46_jumps.md). The link is written after the register target is read (rule R170). -/

namespace Sys2Proof.Machine

/-- J (46_jumps.md rule R171). -/
def execJ (target : BitVec 26) (s : State) : Result :=
  .next (s.enqueue (.redirect (jumpTarget s.pc target)))

/-- JAL: r31 is written at issue (46_jumps.md rule R172). -/
def execJal (target : BitVec 26) (s : State) : Result :=
  .next ((s.writeReg linkIndex (linkValue s.pc)).enqueue (.redirect (jumpTarget s.pc target)))

/-- JR (46_jumps.md rule R173). -/
def execJr (rs : RegIdx) (s : State) : Result :=
  .next (s.enqueue (.redirect (registerTarget (s.readReg rs))))

/-- JALR: the target is the old `x[rs]`, the link goes to `x[rd]` (46_jumps.md rule R174). -/
def execJalr (rs rd : RegIdx) (s : State) : Result :=
  .next ((s.writeReg rd (linkValue s.pc)).enqueue (.redirect (registerTarget (s.readReg rs))))

end Sys2Proof.Machine
end

