-- ==== Sys2Proof/Machine/LoadStore.lean ====
section
/-! DEFINITION. LB, LBU, LH, LHU, LW, LWU, SB, SH, SW (47_loads_stores.md rules R180 to R189). A meaning gives its own word to the
diagnostic of an unmapped access (60_exceptions.md rule R213). -/

namespace Sys2Proof.Machine

/-- A load of `n` bytes (47_loads_stores.md rule R180): the register is written only after the read succeeds, and the
reads are performed even when `rt = 0`. -/
def loadOp (word : InstrWord) (n : Nat) (extend : List Byte → Word) (rs rt : RegIdx) (imm : BitVec 16)
    (s : State) : Result :=
  match s.memRead (effectiveAddr (s.readReg rs) imm) n with
  | .ok (bytes, s') => .next (s'.writeReg rt (extend bytes))
  | .error f => s.failAccess (some word) f

/-- A store of the low `n` bytes of `x[rt]` (47_loads_stores.md rule R180). -/
def storeOp (word : InstrWord) (n : Nat) (rs rt : RegIdx) (imm : BitVec 16) (s : State) : Result :=
  match s.memWrite (effectiveAddr (s.readReg rs) imm) n (s.readReg rt) with
  | .ok s' => .next s'
  | .error f => s.failAccess (some word) f

/-- LB (47_loads_stores.md rule R181). -/
def execLb (rs rt : RegIdx) (imm : BitVec 16) (s : State) : Result :=
  loadOp (encode (.lb rs rt imm)) 1 loadSign rs rt imm s

/-- LBU (47_loads_stores.md rule R182). -/
def execLbu (rs rt : RegIdx) (imm : BitVec 16) (s : State) : Result :=
  loadOp (encode (.lbu rs rt imm)) 1 loadZero rs rt imm s

/-- LH (47_loads_stores.md rule R183). -/
def execLh (rs rt : RegIdx) (imm : BitVec 16) (s : State) : Result :=
  loadOp (encode (.lh rs rt imm)) 2 loadSign rs rt imm s

/-- LHU (47_loads_stores.md rule R184). -/
def execLhu (rs rt : RegIdx) (imm : BitVec 16) (s : State) : Result :=
  loadOp (encode (.lhu rs rt imm)) 2 loadZero rs rt imm s

/-- LW (47_loads_stores.md rule R185). -/
def execLw (rs rt : RegIdx) (imm : BitVec 16) (s : State) : Result :=
  loadOp (encode (.lw rs rt imm)) 4 loadSign rs rt imm s

/-- LWU (47_loads_stores.md rule R186). -/
def execLwu (rs rt : RegIdx) (imm : BitVec 16) (s : State) : Result :=
  loadOp (encode (.lwu rs rt imm)) 4 loadZero rs rt imm s

/-- SB (47_loads_stores.md rule R187). -/
def execSb (rs rt : RegIdx) (imm : BitVec 16) (s : State) : Result :=
  storeOp (encode (.sb rs rt imm)) 1 rs rt imm s

/-- SH (47_loads_stores.md rule R188). -/
def execSh (rs rt : RegIdx) (imm : BitVec 16) (s : State) : Result :=
  storeOp (encode (.sh rs rt imm)) 2 rs rt imm s

/-- SW (47_loads_stores.md rule R189). -/
def execSw (rs rt : RegIdx) (imm : BitVec 16) (s : State) : Result :=
  storeOp (encode (.sw rs rt imm)) 4 rs rt imm s

end Sys2Proof.Machine
end

