-- ==== Sys2Proof/Machine/MulDiv.lean ====
section
/-! DEFINITION. MULT, MULTU, DIV, DIVU, MFHI, MFLO, MTHI, MTLO (43_muldiv_hilo.md). Operands are converted to integers, the
result is computed exactly and narrowed at the end. -/

namespace Sys2Proof.Machine

/-- HI and LO take the upper and the lower half of an exact product, each sign-extended from its own bit 31
(43_muldiv_hilo.md rules R120, R121, R128). -/
def State.writeProduct (s : State) (p : Word) : State :=
  (s.writeHi (sext64 (p.extractLsb' 32 32))).writeLo (sext64 (p.extractLsb' 0 32))

/-- LO takes the quotient and HI the remainder, each as 32 bits and sign-extended (43_muldiv_hilo.md rules R122, R123,
R128). -/
def State.writeQuotient (s : State) (q r : Int) : State :=
  (s.writeLo (sext64 (BitVec.ofInt 32 q))).writeHi (sext64 (BitVec.ofInt 32 r))

/-- MULT (43_muldiv_hilo.md rule R120). -/
def execMult (rs rt : RegIdx) (s : State) : Result :=
  .next (s.writeProduct (BitVec.ofInt 64 ((low32 (s.readReg rs)).toInt * (low32 (s.readReg rt)).toInt)))

/-- MULTU (43_muldiv_hilo.md rule R121). -/
def execMultu (rs rt : RegIdx) (s : State) : Result :=
  .next (s.writeProduct (BitVec.ofNat 64 ((low32 (s.readReg rs)).toNat * (low32 (s.readReg rt)).toNat)))

/-- DIV (43_muldiv_hilo.md rule R122): free values for a zero divisor (rule R129), else the quotient rounded toward zero
and its remainder (rule R131). Of -2^31 by -1 the exact quotient 2^31 is truncated to 32 bits and the remainder is 0,
which is what rule R130 asks. -/
def execDiv (rs rt : RegIdx) (s : State) : Result :=
  let a := (low32 (s.readReg rs)).toInt
  let b := (low32 (s.readReg rt)).toInt
  if b = 0 then .next s.drawHiLo else .next (s.writeQuotient (a.tdiv b) (a.tmod b))

/-- DIVU (43_muldiv_hilo.md rule R123): free values for a zero divisor (rule R129). -/
def execDivu (rs rt : RegIdx) (s : State) : Result :=
  let a := (low32 (s.readReg rs)).toNat
  let b := (low32 (s.readReg rt)).toNat
  if b = 0 then .next s.drawHiLo else .next (s.writeQuotient (a / b : Nat) (a % b : Nat))

/-- MFHI (43_muldiv_hilo.md rule R124). -/
def execMfhi (rd : RegIdx) (s : State) : Result := .next (s.writeReg rd s.hi)

/-- MFLO (43_muldiv_hilo.md rule R125). -/
def execMflo (rd : RegIdx) (s : State) : Result := .next (s.writeReg rd s.lo)

/-- MTHI: all 64 bits (43_muldiv_hilo.md rule R126). -/
def execMthi (rs : RegIdx) (s : State) : Result := .next (s.writeHi (s.readReg rs))

/-- MTLO: all 64 bits (43_muldiv_hilo.md rule R127). -/
def execMtlo (rs : RegIdx) (s : State) : Result := .next (s.writeLo (s.readReg rs))

end Sys2Proof.Machine
end

