-- ==== Sys2Proof/Machine/Shifts.lean ====
section
/-! DEFINITION. SLL, SRL, SRA, SLLV, SRLV, SRAV (42_shifts.md). -/

namespace Sys2Proof.Machine

/-- Shift left within 64 bits (42_shifts.md rule R111). -/
def shiftLeft (v : Word) (n : BitVec 5) : Word := v <<< n.toNat

/-- Logical right shift within 64 bits (42_shifts.md rule R111). -/
def shiftRight (v : Word) (n : BitVec 5) : Word := v >>> n.toNat

/-- The "arithmetic" right shift as the hardware does it: a logical shift of the low 32 bits, zero-extended
(42_shifts.md rule R112, the defect retained). -/
def shiftRightTruncated (v : Word) (n : BitVec 5) : Word := zext64 (low32 v >>> n.toNat)

/-- `x[rd] <- f(x[rt], sa)` (42_shifts.md rule R110). -/
def shiftImmediate (f : Word → BitVec 5 → Word) (rt rd : RegIdx) (sa : BitVec 5) (s : State) : Result :=
  .next (s.writeReg rd (f (s.readReg rt) sa))

/-- `x[rd] <- f(x[rt], x[rs][4:0])` (42_shifts.md rule R110). -/
def shiftVariable (f : Word → BitVec 5 → Word) (rs rt rd : RegIdx) (s : State) : Result :=
  .next (s.writeReg rd (f (s.readReg rt) (shiftAmount (s.readReg rs))))

/-- SLL (42_shifts.md rule R113). -/
def execSll (rt rd : RegIdx) (sa : BitVec 5) (s : State) : Result := shiftImmediate shiftLeft rt rd sa s

/-- SRL (42_shifts.md rule R114). -/
def execSrl (rt rd : RegIdx) (sa : BitVec 5) (s : State) : Result := shiftImmediate shiftRight rt rd sa s

/-- SRA (42_shifts.md rule R115). -/
def execSra (rt rd : RegIdx) (sa : BitVec 5) (s : State) : Result := shiftImmediate shiftRightTruncated rt rd sa s

/-- SLLV (42_shifts.md rule R116). -/
def execSllv (rs rt rd : RegIdx) (s : State) : Result := shiftVariable shiftLeft rs rt rd s

/-- SRLV (42_shifts.md rule R117). -/
def execSrlv (rs rt rd : RegIdx) (s : State) : Result := shiftVariable shiftRight rs rt rd s

/-- SRAV (42_shifts.md rule R118). -/
def execSrav (rs rt rd : RegIdx) (s : State) : Result := shiftVariable shiftRightTruncated rs rt rd s

end Sys2Proof.Machine
end

