-- ==== Sys2Proof/Machine/Stubs.lean ====
section
/-! DEFINITION. The nine stubs: SYSCALL, BREAK, CACHE, MFC0, MTC0 (48_system_stubs.md) and LWL, LWR, SWL, SWR
(47_loads_stores.md rules R190 to R194). -/

namespace Sys2Proof.Machine

/-- The stub law (48_system_stubs.md rule R200, 47_loads_stores.md rule R194): one log record, nothing else. -/
def stubOp (word : InstrWord) (s : State) : Result :=
  .next (s.emit (.unimplementedInstruction word s.pc))

/-- SYSCALL (48_system_stubs.md rule R201). -/
def execSyscall (code : BitVec 20) (s : State) : Result := stubOp (encode (.syscall code)) s

/-- BREAK (48_system_stubs.md rule R202). -/
def execBreak (code : BitVec 20) (s : State) : Result := stubOp (encode (.brk code)) s

/-- CACHE (48_system_stubs.md rule R203). -/
def execCache (rs rt : RegIdx) (imm : BitVec 16) (s : State) : Result := stubOp (encode (.cache rs rt imm)) s

/-- MFC0 (48_system_stubs.md rule R204). -/
def execMfc0 (rt rd : RegIdx) (ign : BitVec 11) (s : State) : Result := stubOp (encode (.mfc0 rt rd ign)) s

/-- MTC0 (48_system_stubs.md rule R205). -/
def execMtc0 (rt rd : RegIdx) (ign : BitVec 11) (s : State) : Result := stubOp (encode (.mtc0 rt rd ign)) s

/-- LWL (47_loads_stores.md rule R190). -/
def execLwl (rs rt : RegIdx) (imm : BitVec 16) (s : State) : Result := stubOp (encode (.lwl rs rt imm)) s

/-- LWR (47_loads_stores.md rule R191). -/
def execLwr (rs rt : RegIdx) (imm : BitVec 16) (s : State) : Result := stubOp (encode (.lwr rs rt imm)) s

/-- SWL (47_loads_stores.md rule R192). -/
def execSwl (rs rt : RegIdx) (imm : BitVec 16) (s : State) : Result := stubOp (encode (.swl rs rt imm)) s

/-- SWR (47_loads_stores.md rule R193). -/
def execSwr (rs rt : RegIdx) (imm : BitVec 16) (s : State) : Result := stubOp (encode (.swr rs rt imm)) s

end Sys2Proof.Machine
end

