-- ==== Sys2Proof/Machine/Dispatch.lean ====
section
/-! DEFINITION. Dispatch: each instruction to exactly one handler (30_encoding.md rule R63, 40_dispatch_step.md
rule R91). The bits a handler ignores stop here (30_encoding.md rule R64). -/

namespace Sys2Proof.Machine

def exec (i : Instr) (s : State) : Host.Outcome State Fault Refusal :=
  match i with
  | .sll _ rt rd sa => Sys2Proof.Machine.execSll rt rd sa s
  | .srl _ rt rd sa => Sys2Proof.Machine.execSrl rt rd sa s
  | .sra _ rt rd sa => Sys2Proof.Machine.execSra rt rd sa s
  | .sllv rs rt rd _ => Sys2Proof.Machine.execSllv rs rt rd s
  | .srlv rs rt rd _ => Sys2Proof.Machine.execSrlv rs rt rd s
  | .srav rs rt rd _ => Sys2Proof.Machine.execSrav rs rt rd s
  | .jr rs _ => Sys2Proof.Machine.execJr rs s
  | .jalr rs _ rd _ => Sys2Proof.Machine.execJalr rs rd s
  | .syscall code => Sys2Proof.Machine.execSyscall code s
  | .brk code => Sys2Proof.Machine.execBreak code s
  | .mfhi _ rd _ => Sys2Proof.Machine.execMfhi rd s
  | .mthi rs _ => Sys2Proof.Machine.execMthi rs s
  | .mflo _ rd _ => Sys2Proof.Machine.execMflo rd s
  | .mtlo rs _ => Sys2Proof.Machine.execMtlo rs s
  | .mult rs rt _ => Sys2Proof.Machine.execMult rs rt s
  | .multu rs rt _ => Sys2Proof.Machine.execMultu rs rt s
  | .div rs rt _ => Sys2Proof.Machine.execDiv rs rt s
  | .divu rs rt _ => Sys2Proof.Machine.execDivu rs rt s
  | .add rs rt rd _ => Sys2Proof.Machine.execAdd rs rt rd s
  | .addu rs rt rd _ => Sys2Proof.Machine.execAddu rs rt rd s
  | .sub rs rt rd _ => Sys2Proof.Machine.execSub rs rt rd s
  | .subu rs rt rd _ => Sys2Proof.Machine.execSubu rs rt rd s
  | .and rs rt rd _ => Sys2Proof.Machine.execAnd rs rt rd s
  | .or rs rt rd _ => Sys2Proof.Machine.execOr rs rt rd s
  | .xor rs rt rd _ => Sys2Proof.Machine.execXor rs rt rd s
  | .nor rs rt rd _ => Sys2Proof.Machine.execNor rs rt rd s
  | .slt rs rt rd _ => Sys2Proof.Machine.execSlt rs rt rd s
  | .sltu rs rt rd _ => Sys2Proof.Machine.execSltu rs rt rd s
  | .bltz rs imm => Sys2Proof.Machine.execBltz rs imm s
  | .bgez rs imm => Sys2Proof.Machine.execBgez rs imm s
  | .bltzl rs imm => Sys2Proof.Machine.execBltzl rs imm s
  | .bgezl rs imm => Sys2Proof.Machine.execBgezl rs imm s
  | .bltzal rs imm => Sys2Proof.Machine.execBltzal rs imm s
  | .bgezal rs imm => Sys2Proof.Machine.execBgezal rs imm s
  | .bltzall rs imm => Sys2Proof.Machine.execBltzall rs imm s
  | .bgezall rs imm => Sys2Proof.Machine.execBgezall rs imm s
  | .j target => Sys2Proof.Machine.execJ target s
  | .jal target => Sys2Proof.Machine.execJal target s
  | .beq rs rt imm => Sys2Proof.Machine.execBeq rs rt imm s
  | .bne rs rt imm => Sys2Proof.Machine.execBne rs rt imm s
  | .blez rs _ imm => Sys2Proof.Machine.execBlez rs imm s
  | .bgtz rs _ imm => Sys2Proof.Machine.execBgtz rs imm s
  | .addi rs rt imm => Sys2Proof.Machine.execAddi rs rt imm s
  | .mfc0 rt rd ign => Sys2Proof.Machine.execMfc0 rt rd ign s
  | .mtc0 rt rd ign => Sys2Proof.Machine.execMtc0 rt rd ign s
  | .beql rs rt imm => Sys2Proof.Machine.execBeql rs rt imm s
  | .bnel rs rt imm => Sys2Proof.Machine.execBnel rs rt imm s
  | .blezl rs _ imm => Sys2Proof.Machine.execBlezl rs imm s
  | .bgtzl rs _ imm => Sys2Proof.Machine.execBgtzl rs imm s
  | .lb rs rt imm => Sys2Proof.Machine.execLb rs rt imm s
  | .lh rs rt imm => Sys2Proof.Machine.execLh rs rt imm s
  | .lwl rs rt imm => Sys2Proof.Machine.execLwl rs rt imm s
  | .lw rs rt imm => Sys2Proof.Machine.execLw rs rt imm s
  | .lbu rs rt imm => Sys2Proof.Machine.execLbu rs rt imm s
  | .lhu rs rt imm => Sys2Proof.Machine.execLhu rs rt imm s
  | .lwr rs rt imm => Sys2Proof.Machine.execLwr rs rt imm s
  | .lwu rs rt imm => Sys2Proof.Machine.execLwu rs rt imm s
  | .sb rs rt imm => Sys2Proof.Machine.execSb rs rt imm s
  | .sh rs rt imm => Sys2Proof.Machine.execSh rs rt imm s
  | .swl rs rt imm => Sys2Proof.Machine.execSwl rs rt imm s
  | .sw rs rt imm => Sys2Proof.Machine.execSw rs rt imm s
  | .swr rs rt imm => Sys2Proof.Machine.execSwr rs rt imm s
  | .cache rs rt imm => Sys2Proof.Machine.execCache rs rt imm s

end Sys2Proof.Machine
end

