-- ==== Sys2Proof/Machine/Driver.lean ====
section
/-! DEFINITION. The CpuDriver (40_dispatch_step.md): fetch, decode, the delay-slot check, the handler, the advance of
`pc` and the carried redirect; the `reset` input; and how a program word is put where the next step fetches it. -/

namespace Sys2Proof.Machine

/-- The run loop takes a step: `run_request` is true and the run has not halted (40_dispatch_step.md rule R92). -/
def State.isStepping (s : State) : Bool := s.runRequest && s.run == .running

/-- Fetch: `MemRead(pc, 4)`, big-endian, with the log records and device calls it makes (40_dispatch_step.md
rule R82). -/
def State.fetch (s : State) : Except AccessFailure (InstrWord × State) :=
  match s.memRead s.pc 4 with
  | .ok (bytes, s') => .ok (BitVec.ofNat 32 (bigEndian bytes), s')
  | .error f => .error f

/-- `pc` after a step that completes: the carried redirect's target, else the next word modulo 2^32
(40_dispatch_step.md rules R85, R86). -/
def nextPc (carried : Sched) (pc : Addr) : Addr :=
  match carried with
  | .pending (.redirect t) => t
  | .pending .noRedirect => pc + 4
  | .idle => pc + 4

/-- The end of a step, from the state `before` the handler (with the carried effect still in `sched`) and the state
the handler left: the handler raised a fatal condition and the step is abandoned, or `pc` advances and the carried
effect is applied (40_dispatch_step.md rule R84). -/
def State.finish (before handled : State) : State :=
  match handled.run with
  | .halted d => before.halt d
  | .running => { handled with pc := nextPc before.sched handled.pc }

/-- Run a decoded instruction (40_dispatch_step.md rule R84): a control transfer while an effect is carried halts
(rule R89), else `sched <- Idle`, the handler, and the end of the step. -/
def State.issue (handler : Instr → State → Result) (word : InstrWord) (i : Instr) (s : State) : Result :=
  if s.sched ≠ .idle ∧ i.isControlTransfer then
    .next (s.halt (.branchInDelaySlot word s.pc))
  else
    match handler i { s with sched := .idle } with
    | .next t => .next (s.finish t)
    | .fault f => .fault f
    | .refused r => .refused r

/-- One iteration of the run loop with a dispatcher of handlers (40_dispatch_step.md rules R84, R92). A block that is
halted or paused holds its state. -/
def drive (handler : Instr → State → Result) (s : State) : Result :=
  if s.isStepping then
    match s.fetch with
    | .error f => s.failAccess none f
    | .ok (word, s') =>
      match decode word with
      | .error _ => .next (s'.halt (.decodeError word s.pc))
      | .ok i => s'.issue handler word i
  else .next s

/-- The `reset` input (70_reset_and_hazards.md rules R240, R241): the state of a newly constructed block. The log is not
cleared, device endpoints are not called, and `run_request` is the environment's (assumption log entry 22). The
configuration `p` is the caller's, unchecked, and may differ from the one the block was constructed with: DESIGN CHOICE,
assumption log entry 26. -/
def State.applyReset (p : Params) (s : State) : State :=
  { State.initial p with
    log := s.log, deviceLog := s.deviceLog, runRequest := s.runRequest, draws := s.draws }

/-- Put a byte into the buffer an address is read from; nothing where it is not read from a buffer. -/
def State.placeByte (s : State) (a : Addr) (b : Byte) : State :=
  match resolve s.regions a .read with
  | .target (.data k off) => s.setBufferByte k off b
  | _ => s

/-- A program word loaded from outside the machine where the next step fetches it, with the block running.
Assumption log entry 20. -/
def State.placeWord (s : State) (word : InstrWord) : State :=
  let bytes := bytesOf 4 (zext64 word)
  { ((accessAddrs s.pc 4).zip bytes).foldl (fun t ab => t.placeByte ab.1 ab.2) s with
    run := .running, runRequest := true }

end Sys2Proof.Machine
end

