-- ==== Sys2Proof/Machine/Step.lean ====
section
/-! DEFINITION. The step of the machine: one iteration of the run loop (40_dispatch_step.md rules R84, R92). -/

namespace Sys2Proof.Machine

/-- One iteration of the run loop. -/
def step (s : State) : Host.Outcome State Fault Refusal := drive exec s

/-- The state with an instruction's bits stored where `step` fetches its next instruction; the bits above `nbits` are
0. -/
def State.withFetchWord (s : State) (nbits w : Nat) : State :=
  s.placeWord (BitVec.ofNat 32 (w % 2 ^ nbits))

end Sys2Proof.Machine
end

