-- ==== Sys2Proof/Safety.lean ====
section
/-! DEFINITION. What counts as a safe run, and the terms the statements use: the invariant, the frames, and the records
an access emits. -/

namespace Sys2Proof.Machine

/-- Memory is in its canonical form. -/
def State.memoryCanonical (s : State) : Bool := Memory.wf (initialByte s.regions) s.mem

/-- Only bytes of ReadWriteData buffers have ever been written (20_memory.md rules R40, R41). -/
def State.onlyWritableListed (s : State) : Bool := s.mem.all (fun c => inWritableBuffer s.regions c.1)

/-- The invariant of the machine: the region list is well-formed (20_memory.md rule R34) and memory canonical, only
ReadWriteData buffers differ from their initial contents, the register file holds 0 for r0 (10_state.md rule R11) and
the LL bit is 0 (rule R15). -/
def State.invariant (s : State) : Bool :=
  regionsWellFormed s.regions && s.memoryCanonical && s.onlyWritableListed &&
    s.regs[0] == 0 && s.ll == false

/-- A safe run has met no fatal condition. -/
def State.safe (s : State) : Bool := s.run == .running

/-- The run loop steps from `s`: it is running and asked to run (40_dispatch_step.md rule R92). -/
def Stepping (s : State) : Prop := s.run = .running ∧ s.runRequest = true

/-- No byte of any buffer, and no byte read at any address, differs. -/
def MemoryKept (s t : State) : Prop :=
  (∀ k off, t.bufferByte k off = s.bufferByte k off) ∧ ∀ a, t.peek a = s.peek a

/-- No general register differs. -/
def RegistersKept (s t : State) : Prop := ∀ r, t.readReg r = s.readReg r

/-- Register `rd` reads as `v` (as 0 when it is r0) and every other as before. -/
def RegisterWritten (s t : State) (rd : RegIdx) (v : Word) : Prop :=
  ∀ r, t.readReg r = if r = rd ∧ rd ≠ 0 then v else s.readReg r

/-- The only change is that register `rd` holds `v`: HI, LO, `pc`, the scheduler, memory, the log and everything else
stay as they were. -/
def WritesOnlyRegister (s t : State) (rd : RegIdx) (v : Word) : Prop :=
  RegisterWritten s t rd v ∧ t = { s with regs := t.regs } ∧ MemoryKept s t

/-- The only change is in HI and LO. -/
def WritesOnlyHiLo (s t : State) (hi lo : Word) : Prop :=
  t = { s with hi := hi, lo := lo } ∧ RegistersKept s t ∧ MemoryKept s t

/-- The only change is what the scheduler holds: the redirect to `target` if `taken`, else NoRedirect. -/
def SchedulesOnly (s t : State) (taken : Prop) [Decidable taken] (target : Addr) : Prop :=
  t = { s with sched := .pending (if taken then .redirect target else .noRedirect) } ∧
    RegistersKept s t ∧ MemoryKept s t

/-- The changes are what the scheduler holds and the link in register `rd`. -/
def SchedulesAndLinks (s t : State) (taken : Prop) [Decidable taken] (target : Addr) (rd : RegIdx) : Prop :=
  t = { s with sched := .pending (if taken then .redirect target else .noRedirect), regs := t.regs } ∧
    RegisterWritten s t rd (BitVec.ofNat 64 ((s.pc.toNat + 8) % 2 ^ 32)) ∧ MemoryKept s t

/-- The branch target of 45_branches.md rule R145, as a sum of integers taken modulo 2^32. -/
def branchSum (pc : Addr) (imm : BitVec 16) : Addr := BitVec.ofInt 32 (pc.toNat + 4 + 4 * imm.toInt)

/-- Two instructions have the same effect in every state. -/
def SameEffect (i j : Instr) : Prop := ∀ s, exec i s = exec j s

/-- The log records of the Dummy bytes a read of these addresses meets, in order (20_memory.md rule R42). -/
def dummyReads (regions : List Region) (addrs : List Addr) : List LogRecord :=
  addrs.filterMap (fun a =>
    match resolve regions a .read with
    | .target (.dummy d) => some (.dummyRead d)
    | _ => none)

/-- The six loads, with their widths in bytes and their operands (47_loads_stores.md rules R181 to R186). -/
def isLoad (i : Instr) (n : Nat) (rs rt : RegIdx) (imm : BitVec 16) : Prop :=
  (n = 1 ∧ (i = .lb rs rt imm ∨ i = .lbu rs rt imm)) ∨ (n = 2 ∧ (i = .lh rs rt imm ∨ i = .lhu rs rt imm)) ∨
    (n = 4 ∧ (i = .lw rs rt imm ∨ i = .lwu rs rt imm))

/-- The three stores, with their widths in bytes and their operands (47_loads_stores.md rules R187 to R189). -/
def isStore (i : Instr) (n : Nat) (rs rt : RegIdx) (imm : BitVec 16) : Prop :=
  (n = 1 ∧ i = .sb rs rt imm) ∨ (n = 2 ∧ i = .sh rs rt imm) ∨ (n = 4 ∧ i = .sw rs rt imm)

/-- The addresses with which the resolution of an access at `a` goes on, `a` first: one more for each Mirror that is
the first match (20_memory.md rule R37). -/
def RebasesTo (regions : List Region) (intent : Intent) : Addr → Addr → Prop :=
  Relation.ReflTransGen fun x y => ∃ k r target,
    firstMatch x intent 0 regions = some (k, r) ∧ r.kind = .mirror target ∧ y = x + (target - r.start)

/-- The log records of the Dummy targets a read meets, in order (20_memory.md rule R42). -/
def dummyTargetReads (targets : List Target) : List LogRecord :=
  targets.filterMap (fun t =>
    match t with
    | .dummy d => some (.dummyRead d)
    | _ => none)

/-- The calls of read endpoints a read makes, in order (20_memory.md rule R43). -/
def deviceReads (targets : List Target) : List DeviceEvent :=
  targets.filterMap (fun t =>
    match t with
    | .device k off => some (.read k off)
    | _ => none)

/-- The byte that a read of `targets` finds at one of them, `t`, with the targets `before` it: the buffer's, zero from
a Dummy, or the free value of as many draws as devices were read before (20_memory.md rules R40, R42, R43; assumption
log entry 4). -/
def byteRead (s : State) (before : List Target) (t : Target) : Byte :=
  match t with
  | .data k off => s.bufferByte k off
  | .dummy _ => 0
  | .device _ _ => Config.freeByte (s.draws + (deviceReads before).length)

/-- The log records of the Dummy bytes a write meets, in order (20_memory.md rule R42). -/
def dummyWrites (targets : List (Target × Byte)) : List LogRecord :=
  targets.filterMap (fun tb =>
    match tb.1 with
    | .dummy d => some (.dummyWrite d tb.2)
    | _ => none)

/-- The calls of write endpoints a write makes, in order (20_memory.md rule R43). -/
def deviceWrites (targets : List (Target × Byte)) : List DeviceEvent :=
  targets.filterMap (fun tb =>
    match tb.1 with
    | .device k off => some (.write k off tb.2)
    | _ => none)

/-- Every byte of an access is found by `peek`: it lies in a buffer or a Dummy. -/
def Readable (s : State) (a : Addr) (bytes : List Byte) : Prop :=
  (accessAddrs a bytes.length).map s.peek = bytes.map some

/-- What a load changes: register `rt` holds `v`, and the log has the records of the Dummy bytes among the `n` read. -/
def LoadsOnly (s t : State) (a : Addr) (n : Nat) (rt : RegIdx) (v : Word) : Prop :=
  RegisterWritten s t rt v ∧ MemoryKept s t ∧
    t = { s with regs := t.regs, log := s.log ++ dummyReads s.regions (accessAddrs a n) }

/-- What a load changes in general, device reads included (47_loads_stores.md rule R180): register `rt` holds the
extended value of the bytes the targets give in ascending order, the log and the endpoint calls grow by the reads' own
records, one free value is drawn for each device byte, and nothing else differs. -/
def LoadsFrom (s t : State) (targets : List Target) (rt : RegIdx) (extend : List Byte → Word) : Prop :=
  (∃ bytes : List Byte, bytes.length = targets.length ∧
    (∀ before x after, targets = before ++ x :: after →
      bytes[before.length]? = some (byteRead s before x)) ∧
    RegisterWritten s t rt (extend bytes)) ∧
  MemoryKept s t ∧
  t = { s with
        regs := t.regs, log := s.log ++ dummyTargetReads targets, deviceLog := s.deviceLog ++ deviceReads targets,
        draws := s.draws + (deviceReads targets).length }

/-- What a store of bytes to resolved targets changes: no register; the log and the endpoint calls grow by its own
records; a buffer byte that no target names is kept, and one that a target names, and no later one, holds that
target's byte. An address whose read lands on no target reads as before. -/
def StoresOnly (s t : State) (writes : List (Target × Byte)) : Prop :=
  RegistersKept s t ∧
    t = { s with
          mem := t.mem, log := s.log ++ dummyWrites writes, deviceLog := s.deviceLog ++ deviceWrites writes } ∧
    (∀ k off, off < 2 ^ 32 → (∀ w ∈ writes, w.1 ≠ .data k off) → t.bufferByte k off = s.bufferByte k off) ∧
    (∀ before k off b after, writes = before ++ (.data k off, b) :: after →
      (∀ w ∈ after, w.1 ≠ .data k off) → t.bufferByte k off = b) ∧
    ∀ a, (∀ w ∈ writes, resolve s.regions a .read ≠ .target w.1) → t.peek a = s.peek a

/-- The bytes of an access each resolve to the same ReadWriteData byte for both intents, no two to one byte
(20_memory.md rule R50). -/
def StorageBacked (regions : List Region) (a : Addr) (n : Nat) : Prop :=
  (∀ x ∈ accessAddrs a n, ∃ k off,
      resolve regions x .write = .target (.data k off) ∧ resolve regions x .read = .target (.data k off)) ∧
    (accessAddrs a n).Pairwise (fun x y => resolve regions x .write ≠ resolve regions y .write)

/-- Everything but the run state and the outputs is as before (60_exceptions.md rules R211, R212): the log records and
device calls of the fetch have happened, and the free values its device reads drew are spent. -/
def HaltedUnchanged (s t : State) (d : Diagnostic) : Prop :=
  t = { s with run := .halted d, log := t.log, deviceLog := t.deviceLog, draws := t.draws } ∧
    RegistersKept s t ∧ MemoryKept s t

end Sys2Proof.Machine
end

