-- ==== Sys2Proof/Certificates/Slice0/Obligations.lean ====
section
/-! DEFINITION. The statements for the provers, in the terms of Safety.lean. A statement cites the rules it formalises in
OBLIGATIONS.json; one that rests on a choice of the model names its log entry. -/

open Sys2Proof Sys2Proof.Machine

/-! ### Encoding -/

/-- No bit of an encoding is dropped: decoding the word of any instruction gives that instruction, ignored bits included. -/
def Obligations.DecodeOfEncodeIsTheInstruction : Prop :=
  ∀ i : Instr, decode (encode i) = .ok i

/-- The other direction: each word has one meaning, and the instruction carries the whole word, which the stub log records and the diagnostics report. -/
def Obligations.DecodedWordsEncodeBack : Prop :=
  ∀ (w : InstrWord) (i : Instr), decode w = .ok i → encode i = w

/-- Rule R72 with the maps of rules R67 to R70: a key has one handler or none. -/
def Obligations.TheKeysWithHandlersAreThose63 : Prop :=
  ∀ w : InstrWord,
    let handled :=
      (fieldOp w = 0x00 ∧ fieldFunct w ∈
        ([0x00, 0x02, 0x03, 0x04, 0x06, 0x07, 0x08, 0x09, 0x0C, 0x0D, 0x10, 0x11, 0x12, 0x13] ++
         [0x18, 0x19, 0x1A, 0x1B, 0x20, 0x21, 0x22, 0x23, 0x24, 0x25, 0x26, 0x27, 0x2A, 0x2B] : List (BitVec 6))) ∨
      (fieldOp w = 0x01 ∧ fieldRt w ∈ ([0x00, 0x01, 0x02, 0x03, 0x10, 0x11, 0x12, 0x13] : List (BitVec 5))) ∨
      (fieldOp w = 0x10 ∧ fieldRs w ∈ ([0x00, 0x04] : List (BitVec 5))) ∨
      fieldOp w ∈
        ([0x02, 0x03, 0x04, 0x05, 0x06, 0x07, 0x08, 0x14, 0x15, 0x16, 0x17] ++
         [0x20, 0x21, 0x22, 0x23, 0x24, 0x25, 0x26, 0x27, 0x28, 0x29, 0x2A, 0x2B, 0x2E, 0x2F] : List (BitVec 6))
    (handled → ∃ i, decode w = .ok i) ∧
    (¬ handled → decode w = .error (.noHandler (keyOf w)) ∧
      ∀ s s1, Stepping s → s.fetch = .ok (w, s1) →
        step s = .next { s1 with run := .halted (.decodeError w s.pc) })

/-- The dispatch key decides whether there is a handler and which one (30_encoding.md rules R63, R64). -/
def Obligations.OnlyTheKeySelectsTheHandler : Prop :=
  ∀ w w' : InstrWord, keyOf w = keyOf w' →
    ∀ i, decode w = .ok i → ∃ i', decode w' = .ok i' ∧ i'.ctorIdx = i.ctorIdx ∧
      i'.isControlTransfer = i.isControlTransfer ∧ i'.isStub = i.isStub

/-- A sanity check on a word of every family, from the examples of the instruction rules (BLTZAL is the REGIMM word), and on one
word with no handler (30_encoding.md rule R72). -/
def Obligations.WordsOfTheSpecDecodeAsWritten : Prop :=
  decode 0b00000000001000100001100000100000#32 = .ok (.add 1 2 3 0) ∧
  decode 0b00100000001000101111111111111101#32 = .ok (.addi 1 2 0xFFFD) ∧
  decode 0b00000000000000010001000100000000#32 = .ok (.sll 0 1 2 4) ∧
  decode 0b00000000001000100000000000011000#32 = .ok (.mult 1 2 0) ∧
  decode 0b00000000001000100001100000101010#32 = .ok (.slt 1 2 3 0) ∧
  decode 0b00010000001000100000000000000100#32 = .ok (.beq 1 2 4) ∧
  decode 0b00000100001100000000000000000100#32 = .ok (.bltzal 1 4) ∧
  decode 0b00001000000000000000000001000000#32 = .ok (.j 0x40) ∧
  decode 0b00000011111000000000000000001000#32 = .ok (.jr 31 0) ∧
  decode 0b10101100001000100000000000001000#32 = .ok (.sw 1 2 8) ∧
  decode 0b00000000000000000000000000001100#32 = .ok (.syscall 0) ∧
  decode 0b01000000000000100110000000000000#32 = .ok (.mfc0 2 12 0) ∧
  decode 0xFFFFFFFF#32 = .error (.noHandler (.primary 0x3F))

/-! ### Results and frames of the register instructions -/

/-- ADD, ADDU, SUB, SUBU complete in every state (41_alu_register.md rules R102 to R105): no trap, no truncation, the old sources are used. -/
def Obligations.AddAndSubtractWrapOnSixtyFourBits : Prop :=
  ∀ (rs rt rd sa : BitVec 5) (s : State),
    (decode (0x00#6 ++ rs ++ rt ++ rd ++ sa ++ 0x20#6) = .ok (.add rs rt rd sa) ∧
      ∃ t, exec (.add rs rt rd sa) s = .next t ∧ WritesOnlyRegister s t rd (s.readReg rs + s.readReg rt)) ∧
    (decode (0x00#6 ++ rs ++ rt ++ rd ++ sa ++ 0x21#6) = .ok (.addu rs rt rd sa) ∧
      ∃ t, exec (.addu rs rt rd sa) s = .next t ∧ WritesOnlyRegister s t rd (s.readReg rs + s.readReg rt)) ∧
    (decode (0x00#6 ++ rs ++ rt ++ rd ++ sa ++ 0x22#6) = .ok (.sub rs rt rd sa) ∧
      ∃ t, exec (.sub rs rt rd sa) s = .next t ∧ WritesOnlyRegister s t rd (s.readReg rs - s.readReg rt)) ∧
    (decode (0x00#6 ++ rs ++ rt ++ rd ++ sa ++ 0x23#6) = .ok (.subu rs rt rd sa) ∧
      ∃ t, exec (.subu rs rt rd sa) s = .next t ∧ WritesOnlyRegister s t rd (s.readReg rs - s.readReg rt))

/-- ADDI completes in every state (41_alu_register.md rule R106); the sum is taken over the integers and reduced modulo 2^64. -/
def Obligations.AddImmediateSignExtends : Prop :=
  ∀ (rs rt : BitVec 5) (imm : BitVec 16) (s : State),
    decode (0x08#6 ++ rs ++ rt ++ imm) = .ok (.addi rs rt imm) ∧
    ∃ t, exec (.addi rs rt imm) s = .next t ∧
      WritesOnlyRegister s t rt (BitVec.ofInt 64 ((s.readReg rs).toInt + imm.toInt))

/-- The immediate shifts (42_shifts.md rules R113 to R115), the retained defect of SRA (rule R112) among them. -/
def Obligations.ImmediateShiftsFollowTheirWidths : Prop :=
  ∀ (rs rt rd sa : BitVec 5) (s : State),
    (decode (0x00#6 ++ rs ++ rt ++ rd ++ sa ++ 0x00#6) = .ok (.sll rs rt rd sa) ∧
      ∃ t, exec (.sll rs rt rd sa) s = .next t ∧ WritesOnlyRegister s t rd (BitVec.ofNat 64 ((s.readReg rt).toNat * 2 ^ sa.toNat))) ∧
    (decode (0x00#6 ++ rs ++ rt ++ rd ++ sa ++ 0x02#6) = .ok (.srl rs rt rd sa) ∧
      ∃ t, exec (.srl rs rt rd sa) s = .next t ∧ WritesOnlyRegister s t rd (BitVec.ofNat 64 ((s.readReg rt).toNat / 2 ^ sa.toNat))) ∧
    (decode (0x00#6 ++ rs ++ rt ++ rd ++ sa ++ 0x03#6) = .ok (.sra rs rt rd sa) ∧
      ∃ t, exec (.sra rs rt rd sa) s = .next t ∧ WritesOnlyRegister s t rd (BitVec.ofNat 64 ((s.readReg rt).toNat % 2 ^ 32 / 2 ^ sa.toNat)))

/-- The variable shifts (42_shifts.md rules R116 to R118): every amount is below 32, so no shift is undefined (rule R110). -/
def Obligations.VariableShiftsUseFiveBits : Prop :=
  ∀ (rs rt rd sa : BitVec 5) (s : State),
    (decode (0x00#6 ++ rs ++ rt ++ rd ++ sa ++ 0x04#6) = .ok (.sllv rs rt rd sa) ∧
      ∃ t, exec (.sllv rs rt rd sa) s = .next t ∧ WritesOnlyRegister s t rd (BitVec.ofNat 64 ((s.readReg rt).toNat * 2 ^ ((s.readReg rs).toNat % 32)))) ∧
    (decode (0x00#6 ++ rs ++ rt ++ rd ++ sa ++ 0x06#6) = .ok (.srlv rs rt rd sa) ∧
      ∃ t, exec (.srlv rs rt rd sa) s = .next t ∧ WritesOnlyRegister s t rd (BitVec.ofNat 64 ((s.readReg rt).toNat / 2 ^ ((s.readReg rs).toNat % 32)))) ∧
    (decode (0x00#6 ++ rs ++ rt ++ rd ++ sa ++ 0x07#6) = .ok (.srav rs rt rd sa) ∧
      ∃ t, exec (.srav rs rt rd sa) s = .next t ∧ WritesOnlyRegister s t rd (BitVec.ofNat 64 ((s.readReg rt).toNat % 2 ^ 32 / 2 ^ ((s.readReg rs).toNat % 32))))

/-- SLT and SLTU (44_compare_bitwise.md rules R136, R137). -/
def Obligations.ComparesWriteOneOrZero : Prop :=
  ∀ (rs rt rd sa : BitVec 5) (s : State),
    (decode (0x00#6 ++ rs ++ rt ++ rd ++ sa ++ 0x2A#6) = .ok (.slt rs rt rd sa) ∧
      ∃ t, exec (.slt rs rt rd sa) s = .next t ∧ WritesOnlyRegister s t rd (if (s.readReg rs).toInt < (s.readReg rt).toInt then 1 else 0)) ∧
    (decode (0x00#6 ++ rs ++ rt ++ rd ++ sa ++ 0x2B#6) = .ok (.sltu rs rt rd sa) ∧
      ∃ t, exec (.sltu rs rt rd sa) s = .next t ∧ WritesOnlyRegister s t rd (if (s.readReg rs).toNat < (s.readReg rt).toNat then 1 else 0))

/-- The bitwise instructions, bit by bit (44_compare_bitwise.md rules R138 to R141). -/
def Obligations.BitwiseActOnEachBit : Prop :=
  ∀ (rs rt rd sa : BitVec 5) (s : State),
    (decode (0x00#6 ++ rs ++ rt ++ rd ++ sa ++ 0x24#6) = .ok (.and rs rt rd sa) ∧
      ∃ t v, exec (.and rs rt rd sa) s = .next t ∧ WritesOnlyRegister s t rd v ∧
        ∀ n, n < 64 → v.getLsbD n = ((s.readReg rs).getLsbD n && (s.readReg rt).getLsbD n)) ∧
    (decode (0x00#6 ++ rs ++ rt ++ rd ++ sa ++ 0x25#6) = .ok (.or rs rt rd sa) ∧
      ∃ t v, exec (.or rs rt rd sa) s = .next t ∧ WritesOnlyRegister s t rd v ∧
        ∀ n, n < 64 → v.getLsbD n = ((s.readReg rs).getLsbD n || (s.readReg rt).getLsbD n)) ∧
    (decode (0x00#6 ++ rs ++ rt ++ rd ++ sa ++ 0x26#6) = .ok (.xor rs rt rd sa) ∧
      ∃ t v, exec (.xor rs rt rd sa) s = .next t ∧ WritesOnlyRegister s t rd v ∧
        ∀ n, n < 64 → v.getLsbD n = ((s.readReg rs).getLsbD n != (s.readReg rt).getLsbD n)) ∧
    (decode (0x00#6 ++ rs ++ rt ++ rd ++ sa ++ 0x27#6) = .ok (.nor rs rt rd sa) ∧
      ∃ t v, exec (.nor rs rt rd sa) s = .next t ∧ WritesOnlyRegister s t rd v ∧
        ∀ n, n < 64 → v.getLsbD n = !((s.readReg rs).getLsbD n || (s.readReg rt).getLsbD n))

/-! ### Multiply, divide, HI and LO -/

/-- MULT and MULTU (43_muldiv_hilo.md rules R120, R121): `Int.bmod _ (2^32)` is the signed 32-bit reading of a half. -/
def Obligations.ProductsSplitIntoHiAndLo : Prop :=
  ∀ (rs rt : BitVec 5) (ign : BitVec 10) (s : State),
    (decode (0x00#6 ++ rs ++ rt ++ ign ++ 0x18#6) = .ok (.mult rs rt ign) ∧
      let p : Int := ((s.readReg rs).extractLsb' 0 32).toInt * ((s.readReg rt).extractLsb' 0 32).toInt
      ∃ t hi lo, exec (.mult rs rt ign) s = .next t ∧ WritesOnlyHiLo s t hi lo ∧
        hi.toInt = (p / 2 ^ 32).bmod (2 ^ 32) ∧ lo.toInt = p.bmod (2 ^ 32)) ∧
    (decode (0x00#6 ++ rs ++ rt ++ ign ++ 0x19#6) = .ok (.multu rs rt ign) ∧
      let p : Int := ((s.readReg rs).toNat % 2 ^ 32 * ((s.readReg rt).toNat % 2 ^ 32) : Nat)
      ∃ t hi lo, exec (.multu rs rt ign) s = .next t ∧ WritesOnlyHiLo s t hi lo ∧
        hi.toInt = (p / 2 ^ 32).bmod (2 ^ 32) ∧ lo.toInt = p.bmod (2 ^ 32))

/-- DIV away from the two corners (43_muldiv_hilo.md rules R122, R131); the three conditions fix q and r. DIVU, which rule R131 also covers, is the next clause: floor and modulo. -/
def Obligations.SignedQuotientTruncatesTowardZero : Prop :=
  (∀ (rs rt : BitVec 5) (ign : BitVec 10) (s : State),
    let a : Int := ((s.readReg rs).extractLsb' 0 32).toInt
    let b : Int := ((s.readReg rt).extractLsb' 0 32).toInt
    b ≠ 0 → ¬ (a = -2 ^ 31 ∧ b = -1) →
    ∃ t hi lo, exec (.div rs rt ign) s = .next t ∧ WritesOnlyHiLo s t hi lo ∧
      a = lo.toInt * b + hi.toInt ∧ |hi.toInt| < |b| ∧ (hi.toInt = 0 ∨ (hi.toInt < 0 ↔ a < 0))) ∧
  (∀ (rs rt : BitVec 5) (ign : BitVec 10) (s : State),
    let a : Nat := (s.readReg rs).toNat % 2 ^ 32
    let b : Nat := (s.readReg rt).toNat % 2 ^ 32
    b ≠ 0 →
    ∃ t hi lo, exec (.divu rs rt ign) s = .next t ∧ WritesOnlyHiLo s t hi lo ∧
      lo.toInt = ((a / b : Nat) : Int).bmod (2 ^ 32) ∧ hi.toInt = ((a % b : Nat) : Int).bmod (2 ^ 32))

/-- The signed overflow corner of DIV (43_muldiv_hilo.md rule R130). -/
def Obligations.SignedDivideOverflowTruncates : Prop :=
  ∀ (rs rt : BitVec 5) (ign : BitVec 10) (s : State),
    (s.readReg rs).extractLsb' 0 32 = 0x80000000#32 → (s.readReg rt).extractLsb' 0 32 = 0xFFFFFFFF#32 →
    ∃ t, exec (.div rs rt ign) s = .next t ∧ WritesOnlyHiLo s t 0 0xFFFFFFFF80000000

/-- Divide by zero (43_muldiv_hilo.md rule R129). HI and LO are free values: nothing is said of them. `draws` is the model's own counter (assumption log entry 3). -/
def Obligations.DivideByZeroCompletes : Prop :=
  ∀ (rs rt : BitVec 5) (ign : BitVec 10) (s : State),
    (decode (0x00#6 ++ rs ++ rt ++ ign ++ 0x1A#6) = .ok (.div rs rt ign)) ∧
    (decode (0x00#6 ++ rs ++ rt ++ ign ++ 0x1B#6) = .ok (.divu rs rt ign)) ∧
    ((s.readReg rt).extractLsb' 0 32 = 0#32 →
      (∃ t, exec (.div rs rt ign) s = .next t ∧
        t = { s with hi := t.hi, lo := t.lo, draws := t.draws } ∧ RegistersKept s t ∧ MemoryKept s t) ∧
      (∃ t, exec (.divu rs rt ign) s = .next t ∧
        t = { s with hi := t.hi, lo := t.lo, draws := t.draws } ∧ RegistersKept s t ∧ MemoryKept s t))

/-- The HI/LO moves (43_muldiv_hilo.md rules R124 to R127). -/
def Obligations.AccumulatorsMoveWhole : Prop :=
  ∀ (r sa : BitVec 5) (ign10 : BitVec 10) (ign15 : BitVec 15) (s : State),
    (decode (0x00#6 ++ ign10 ++ r ++ sa ++ 0x10#6) = .ok (.mfhi ign10 r sa) ∧
      ∃ t, exec (.mfhi ign10 r sa) s = .next t ∧ WritesOnlyRegister s t r s.hi) ∧
    (decode (0x00#6 ++ ign10 ++ r ++ sa ++ 0x12#6) = .ok (.mflo ign10 r sa) ∧
      ∃ t, exec (.mflo ign10 r sa) s = .next t ∧ WritesOnlyRegister s t r s.lo) ∧
    (decode (0x00#6 ++ r ++ ign15 ++ 0x11#6) = .ok (.mthi r ign15) ∧
      ∃ t, exec (.mthi r ign15) s = .next t ∧ WritesOnlyHiLo s t (s.readReg r) s.lo) ∧
    (decode (0x00#6 ++ r ++ ign15 ++ 0x13#6) = .ok (.mtlo r ign15) ∧
      ∃ t, exec (.mtlo r ign15) s = .next t ∧ WritesOnlyHiLo s t s.hi (s.readReg r))

/-! ### Branches and jumps: what the handler schedules -/

/-- The two-register branches and their likely forms (45_branches.md rules R149, R150, R157, R158) with the target of rule R145. That a likely form executes its delay slot when not taken is in what it schedules: NoRedirect, like its twin. -/
def Obligations.TwoRegisterBranchesScheduleTheirTarget : Prop :=
  ∀ (rs rt : BitVec 5) (imm : BitVec 16) (s : State),
    (decode (0x04#6 ++ rs ++ rt ++ imm) = .ok (.beq rs rt imm) ∧
      ∃ t, exec (.beq rs rt imm) s = .next t ∧ SchedulesOnly s t (s.readReg rs = s.readReg rt) (branchSum s.pc imm)) ∧
    (decode (0x05#6 ++ rs ++ rt ++ imm) = .ok (.bne rs rt imm) ∧
      ∃ t, exec (.bne rs rt imm) s = .next t ∧ SchedulesOnly s t (s.readReg rs ≠ s.readReg rt) (branchSum s.pc imm)) ∧
    (decode (0x14#6 ++ rs ++ rt ++ imm) = .ok (.beql rs rt imm) ∧
      ∃ t, exec (.beql rs rt imm) s = .next t ∧ SchedulesOnly s t (s.readReg rs = s.readReg rt) (branchSum s.pc imm)) ∧
    (decode (0x15#6 ++ rs ++ rt ++ imm) = .ok (.bnel rs rt imm) ∧
      ∃ t, exec (.bnel rs rt imm) s = .next t ∧ SchedulesOnly s t (s.readReg rs ≠ s.readReg rt) (branchSum s.pc imm))

/-- BLEZ, BGTZ, BLEZL, BGTZL (45_branches.md rules R151, R152, R159, R160), at every value of the ignored `rt` field. -/
def Obligations.ZeroTestBranchesScheduleTheirTarget : Prop :=
  ∀ (rs rt : BitVec 5) (imm : BitVec 16) (s : State),
    (decode (0x06#6 ++ rs ++ rt ++ imm) = .ok (.blez rs rt imm) ∧
      ∃ t, exec (.blez rs rt imm) s = .next t ∧ SchedulesOnly s t ((s.readReg rs).toInt ≤ 0) (branchSum s.pc imm)) ∧
    (decode (0x07#6 ++ rs ++ rt ++ imm) = .ok (.bgtz rs rt imm) ∧
      ∃ t, exec (.bgtz rs rt imm) s = .next t ∧ SchedulesOnly s t ((s.readReg rs).toInt > 0) (branchSum s.pc imm)) ∧
    (decode (0x16#6 ++ rs ++ rt ++ imm) = .ok (.blezl rs rt imm) ∧
      ∃ t, exec (.blezl rs rt imm) s = .next t ∧ SchedulesOnly s t ((s.readReg rs).toInt ≤ 0) (branchSum s.pc imm)) ∧
    (decode (0x17#6 ++ rs ++ rt ++ imm) = .ok (.bgtzl rs rt imm) ∧
      ∃ t, exec (.bgtzl rs rt imm) s = .next t ∧ SchedulesOnly s t ((s.readReg rs).toInt > 0) (branchSum s.pc imm))

/-- BLTZ, BGEZ, BLTZL, BGEZL (45_branches.md rules R153, R154, R161, R162). -/
def Obligations.SignTestBranchesScheduleTheirTarget : Prop :=
  ∀ (rs : BitVec 5) (imm : BitVec 16) (s : State),
    (decode (0x01#6 ++ rs ++ 0x00#5 ++ imm) = .ok (.bltz rs imm) ∧
      ∃ t, exec (.bltz rs imm) s = .next t ∧ SchedulesOnly s t ((s.readReg rs).toInt < 0) (branchSum s.pc imm)) ∧
    (decode (0x01#6 ++ rs ++ 0x01#5 ++ imm) = .ok (.bgez rs imm) ∧
      ∃ t, exec (.bgez rs imm) s = .next t ∧ SchedulesOnly s t ((s.readReg rs).toInt ≥ 0) (branchSum s.pc imm)) ∧
    (decode (0x01#6 ++ rs ++ 0x02#5 ++ imm) = .ok (.bltzl rs imm) ∧
      ∃ t, exec (.bltzl rs imm) s = .next t ∧ SchedulesOnly s t ((s.readReg rs).toInt < 0) (branchSum s.pc imm)) ∧
    (decode (0x01#6 ++ rs ++ 0x03#5 ++ imm) = .ok (.bgezl rs imm) ∧
      ∃ t, exec (.bgezl rs imm) s = .next t ∧ SchedulesOnly s t ((s.readReg rs).toInt ≥ 0) (branchSum s.pc imm))

/-- The linking branches (45_branches.md rules R147, R155, R156, R163, R164); `rs = 31` tests the old x[31]. -/
def Obligations.LinkingBranchesLinkTakenOrNot : Prop :=
  ∀ (rs : BitVec 5) (imm : BitVec 16) (s : State),
    (decode (0x01#6 ++ rs ++ 0x10#5 ++ imm) = .ok (.bltzal rs imm) ∧
      ∃ t, exec (.bltzal rs imm) s = .next t ∧ SchedulesAndLinks s t ((s.readReg rs).toInt < 0) (branchSum s.pc imm) 31) ∧
    (decode (0x01#6 ++ rs ++ 0x11#5 ++ imm) = .ok (.bgezal rs imm) ∧
      ∃ t, exec (.bgezal rs imm) s = .next t ∧ SchedulesAndLinks s t ((s.readReg rs).toInt ≥ 0) (branchSum s.pc imm) 31) ∧
    (decode (0x01#6 ++ rs ++ 0x12#5 ++ imm) = .ok (.bltzall rs imm) ∧
      ∃ t, exec (.bltzall rs imm) s = .next t ∧ SchedulesAndLinks s t ((s.readReg rs).toInt < 0) (branchSum s.pc imm) 31) ∧
    (decode (0x01#6 ++ rs ++ 0x13#5 ++ imm) = .ok (.bgezall rs imm) ∧
      ∃ t, exec (.bgezall rs imm) s = .next t ∧ SchedulesAndLinks s t ((s.readReg rs).toInt ≥ 0) (branchSum s.pc imm) 31)

/-- Likely branches are not likely (45_branches.md rule R148). -/
def Obligations.LikelyBranchesAreTheirTwins : Prop :=
  ∀ (rs rt : BitVec 5) (imm : BitVec 16),
    SameEffect (.beql rs rt imm) (.beq rs rt imm) ∧ SameEffect (.bnel rs rt imm) (.bne rs rt imm) ∧
    SameEffect (.blezl rs rt imm) (.blez rs rt imm) ∧ SameEffect (.bgtzl rs rt imm) (.bgtz rs rt imm) ∧
    SameEffect (.bltzl rs imm) (.bltz rs imm) ∧ SameEffect (.bgezl rs imm) (.bgez rs imm) ∧
    SameEffect (.bltzall rs imm) (.bltzal rs imm) ∧ SameEffect (.bgezall rs imm) (.bgezal rs imm)

/-- J and JAL (46_jumps.md rules R171, R172): the page is that of the jump's own address. -/
def Obligations.AbsoluteJumpsKeepThePage : Prop :=
  ∀ (target : BitVec 26) (s : State),
    let dest : Addr := BitVec.ofNat 32 (s.pc.toNat / 2 ^ 28 * 2 ^ 28 + 4 * target.toNat)
    (decode (0x02#6 ++ target) = .ok (.j target) ∧
      ∃ t, exec (.j target) s = .next t ∧ SchedulesOnly s t True dest) ∧
    (decode (0x03#6 ++ target) = .ok (.jal target) ∧
      ∃ t, exec (.jal target) s = .next t ∧ SchedulesAndLinks s t True dest 31)

/-- JR and JALR (46_jumps.md rules R173, R174): with rd = rs the jump goes to the old value. -/
def Obligations.RegisterJumpsTakeTheOldLowHalf : Prop :=
  ∀ (rs a rd b : BitVec 5) (ign : BitVec 15) (s : State),
    let dest : Addr := BitVec.ofNat 32 ((s.readReg rs).toNat)
    (decode (0x00#6 ++ rs ++ ign ++ 0x08#6) = .ok (.jr rs ign) ∧
      ∃ t, exec (.jr rs ign) s = .next t ∧ SchedulesOnly s t True dest) ∧
    (decode (0x00#6 ++ rs ++ a ++ rd ++ b ++ 0x09#6) = .ok (.jalr rs a rd b) ∧
      ∃ t, exec (.jalr rs a rd b) s = .next t ∧ SchedulesAndLinks s t True dest rd)

/-! ### Loads, stores and stubs -/

/-- The six loads from buffers and Dummies (47_loads_stores.md rules R180 to R186), at every alignment and with `rt = 0` too. The extension is of the bytes put side by side. -/
def Obligations.LoadsExtendTheBigEndianValue : Prop :=
  ∀ (rs rt : BitVec 5) (imm : BitVec 16) (b0 b1 b2 b3 : Byte) (s : State),
    let ea : Addr := BitVec.ofInt 32 ((s.readReg rs).toInt + imm.toInt)
    (decode (0x20#6 ++ rs ++ rt ++ imm) = .ok (.lb rs rt imm) ∧
      (Readable s ea [b0] →
        ∃ t, exec (.lb rs rt imm) s = .next t ∧ LoadsOnly s t ea 1 rt (b0.signExtend 64))) ∧
    (decode (0x24#6 ++ rs ++ rt ++ imm) = .ok (.lbu rs rt imm) ∧
      (Readable s ea [b0] →
        ∃ t, exec (.lbu rs rt imm) s = .next t ∧ LoadsOnly s t ea 1 rt (b0.setWidth 64))) ∧
    (decode (0x21#6 ++ rs ++ rt ++ imm) = .ok (.lh rs rt imm) ∧
      (Readable s ea [b0, b1] →
        ∃ t, exec (.lh rs rt imm) s = .next t ∧ LoadsOnly s t ea 2 rt ((b0 ++ b1).signExtend 64))) ∧
    (decode (0x25#6 ++ rs ++ rt ++ imm) = .ok (.lhu rs rt imm) ∧
      (Readable s ea [b0, b1] →
        ∃ t, exec (.lhu rs rt imm) s = .next t ∧ LoadsOnly s t ea 2 rt ((b0 ++ b1).setWidth 64))) ∧
    (decode (0x23#6 ++ rs ++ rt ++ imm) = .ok (.lw rs rt imm) ∧
      (Readable s ea [b0, b1, b2, b3] →
        ∃ t, exec (.lw rs rt imm) s = .next t ∧ LoadsOnly s t ea 4 rt ((b0 ++ b1 ++ b2 ++ b3).signExtend 64))) ∧
    (decode (0x27#6 ++ rs ++ rt ++ imm) = .ok (.lwu rs rt imm) ∧
      (Readable s ea [b0, b1, b2, b3] →
        ∃ t, exec (.lwu rs rt imm) s = .next t ∧ LoadsOnly s t ea 4 rt ((b0 ++ b1 ++ b2 ++ b3).setWidth 64)))

/-- The six loads in general (47_loads_stores.md rule R180): the endpoints are called in ascending order (20_memory.md rules R43, R45),
and the reads are performed even when `rt = 0`. Device bytes are free values, and how they are numbered is the model's choice
(assumption log entry 4). -/
def Obligations.LoadsCompleteWhereverTheBytesResolve : Prop :=
  ∀ (rs rt : BitVec 5) (imm : BitVec 16) (s : State) (targets : List Target),
    let ea := effectiveAddr (s.readReg rs) imm
    (resolveAll s.regions .read (accessAddrs ea 1) = .ok targets →
      ∃ t, exec (.lb rs rt imm) s = .next t ∧ LoadsFrom s t targets rt loadSign) ∧
    (resolveAll s.regions .read (accessAddrs ea 1) = .ok targets →
      ∃ t, exec (.lbu rs rt imm) s = .next t ∧ LoadsFrom s t targets rt loadZero) ∧
    (resolveAll s.regions .read (accessAddrs ea 2) = .ok targets →
      ∃ t, exec (.lh rs rt imm) s = .next t ∧ LoadsFrom s t targets rt loadSign) ∧
    (resolveAll s.regions .read (accessAddrs ea 2) = .ok targets →
      ∃ t, exec (.lhu rs rt imm) s = .next t ∧ LoadsFrom s t targets rt loadZero) ∧
    (resolveAll s.regions .read (accessAddrs ea 4) = .ok targets →
      ∃ t, exec (.lw rs rt imm) s = .next t ∧ LoadsFrom s t targets rt loadSign) ∧
    (resolveAll s.regions .read (accessAddrs ea 4) = .ok targets →
      ∃ t, exec (.lwu rs rt imm) s = .next t ∧ LoadsFrom s t targets rt loadZero)

/-- The three stores with their frame (47_loads_stores.md rules R187 to R189, 20_memory.md rule R46). Where Mirrors send two bytes of one access to one buffer byte, the later byte is what it holds (assumption log entry 21). -/
def Obligations.StoresWriteTheirBytesAndNoOthers : Prop :=
  ∀ (rs rt : BitVec 5) (imm : BitVec 16) (s : State) (targets : List Target),
    s.memoryCanonical = true →
    let ea := effectiveAddr (s.readReg rs) imm
    (decode (0x28#6 ++ rs ++ rt ++ imm) = .ok (.sb rs rt imm) ∧
      (resolveAll s.regions .write (accessAddrs ea 1) = .ok targets →
        ∃ t, exec (.sb rs rt imm) s = .next t ∧
          StoresOnly s t (targets.zip
            [(s.readReg rt).extractLsb' 0 8]))) ∧
    (decode (0x29#6 ++ rs ++ rt ++ imm) = .ok (.sh rs rt imm) ∧
      (resolveAll s.regions .write (accessAddrs ea 2) = .ok targets →
        ∃ t, exec (.sh rs rt imm) s = .next t ∧
          StoresOnly s t (targets.zip
            [(s.readReg rt).extractLsb' 8 8, (s.readReg rt).extractLsb' 0 8]))) ∧
    (decode (0x2B#6 ++ rs ++ rt ++ imm) = .ok (.sw rs rt imm) ∧
      (resolveAll s.regions .write (accessAddrs ea 4) = .ok targets →
        ∃ t, exec (.sw rs rt imm) s = .next t ∧
          StoresOnly s t (targets.zip
            [(s.readReg rt).extractLsb' 24 8, (s.readReg rt).extractLsb' 16 8, (s.readReg rt).extractLsb' 8 8, (s.readReg rt).extractLsb' 0 8])))

/-- A partly unmapped access does nothing (20_memory.md rule R47) and halts with the lowest unmapped byte in access order (60_exceptions.md rule R213). -/
def Obligations.UnmappedAccessHaltsWithNothingDone : Prop :=
  ∀ (rs rt : BitVec 5) (imm : BitVec 16) (s : State) (a : Addr),
    let ea := effectiveAddr (s.readReg rs) imm
    (resolveAll s.regions .read (accessAddrs ea 1) = .error (.unmapped a) →
      exec (.lb rs rt imm) s = .next { s with run := .halted (.unmappedAddress (some (encode (.lb rs rt imm))) s.pc a) }) ∧
    (resolveAll s.regions .read (accessAddrs ea 1) = .error (.unmapped a) →
      exec (.lbu rs rt imm) s = .next { s with run := .halted (.unmappedAddress (some (encode (.lbu rs rt imm))) s.pc a) }) ∧
    (resolveAll s.regions .read (accessAddrs ea 2) = .error (.unmapped a) →
      exec (.lh rs rt imm) s = .next { s with run := .halted (.unmappedAddress (some (encode (.lh rs rt imm))) s.pc a) }) ∧
    (resolveAll s.regions .read (accessAddrs ea 2) = .error (.unmapped a) →
      exec (.lhu rs rt imm) s = .next { s with run := .halted (.unmappedAddress (some (encode (.lhu rs rt imm))) s.pc a) }) ∧
    (resolveAll s.regions .read (accessAddrs ea 4) = .error (.unmapped a) →
      exec (.lw rs rt imm) s = .next { s with run := .halted (.unmappedAddress (some (encode (.lw rs rt imm))) s.pc a) }) ∧
    (resolveAll s.regions .read (accessAddrs ea 4) = .error (.unmapped a) →
      exec (.lwu rs rt imm) s = .next { s with run := .halted (.unmappedAddress (some (encode (.lwu rs rt imm))) s.pc a) }) ∧
    (resolveAll s.regions .write (accessAddrs ea 1) = .error (.unmapped a) →
      exec (.sb rs rt imm) s = .next { s with run := .halted (.unmappedAddress (some (encode (.sb rs rt imm))) s.pc a) }) ∧
    (resolveAll s.regions .write (accessAddrs ea 2) = .error (.unmapped a) →
      exec (.sh rs rt imm) s = .next { s with run := .halted (.unmappedAddress (some (encode (.sh rs rt imm))) s.pc a) }) ∧
    (resolveAll s.regions .write (accessAddrs ea 4) = .error (.unmapped a) →
      exec (.sw rs rt imm) s = .next { s with run := .halted (.unmappedAddress (some (encode (.sw rs rt imm))) s.pc a) }) ∧
    (∀ intent n, resolveAll s.regions intent (accessAddrs ea n) = .error (.unmapped a) →
      ∃ j, j < n ∧ a = ea + BitVec.ofNat 32 j ∧ resolve s.regions a intent = .noRegion ∧
        ∀ k, k < j → ∃ t, resolve s.regions (ea + BitVec.ofNat 32 k) intent = .target t)

/-- The stub law (48_system_stubs.md rules R200 to R205, 47_loads_stores.md rules R190 to R194). -/
def Obligations.StubsOnlyLog : Prop :=
  ∀ (rs rt rd : BitVec 5) (imm : BitVec 16) (code : BitVec 20) (ign : BitVec 11) (s : State),
    let logs (w : InstrWord) (i : Instr) : Prop := decode w = .ok i ∧
      exec i s = .next { s with log := s.log ++ [.unimplementedInstruction w s.pc] }
    logs (0x22#6 ++ rs ++ rt ++ imm) (.lwl rs rt imm) ∧
    logs (0x26#6 ++ rs ++ rt ++ imm) (.lwr rs rt imm) ∧
    logs (0x2A#6 ++ rs ++ rt ++ imm) (.swl rs rt imm) ∧
    logs (0x2E#6 ++ rs ++ rt ++ imm) (.swr rs rt imm) ∧
    logs (0x2F#6 ++ rs ++ rt ++ imm) (.cache rs rt imm) ∧
    logs (0x00#6 ++ code ++ 0x0C#6) (.syscall code) ∧
    logs (0x00#6 ++ code ++ 0x0D#6) (.brk code) ∧
    logs (0x10#6 ++ 0x00#5 ++ rt ++ rd ++ ign) (.mfc0 rt rd ign) ∧
    logs (0x10#6 ++ 0x04#5 ++ rt ++ rd ++ ign) (.mtc0 rt rd ign)

/-! ### The handler contract -/

/-- The handler contract over all 63 instructions (40_dispatch_step.md rule R91). A handler that halts is that of one of the nine
loads and stores, at a byte of its own access that resolves to nothing (60_exceptions.md rule R213). -/
def Obligations.HandlersLeaveTheDriversStateAlone : Prop :=
  ∀ (i : Instr) (s t : State), exec i s = .next t →
    t.pc = s.pc ∧ t.ll = s.ll ∧ t.regions = s.regions ∧ t.runRequest = s.runRequest ∧
    (i.isControlTransfer = false → t.sched = s.sched) ∧
    (i.isControlTransfer = true → ∃ e, t.sched = .pending e) ∧
    (t.run = s.run ∨ ∃ rs rt imm n intent a,
      ((intent = .read ∧ isLoad i n rs rt imm) ∨ (intent = .write ∧ isStore i n rs rt imm)) ∧
      resolveAll s.regions intent (accessAddrs (effectiveAddr (s.readReg rs) imm) n) = .error (.unmapped a) ∧
      t = { s with run := .halted (.unmappedAddress (some (encode i)) s.pc a) })

/-- "No other instruction reads or writes them" (10_state.md rule R13), for the writes. -/
def Obligations.OnlyMultiplyDivideAndMovesTouchHiLo : Prop :=
  ∀ (i : Instr) (s t : State), exec i s = .next t → (t.hi ≠ s.hi ∨ t.lo ≠ s.lo) →
    (∃ rs rt ign, i = .mult rs rt ign ∨ i = .multu rs rt ign ∨ i = .div rs rt ign ∨ i = .divu rs rt ign) ∨
    (∃ rs ign, i = .mthi rs ign ∨ i = .mtlo rs ign)

/-- Which instructions reach the address space to write it (10_state.md rule R18). -/
def Obligations.OnlyStoresChangeMemory : Prop :=
  ∀ (i : Instr) (s t : State), exec i s = .next t → t.mem ≠ s.mem →
    ∃ rs rt imm, i = .sb rs rt imm ∨ i = .sh rs rt imm ∨ i = .sw rs rt imm

/-! ### The step -/

/-- The step around the handler (40_dispatch_step.md rule R84). That the outputs of the fetch stand when the handler halts is the
model's reading (assumption log entry 6). -/
def Obligations.StepRunsTheDecodedInstruction : Prop :=
  ∀ (s s1 : State) (w : InstrWord) (i : Instr), Stepping s → s.fetch = .ok (w, s1) → decode w = .ok i →
    ¬ (s.sched ≠ .idle ∧ i.isControlTransfer = true) →
    (∀ t, exec i { s1 with sched := .idle } = .next t → t.run = .running →
      step s = .next { t with pc :=
        match s.sched with
        | .pending (.redirect target) => target
        | _ => t.pc + 4 }) ∧
    (∀ t d, exec i { s1 with sched := .idle } = .next t → t.run = .halted d →
      step s = .next { s1 with run := .halted d }) ∧
    (∀ f, exec i { s1 with sched := .idle } = .fault f → step s = .fault f) ∧
    ∀ r, exec i { s1 with sched := .idle } ≠ .refused r

/-- Instruction fetch is a MemRead through the same resolver (40_dispatch_step.md rule R82, 20_memory.md rules R48, R49). -/
def Obligations.FetchReadsTheBigEndianWordAtPc : Prop :=
  ∀ (s : State) (b0 b1 b2 b3 : Byte), Readable s s.pc [b0, b1, b2, b3] →
    s.fetch = .ok (b0 ++ b1 ++ b2 ++ b3,
      { s with log := s.log ++ dummyReads s.regions (accessAddrs s.pc 4) })

/-- UnmappedAddress on the instruction fetch (60_exceptions.md rule R213 (i)). -/
def Obligations.UnmappedFetchHaltsWithNoWord : Prop :=
  ∀ (s : State) (a : Addr), Stepping s →
    resolveAll s.regions .read (accessAddrs s.pc 4) = .error (.unmapped a) →
    step s = .next { s with run := .halted (.unmappedAddress none s.pc a) }

/-- DecodeError (60_exceptions.md rule R211), whatever the scheduler holds. -/
def Obligations.UnknownKeyHaltsWithDecodeError : Prop :=
  ∀ (s s1 : State) (w : InstrWord), Stepping s → s.fetch = .ok (w, s1) → (∀ i, decode w ≠ .ok i) →
    ∃ t, step s = .next t ∧ HaltedUnchanged s t (.decodeError w s.pc) ∧ t = { s1 with run := t.run }

/-- BranchInDelaySlot (60_exceptions.md rule R217, 40_dispatch_step.md rule R89). That the outputs of the fetch stand is the model's
reading (assumption log entry 6). -/
def Obligations.BranchInADelaySlotHalts : Prop :=
  ∀ (s s1 : State) (w : InstrWord) (i : Instr), Stepping s → s.sched ≠ .idle → s.fetch = .ok (w, s1) →
    decode w = .ok i → i.isControlTransfer = true →
    ∃ t, step s = .next t ∧ HaltedUnchanged s t (.branchInDelaySlot w s.pc) ∧ t = { s1 with run := t.run }

/-- The table of 40_dispatch_step.md rule R87 over all instructions, with rules R85 and R86: pc advances whatever the instruction. -/
def Obligations.PcAndSchedulerFollowTheTable : Prop :=
  ∀ (s s1 s' : State) (w : InstrWord) (i : Instr), Stepping s → s.fetch = .ok (w, s1) → decode w = .ok i →
    step s = .next s' →
    (s'.run = .running →
      match s.sched with
      | .idle => s'.pc = s.pc + 4 ∧
          (i.isControlTransfer = false → s'.sched = .idle) ∧
          (i.isControlTransfer = true → ∃ e, s'.sched = .pending e)
      | .pending .noRedirect => s'.pc = s.pc + 4 ∧ s'.sched = .idle ∧ i.isControlTransfer = false
      | .pending (.redirect target) => s'.pc = target ∧ s'.sched = .idle ∧ i.isControlTransfer = false) ∧
    (s'.run ≠ .running → s'.pc = s.pc ∧ s'.sched = s.sched)

/-- The law of fatal conditions (60_exceptions.md rule R212). That the outputs of the fetch stand and that a halted block answers its
own state are readings of the model (assumption log entries 6 and 7). -/
def Obligations.FatalConditionsChangeNothing : Prop :=
  ∀ (s s' : State) (d : Diagnostic), Stepping s → step s = .next s' → s'.run = .halted d →
    HaltedUnchanged s s' d ∧
    ((∃ w, d = .decodeError w s.pc) ∨ (∃ w a, d = .unmappedAddress w s.pc a) ∨
      (∃ w, d = .branchInDelaySlot w s.pc)) ∧
    ∀ request, step { s' with runRequest := request } = .next { s' with runRequest := request }

/-- The complete list of conditions that stop the run (60_exceptions.md rule R210), in the order of rule R220. -/
def Obligations.OnlyTheListedEventsHalt : Prop :=
  ∀ (s s' : State) (d : Diagnostic), Stepping s → step s = .next s' → s'.run = .halted d →
    (∃ a, resolveAll s.regions .read (accessAddrs s.pc 4) = .error (.unmapped a) ∧
      d = .unmappedAddress none s.pc a) ∨
    (∃ w s1, s.fetch = .ok (w, s1) ∧
      (((∀ i, decode w ≠ .ok i) ∧ d = .decodeError w s.pc) ∨
       (∃ i, decode w = .ok i ∧ i.isControlTransfer = true ∧ s.sched ≠ .idle ∧ d = .branchInDelaySlot w s.pc) ∨
       (∃ a rs rt imm intent n, d = .unmappedAddress (some w) s.pc a ∧
         resolveAll s.regions intent (accessAddrs (effectiveAddr (s.readReg rs) imm) n) = .error (.unmapped a) ∧
         ((intent = .read ∧ n = 1 ∧ (decode w = .ok (.lb rs rt imm) ∨ decode w = .ok (.lbu rs rt imm))) ∨
          (intent = .read ∧ n = 2 ∧ (decode w = .ok (.lh rs rt imm) ∨ decode w = .ok (.lhu rs rt imm))) ∨
          (intent = .read ∧ n = 4 ∧ (decode w = .ok (.lw rs rt imm) ∨ decode w = .ok (.lwu rs rt imm))) ∨
          (intent = .write ∧ n = 1 ∧ decode w = .ok (.sb rs rt imm)) ∨
          (intent = .write ∧ n = 2 ∧ decode w = .ok (.sh rs rt imm)) ∨
          (intent = .write ∧ n = 4 ∧ decode w = .ok (.sw rs rt imm))))))

/-- Only reset leaves Halted, and a paused block holds its state (40_dispatch_step.md rule R92). That `step` answers the same state
where the block takes no step, so that its answers count as iterations, is the model's reading (assumption log entry 7). -/
def Obligations.HaltedOrPausedBlocksHoldTheirState : Prop :=
  ∀ (s : State) (n : Nat), ¬ Stepping s → Sys2Proof.core.run n s = .next s

/-- No refusal and no stuck state on any configuration the hardware admits: every word either runs or halts the run as the spec says.
The premise counts the wrapped part of a Mirror's range (assumption log entry 9). -/
def Obligations.WellFormedBlocksAlwaysStep : Prop :=
  ∀ s : State, regionsWellFormed s.regions = true → ∃ s', step s = .next s'

/-- The invariant of Safety.lean is inductive. -/
def Obligations.StepKeepsTheInvariant : Prop :=
  ∀ s s' : State, s.invariant = true → step s = .next s' → s'.invariant = true

/-- The invariant holds at reset, in every admitted configuration. The default configuration is the model's (assumption log entries 1 and 2). -/
def Obligations.ResetMeetsTheInvariant : Prop :=
  (∀ (p : Params) (s : State), State.construct p = some s → s.invariant = true) ∧
  State.reset.invariant = true

/-- REGIONS is immutable after construction (20_memory.md rule R30), and no write reaches a ReadOnlyData buffer (rule R41). -/
def Obligations.RegionsAndReadOnlyBytesNeverChange : Prop :=
  ∀ (s s' : State), step s = .next s' →
    s'.regions = s.regions ∧
    ∀ (k off : Nat) (r : Region) (init : List Host.Cell), s.regions[k]? = some r → r.kind = .readOnlyData init →
      off < 2 ^ 32 → s'.bufferByte k off = s.bufferByte k off

/-- The log is an output, not state (10_state.md rule R21): two states that differ only in their histories step alike. -/
def Obligations.OutputsOnlyGrow : Prop :=
  ∀ (s s' : State), step s = .next s' →
    (∃ l, s'.log = s.log ++ l) ∧ (∃ e, s'.deviceLog = s.deviceLog ++ e) ∧
    ∀ (log : List LogRecord) (calls : List DeviceEvent),
      ∃ log' calls', step { s with log := log, deviceLog := calls } =
        .next { s' with log := log', deviceLog := calls' }

/-- The two testable properties of 40_dispatch_step.md rule R90: (a) the taken equal-branch, (b) jump-and-link, whose link is in r31 before the slot. -/
def Obligations.TakenBranchTakesEffectAfterTheSlot : Prop :=
  (∀ (s s1 : State) (w : InstrWord) (rs rt : BitVec 5) (imm : BitVec 16), Stepping s → s.sched = .idle →
    s.fetch = .ok (w, s1) → decode w = .ok (.beq rs rt imm) → s.readReg rs = s.readReg rt →
    ∃ t, step s = .next t ∧ Stepping t ∧ t.pc = s.pc + 4 ∧
      ∀ u, step t = .next u → u.run = .running → u.pc = branchSum s.pc imm ∧ u.sched = .idle) ∧
  (∀ (s s1 : State) (w : InstrWord) (target : BitVec 26), Stepping s → s.sched = .idle →
    s.fetch = .ok (w, s1) → decode w = .ok (.jal target) →
    ∃ t, step s = .next t ∧ Stepping t ∧ t.pc = s.pc + 4 ∧
      t.readReg 31 = BitVec.ofNat 64 ((s.pc.toNat + 8) % 2 ^ 32) ∧
      ∀ u, step t = .next u → u.run = .running → u.sched = .idle ∧
        u.pc = BitVec.ofNat 32 (s.pc.toNat / 2 ^ 28 * 2 ^ 28 + 4 * target.toNat))

/-- A Dummy reads as zero and the word 0 is `sll r0, r0, 0` (20_memory.md rule R42, 30_encoding.md rule R71). -/
def Obligations.DummyFetchExecutesANop : Prop :=
  ∀ (s : State) (d0 d1 d2 d3 : Addr), Stepping s → s.sched = .idle →
    resolveAll s.regions .read (accessAddrs s.pc 4) = .ok [.dummy d0, .dummy d1, .dummy d2, .dummy d3] →
    step s = .next { s with
      pc := s.pc + 4, log := s.log ++ [.dummyRead d0, .dummyRead d1, .dummyRead d2, .dummyRead d3] }

/-! ### The address space -/

/-- First match in registration order (20_memory.md rules R33, R36): a region that does not support the intent, by the table of rule
R35, is skipped. Then what `resolve` answers when the first match is no Mirror (rules R36, R40, R42, R43) and when there is none
(rule R39). -/
def Obligations.FirstMatchWins : Prop :=
  ∀ (regions : List Region) (a : Addr) (intent : Intent),
    let supported (kind : RegionKind) : Prop :=
      kind = .dummy ∨ (∃ init, kind = .readWriteData init) ∨ kind = .readWriteDevice ∨
      (∃ target, kind = .mirror target) ∨
      (intent = .read ∧ ((∃ init, kind = .readOnlyData init) ∨ kind = .readOnlyDevice)) ∨
      (intent = .write ∧ kind = .writeOnlyDevice)
    let fits (r : Region) : Prop := r.start.toNat ≤ a.toNat ∧ a.toNat < r.start.toNat + r.size ∧ supported r.kind
    (∀ k r, firstMatch a intent 0 regions = some (k, r) ↔
      regions[k]? = some r ∧ fits r ∧ ∀ j r', j < k → regions[j]? = some r' → ¬ fits r') ∧
    (firstMatch a intent 0 regions = none ↔ ∀ r ∈ regions, ¬ fits r) ∧
    (firstMatch a intent 0 regions = none → resolve regions a intent = .noRegion) ∧
    ∀ k r, firstMatch a intent 0 regions = some (k, r) →
      (∀ init, r.kind = .readWriteData init ∨ r.kind = .readOnlyData init →
        resolve regions a intent = .target (.data k (a.toNat - r.start.toNat))) ∧
      (r.kind = .readWriteDevice ∨ r.kind = .readOnlyDevice ∨ r.kind = .writeOnlyDevice →
        resolve regions a intent = .target (.device k (a.toNat - r.start.toNat))) ∧
      (r.kind = .dummy → resolve regions a intent = .target (.dummy a))

/-- Mirror chains end (20_memory.md rule R38): the fuel of `len(REGIONS)` restarts is never exhausted. -/
def Obligations.ResolutionEndsOnWellFormedLists : Prop :=
  ∀ (regions : List Region) (a : Addr) (intent : Intent), regionsWellFormed regions = true →
    resolve regions a intent ≠ .loop

/-- The decidable clause (a bounded chain) is the absence of cycles that 20_memory.md rule R38 asks for. The arrow counts the part of
a rebased range that wraps past 2^32, which is the model's reading (assumption log entry 9). -/
def Obligations.MirrorClauseForbidsExactlyTheCycles : Prop :=
  ∀ regions : List Region, mirrorsAcyclic regions = true ↔
    ∀ m ∈ regions, ¬ Relation.TransGen (fun x y => y ∈ regions ∧ mirrorArrow x y = true) m m

/-- Mirror rebasing with restart from the top (20_memory.md rule R37). -/
def Obligations.MirrorsReadAndWriteWhatTheyLeadTo : Prop :=
  ∀ (s : State) (a target : Addr) (k : Nat) (r : Region), regionsWellFormed s.regions = true →
    r.kind = .mirror target →
    (∀ intent, firstMatch a intent 0 s.regions = some (k, r) →
      resolve s.regions a intent = resolve s.regions (a + (target - r.start)) intent) ∧
    (firstMatch a .read 0 s.regions = some (k, r) → s.peek a = s.peek (a + (target - r.start)))

/-- Whatever `resolve` answers, after any rebasing (20_memory.md rules R36, R37, R39): the offset is the distance from the region's
start and below its size, the kind has the capability of rule R35, a Dummy reports the rebased address (rule R42), and NoRegion means
that no region matches the rebased address. -/
def Obligations.TargetsLieInsideTheirRegions : Prop :=
  ∀ (regions : List Region) (a : Addr) (intent : Intent) (k off : Nat),
    (resolve regions a intent = .target (.data k off) →
      ∃ r a', RebasesTo regions intent a a' ∧ firstMatch a' intent 0 regions = some (k, r) ∧
        regions[k]? = some r ∧ a'.toNat = r.start.toNat + off ∧ off < r.size ∧
        ((∃ init, r.kind = .readWriteData init) ∨ (intent = .read ∧ ∃ init, r.kind = .readOnlyData init))) ∧
    (resolve regions a intent = .target (.device k off) →
      ∃ r a', RebasesTo regions intent a a' ∧ firstMatch a' intent 0 regions = some (k, r) ∧
        regions[k]? = some r ∧ a'.toNat = r.start.toNat + off ∧ off < r.size ∧
        (r.kind = .readWriteDevice ∨ (intent = .read ∧ r.kind = .readOnlyDevice) ∨
          (intent = .write ∧ r.kind = .writeOnlyDevice))) ∧
    (∀ d, resolve regions a intent = .target (.dummy d) →
      RebasesTo regions intent a d ∧
      ∃ j r, firstMatch d intent 0 regions = some (j, r) ∧ regions[j]? = some r ∧ r.kind = .dummy ∧
        r.start.toNat ≤ d.toNat ∧ d.toNat < r.start.toNat + r.size) ∧
    (resolve regions a intent = .noRegion →
      ∃ a', RebasesTo regions intent a a' ∧ firstMatch a' intent 0 regions = none)

/-- The round trip (20_memory.md rule R50) where every byte resolves to storage; that no two bytes of the access share a buffer byte is needed where Mirrors alias (assumption log entry 21). -/
def Obligations.WriteThenReadReturnsTheValue : Prop :=
  ∀ (s : State) (a : Addr) (n : Nat) (v : Word), s.memoryCanonical = true →
    (n = 1 ∨ n = 2 ∨ n = 4) → StorageBacked s.regions a n →
    ∃ t bytes, s.memWrite a n v = .ok t ∧ t.memRead a n = .ok (bytes, t) ∧
      bigEndian bytes = v.toNat % 2 ^ (8 * n)

/-- Self-modifying code needs no fence (20_memory.md rule R57). That no two of the four bytes share a buffer byte (in StorageBacked)
is needed where Mirrors alias (assumption log entry 21). -/
def Obligations.StoredWordIsFetchedNext : Prop :=
  ∀ (rs rt : BitVec 5) (imm : BitVec 16) (s : State),
    let ea := effectiveAddr (s.readReg rs) imm
    s.memoryCanonical = true → StorageBacked s.regions ea 4 →
    ∃ t, exec (.sw rs rt imm) s = .next t ∧
      State.fetch { t with pc := ea } = .ok (BitVec.ofNat 32 (s.readReg rt).toNat, { t with pc := ea })

/-! ### Reset -/

/-- The reset sequence (70_reset_and_hazards.md rule R241) for every admitted configuration. Of `run_request`, an input, and
of the model's counter `draws` it says nothing. That the reset input takes a configuration, which may differ from the block's own, is
the model's choice (assumption log entry 26). -/
def Obligations.ResetPutsEveryPieceAtItsValue : Prop :=
  (∀ (p : Params) (s : State), State.construct p = some s →
    s.readReg p.preset[0] = 0 ∧ s.readReg p.preset[1] = 1 ∧ s.readReg p.preset[2] = 0 ∧
    s.readReg p.preset[3] = 0x3F ∧ s.readReg p.preset[4] = 0 ∧
    s.readReg p.spIndex = (if p.spIndex = 0 then 0 else p.resetSp) ∧
    (∀ r, r ∉ p.preset.toList → r ≠ p.spIndex → s.readReg r = 0) ∧
    s.hi = 0 ∧ s.lo = 0 ∧ s.pc = p.resetPc ∧ s.ll = false ∧ s.sched = .idle ∧ s.run = .running ∧
    s.regions = p.regions ∧
    (∀ k off r, p.regions[k]? = some r → off < 2 ^ 32 → s.bufferByte k off = bufferInit r off) ∧
    ∀ s0 : State, ∃ request drawn, s0.applyReset p = { s with
      log := s0.log, deviceLog := s0.deviceLog, runRequest := request, draws := drawn }) ∧
  (∀ p : Params,
    ((∃ i j : Fin 5, i ≠ j ∧ p.preset[i] = p.preset[j]) ∨
      (∃ i : Fin 5, p.preset[i] = 0 ∨ p.preset[i] = p.spIndex)) →
    State.construct p = none)

/-- What construction refuses of a region list (20_memory.md rule R34); a cycle of several Mirrors is in
MirrorClauseForbidsExactlyTheCycles. That a Mirror which meets itself only through a range wrapped past 2^32 is refused is the model's
reading (assumption log entry 9). -/
def Obligations.IllFormedRegionsAreRefused : Prop :=
  ∀ (p : Params) (r : Region), r ∈ p.regions →
    (r.size = 0 ∨ 2 ^ 32 < r.start.toNat + r.size ∨
      (∃ init, ∃ c ∈ init, (r.kind = .readWriteData init ∨ r.kind = .readOnlyData init) ∧ r.size ≤ c.1) ∨
      mirrorArrow r r = true) →
    State.construct p = none

/-- The initial contents (70_reset_and_hazards.md rule R246) in the default map, whose addresses are the spec's non-normative defaults (assumption log entry 1). -/
def Obligations.DefaultMapHoldsTheRomHeader : Prop :=
  ∀ (rom : Image) (s : State), rom.wellFormed = true → State.construct (defaultParams rom) = some s →
    (∀ n : Nat, n < 0x1000 →
      s.peek (0xA4000000 + BitVec.ofNat 32 n) = some (Memory.get (fun _ => 0) rom.bytes n) ∧
      s.peek (0xB0000000 + BitVec.ofNat 32 n) = some (Memory.get (fun _ => 0) rom.bytes n)) ∧
    (∀ n : Nat, 0x1000 ≤ n → n < 0x2000 → s.peek (0xA4000000 + BitVec.ofNat 32 n) = some 0) ∧
    (∀ n : Nat, n < 0x00400000 → s.peek (BitVec.ofNat 32 n) = some 0)

/-! ### Pseudo-instructions -/

/-- The table of 30_encoding.md rule R75: each pseudo-instruction is one real instruction, with the effect the table gives it; and the
instructions that other assemblers expand into, LUI (primary 0x0F), ORI (0x0D) and ADDIU (0x09), are DecodeErrors (rule R73). -/
def Obligations.PseudoInstructionsActAsTheirExpansions : Prop :=
  (∀ (rd rs rt : BitVec 5) (imm : BitVec 16) (s : State),
    (decode 0x00000000#32 = .ok pseudoNop ∧ exec pseudoNop s = .next s) ∧
    (decode (0x00#6 ++ rs ++ 0#5 ++ rd ++ 0#5 ++ 0x25#6) = .ok (pseudoMove rd rs) ∧
      ∃ t, exec (pseudoMove rd rs) s = .next t ∧ WritesOnlyRegister s t rd (s.readReg rs)) ∧
    (decode (0x08#6 ++ 0#5 ++ rt ++ imm) = .ok (pseudoLi rt imm) ∧
      ∃ t, exec (pseudoLi rt imm) s = .next t ∧ WritesOnlyRegister s t rt (BitVec.ofInt 64 imm.toInt)) ∧
    (decode (0x04#6 ++ 0#5 ++ 0#5 ++ imm) = .ok (pseudoB imm) ∧
      ∃ t, exec (pseudoB imm) s = .next t ∧ SchedulesOnly s t True (branchSum s.pc imm)) ∧
    (decode (0x01#6 ++ 0#5 ++ 0x11#5 ++ imm) = .ok (pseudoBal imm) ∧
      ∃ t, exec (pseudoBal imm) s = .next t ∧ SchedulesAndLinks s t True (branchSum s.pc imm) 31) ∧
    (decode (0x00#6 ++ 0#5 ++ rt ++ rd ++ 0#5 ++ 0x22#6) = .ok (pseudoNeg rd rt) ∧
      ∃ t, exec (pseudoNeg rd rt) s = .next t ∧ WritesOnlyRegister s t rd (-s.readReg rt)) ∧
    (decode (0x00#6 ++ rs ++ 0#5 ++ rd ++ 0#5 ++ 0x27#6) = .ok (pseudoNot rd rs) ∧
      ∃ t, exec (pseudoNot rd rs) s = .next t ∧ WritesOnlyRegister s t rd (~~~ s.readReg rs))) ∧
  (∀ op ∈ ([0x0F, 0x0D, 0x09] : List (BitVec 6)), ∀ operands : BitVec 26,
    decode (op ++ operands) = .error (.noHandler (.primary op)) ∧
    ∀ s s1 : State, Stepping s → s.fetch = .ok (op ++ operands, s1) →
      step s = .next { s1 with run := .halted (.decodeError (op ++ operands) s.pc) })
end

