-- ==== Sys2Proof/Laws/State.lean ====
section
/-! SUPPORT. One lemma per field per update of the state, each true by rfl, so that no later proof unfolds a record
update. -/

namespace Sys2Proof.Machine

@[simp] theorem State.writeReg_regs (s : State) (i : RegIdx) (v : Word) : (s.writeReg i v).regs = putReg s.regs i v := rfl
@[simp] theorem State.writeReg_hi (s : State) (i : RegIdx) (v : Word) : (s.writeReg i v).hi = s.hi := rfl
@[simp] theorem State.writeReg_lo (s : State) (i : RegIdx) (v : Word) : (s.writeReg i v).lo = s.lo := rfl
@[simp] theorem State.writeReg_pc (s : State) (i : RegIdx) (v : Word) : (s.writeReg i v).pc = s.pc := rfl
@[simp] theorem State.writeReg_ll (s : State) (i : RegIdx) (v : Word) : (s.writeReg i v).ll = s.ll := rfl
@[simp] theorem State.writeReg_sched (s : State) (i : RegIdx) (v : Word) : (s.writeReg i v).sched = s.sched := rfl
@[simp] theorem State.writeReg_run (s : State) (i : RegIdx) (v : Word) : (s.writeReg i v).run = s.run := rfl
@[simp] theorem State.writeReg_mem (s : State) (i : RegIdx) (v : Word) : (s.writeReg i v).mem = s.mem := rfl
@[simp] theorem State.writeReg_regions (s : State) (i : RegIdx) (v : Word) : (s.writeReg i v).regions = s.regions := rfl
@[simp] theorem State.writeReg_log (s : State) (i : RegIdx) (v : Word) : (s.writeReg i v).log = s.log := rfl
@[simp] theorem State.writeReg_deviceLog (s : State) (i : RegIdx) (v : Word) : (s.writeReg i v).deviceLog = s.deviceLog := rfl
@[simp] theorem State.writeReg_runRequest (s : State) (i : RegIdx) (v : Word) : (s.writeReg i v).runRequest = s.runRequest := rfl
@[simp] theorem State.writeReg_draws (s : State) (i : RegIdx) (v : Word) : (s.writeReg i v).draws = s.draws := rfl

@[simp] theorem State.writeHi_regs (s : State) (v : Word) : (s.writeHi v).regs = s.regs := rfl
@[simp] theorem State.writeHi_hi (s : State) (v : Word) : (s.writeHi v).hi = v := rfl
@[simp] theorem State.writeHi_lo (s : State) (v : Word) : (s.writeHi v).lo = s.lo := rfl
@[simp] theorem State.writeHi_pc (s : State) (v : Word) : (s.writeHi v).pc = s.pc := rfl
@[simp] theorem State.writeHi_ll (s : State) (v : Word) : (s.writeHi v).ll = s.ll := rfl
@[simp] theorem State.writeHi_sched (s : State) (v : Word) : (s.writeHi v).sched = s.sched := rfl
@[simp] theorem State.writeHi_run (s : State) (v : Word) : (s.writeHi v).run = s.run := rfl
@[simp] theorem State.writeHi_mem (s : State) (v : Word) : (s.writeHi v).mem = s.mem := rfl
@[simp] theorem State.writeHi_regions (s : State) (v : Word) : (s.writeHi v).regions = s.regions := rfl
@[simp] theorem State.writeHi_log (s : State) (v : Word) : (s.writeHi v).log = s.log := rfl
@[simp] theorem State.writeHi_deviceLog (s : State) (v : Word) : (s.writeHi v).deviceLog = s.deviceLog := rfl
@[simp] theorem State.writeHi_runRequest (s : State) (v : Word) : (s.writeHi v).runRequest = s.runRequest := rfl
@[simp] theorem State.writeHi_draws (s : State) (v : Word) : (s.writeHi v).draws = s.draws := rfl

@[simp] theorem State.writeLo_regs (s : State) (v : Word) : (s.writeLo v).regs = s.regs := rfl
@[simp] theorem State.writeLo_hi (s : State) (v : Word) : (s.writeLo v).hi = s.hi := rfl
@[simp] theorem State.writeLo_lo (s : State) (v : Word) : (s.writeLo v).lo = v := rfl
@[simp] theorem State.writeLo_pc (s : State) (v : Word) : (s.writeLo v).pc = s.pc := rfl
@[simp] theorem State.writeLo_ll (s : State) (v : Word) : (s.writeLo v).ll = s.ll := rfl
@[simp] theorem State.writeLo_sched (s : State) (v : Word) : (s.writeLo v).sched = s.sched := rfl
@[simp] theorem State.writeLo_run (s : State) (v : Word) : (s.writeLo v).run = s.run := rfl
@[simp] theorem State.writeLo_mem (s : State) (v : Word) : (s.writeLo v).mem = s.mem := rfl
@[simp] theorem State.writeLo_regions (s : State) (v : Word) : (s.writeLo v).regions = s.regions := rfl
@[simp] theorem State.writeLo_log (s : State) (v : Word) : (s.writeLo v).log = s.log := rfl
@[simp] theorem State.writeLo_deviceLog (s : State) (v : Word) : (s.writeLo v).deviceLog = s.deviceLog := rfl
@[simp] theorem State.writeLo_runRequest (s : State) (v : Word) : (s.writeLo v).runRequest = s.runRequest := rfl
@[simp] theorem State.writeLo_draws (s : State) (v : Word) : (s.writeLo v).draws = s.draws := rfl

@[simp] theorem State.enqueue_regs (s : State) (e : Effect) : (s.enqueue e).regs = s.regs := rfl
@[simp] theorem State.enqueue_hi (s : State) (e : Effect) : (s.enqueue e).hi = s.hi := rfl
@[simp] theorem State.enqueue_lo (s : State) (e : Effect) : (s.enqueue e).lo = s.lo := rfl
@[simp] theorem State.enqueue_pc (s : State) (e : Effect) : (s.enqueue e).pc = s.pc := rfl
@[simp] theorem State.enqueue_ll (s : State) (e : Effect) : (s.enqueue e).ll = s.ll := rfl
@[simp] theorem State.enqueue_sched (s : State) (e : Effect) : (s.enqueue e).sched = .pending e := rfl
@[simp] theorem State.enqueue_run (s : State) (e : Effect) : (s.enqueue e).run = s.run := rfl
@[simp] theorem State.enqueue_mem (s : State) (e : Effect) : (s.enqueue e).mem = s.mem := rfl
@[simp] theorem State.enqueue_regions (s : State) (e : Effect) : (s.enqueue e).regions = s.regions := rfl
@[simp] theorem State.enqueue_log (s : State) (e : Effect) : (s.enqueue e).log = s.log := rfl
@[simp] theorem State.enqueue_deviceLog (s : State) (e : Effect) : (s.enqueue e).deviceLog = s.deviceLog := rfl
@[simp] theorem State.enqueue_runRequest (s : State) (e : Effect) : (s.enqueue e).runRequest = s.runRequest := rfl
@[simp] theorem State.enqueue_draws (s : State) (e : Effect) : (s.enqueue e).draws = s.draws := rfl

@[simp] theorem State.emit_regs (s : State) (r : LogRecord) : (s.emit r).regs = s.regs := rfl
@[simp] theorem State.emit_hi (s : State) (r : LogRecord) : (s.emit r).hi = s.hi := rfl
@[simp] theorem State.emit_lo (s : State) (r : LogRecord) : (s.emit r).lo = s.lo := rfl
@[simp] theorem State.emit_pc (s : State) (r : LogRecord) : (s.emit r).pc = s.pc := rfl
@[simp] theorem State.emit_ll (s : State) (r : LogRecord) : (s.emit r).ll = s.ll := rfl
@[simp] theorem State.emit_sched (s : State) (r : LogRecord) : (s.emit r).sched = s.sched := rfl
@[simp] theorem State.emit_run (s : State) (r : LogRecord) : (s.emit r).run = s.run := rfl
@[simp] theorem State.emit_mem (s : State) (r : LogRecord) : (s.emit r).mem = s.mem := rfl
@[simp] theorem State.emit_regions (s : State) (r : LogRecord) : (s.emit r).regions = s.regions := rfl
@[simp] theorem State.emit_log (s : State) (r : LogRecord) : (s.emit r).log = s.log ++ [r] := rfl
@[simp] theorem State.emit_deviceLog (s : State) (r : LogRecord) : (s.emit r).deviceLog = s.deviceLog := rfl
@[simp] theorem State.emit_runRequest (s : State) (r : LogRecord) : (s.emit r).runRequest = s.runRequest := rfl
@[simp] theorem State.emit_draws (s : State) (r : LogRecord) : (s.emit r).draws = s.draws := rfl

@[simp] theorem State.callDevice_regs (s : State) (e : DeviceEvent) : (s.callDevice e).regs = s.regs := rfl
@[simp] theorem State.callDevice_hi (s : State) (e : DeviceEvent) : (s.callDevice e).hi = s.hi := rfl
@[simp] theorem State.callDevice_lo (s : State) (e : DeviceEvent) : (s.callDevice e).lo = s.lo := rfl
@[simp] theorem State.callDevice_pc (s : State) (e : DeviceEvent) : (s.callDevice e).pc = s.pc := rfl
@[simp] theorem State.callDevice_ll (s : State) (e : DeviceEvent) : (s.callDevice e).ll = s.ll := rfl
@[simp] theorem State.callDevice_sched (s : State) (e : DeviceEvent) : (s.callDevice e).sched = s.sched := rfl
@[simp] theorem State.callDevice_run (s : State) (e : DeviceEvent) : (s.callDevice e).run = s.run := rfl
@[simp] theorem State.callDevice_mem (s : State) (e : DeviceEvent) : (s.callDevice e).mem = s.mem := rfl
@[simp] theorem State.callDevice_regions (s : State) (e : DeviceEvent) : (s.callDevice e).regions = s.regions := rfl
@[simp] theorem State.callDevice_log (s : State) (e : DeviceEvent) : (s.callDevice e).log = s.log := rfl
@[simp] theorem State.callDevice_deviceLog (s : State) (e : DeviceEvent) : (s.callDevice e).deviceLog = s.deviceLog ++ [e] := rfl
@[simp] theorem State.callDevice_runRequest (s : State) (e : DeviceEvent) : (s.callDevice e).runRequest = s.runRequest := rfl
@[simp] theorem State.callDevice_draws (s : State) (e : DeviceEvent) : (s.callDevice e).draws = s.draws := rfl

@[simp] theorem State.halt_regs (s : State) (d : Diagnostic) : (s.halt d).regs = s.regs := rfl
@[simp] theorem State.halt_hi (s : State) (d : Diagnostic) : (s.halt d).hi = s.hi := rfl
@[simp] theorem State.halt_lo (s : State) (d : Diagnostic) : (s.halt d).lo = s.lo := rfl
@[simp] theorem State.halt_pc (s : State) (d : Diagnostic) : (s.halt d).pc = s.pc := rfl
@[simp] theorem State.halt_ll (s : State) (d : Diagnostic) : (s.halt d).ll = s.ll := rfl
@[simp] theorem State.halt_sched (s : State) (d : Diagnostic) : (s.halt d).sched = s.sched := rfl
@[simp] theorem State.halt_run (s : State) (d : Diagnostic) : (s.halt d).run = .halted d := rfl
@[simp] theorem State.halt_mem (s : State) (d : Diagnostic) : (s.halt d).mem = s.mem := rfl
@[simp] theorem State.halt_regions (s : State) (d : Diagnostic) : (s.halt d).regions = s.regions := rfl
@[simp] theorem State.halt_log (s : State) (d : Diagnostic) : (s.halt d).log = s.log := rfl
@[simp] theorem State.halt_deviceLog (s : State) (d : Diagnostic) : (s.halt d).deviceLog = s.deviceLog := rfl
@[simp] theorem State.halt_runRequest (s : State) (d : Diagnostic) : (s.halt d).runRequest = s.runRequest := rfl
@[simp] theorem State.halt_draws (s : State) (d : Diagnostic) : (s.halt d).draws = s.draws := rfl

@[simp] theorem State.setBufferByte_regs (s : State) (k off : Nat) (b : Byte) : (s.setBufferByte k off b).regs = s.regs := rfl
@[simp] theorem State.setBufferByte_hi (s : State) (k off : Nat) (b : Byte) : (s.setBufferByte k off b).hi = s.hi := rfl
@[simp] theorem State.setBufferByte_lo (s : State) (k off : Nat) (b : Byte) : (s.setBufferByte k off b).lo = s.lo := rfl
@[simp] theorem State.setBufferByte_pc (s : State) (k off : Nat) (b : Byte) : (s.setBufferByte k off b).pc = s.pc := rfl
@[simp] theorem State.setBufferByte_ll (s : State) (k off : Nat) (b : Byte) : (s.setBufferByte k off b).ll = s.ll := rfl
@[simp] theorem State.setBufferByte_sched (s : State) (k off : Nat) (b : Byte) : (s.setBufferByte k off b).sched = s.sched := rfl
@[simp] theorem State.setBufferByte_run (s : State) (k off : Nat) (b : Byte) : (s.setBufferByte k off b).run = s.run := rfl
@[simp] theorem State.setBufferByte_mem (s : State) (k off : Nat) (b : Byte) : (s.setBufferByte k off b).mem = Memory.set (initialByte s.regions) (cellKey k off) b s.mem := rfl
@[simp] theorem State.setBufferByte_regions (s : State) (k off : Nat) (b : Byte) : (s.setBufferByte k off b).regions = s.regions := rfl
@[simp] theorem State.setBufferByte_log (s : State) (k off : Nat) (b : Byte) : (s.setBufferByte k off b).log = s.log := rfl
@[simp] theorem State.setBufferByte_deviceLog (s : State) (k off : Nat) (b : Byte) : (s.setBufferByte k off b).deviceLog = s.deviceLog := rfl
@[simp] theorem State.setBufferByte_runRequest (s : State) (k off : Nat) (b : Byte) : (s.setBufferByte k off b).runRequest = s.runRequest := rfl
@[simp] theorem State.setBufferByte_draws (s : State) (k off : Nat) (b : Byte) : (s.setBufferByte k off b).draws = s.draws := rfl

@[simp] theorem State.drawHiLo_regs (s : State) : (s.drawHiLo).regs = s.regs := rfl
@[simp] theorem State.drawHiLo_hi (s : State) : (s.drawHiLo).hi = Config.freeWord s.draws := rfl
@[simp] theorem State.drawHiLo_lo (s : State) : (s.drawHiLo).lo = Config.freeWord (s.draws + 1) := rfl
@[simp] theorem State.drawHiLo_pc (s : State) : (s.drawHiLo).pc = s.pc := rfl
@[simp] theorem State.drawHiLo_ll (s : State) : (s.drawHiLo).ll = s.ll := rfl
@[simp] theorem State.drawHiLo_sched (s : State) : (s.drawHiLo).sched = s.sched := rfl
@[simp] theorem State.drawHiLo_run (s : State) : (s.drawHiLo).run = s.run := rfl
@[simp] theorem State.drawHiLo_mem (s : State) : (s.drawHiLo).mem = s.mem := rfl
@[simp] theorem State.drawHiLo_regions (s : State) : (s.drawHiLo).regions = s.regions := rfl
@[simp] theorem State.drawHiLo_log (s : State) : (s.drawHiLo).log = s.log := rfl
@[simp] theorem State.drawHiLo_deviceLog (s : State) : (s.drawHiLo).deviceLog = s.deviceLog := rfl
@[simp] theorem State.drawHiLo_runRequest (s : State) : (s.drawHiLo).runRequest = s.runRequest := rfl
@[simp] theorem State.drawHiLo_draws (s : State) : (s.drawHiLo).draws = s.draws + 2 := rfl

@[simp] theorem State.writeProduct_regs (s : State) (p : Word) : (s.writeProduct p).regs = s.regs := rfl
@[simp] theorem State.writeProduct_hi (s : State) (p : Word) : (s.writeProduct p).hi = sext64 (p.extractLsb' 32 32) := rfl
@[simp] theorem State.writeProduct_lo (s : State) (p : Word) : (s.writeProduct p).lo = sext64 (p.extractLsb' 0 32) := rfl
@[simp] theorem State.writeProduct_pc (s : State) (p : Word) : (s.writeProduct p).pc = s.pc := rfl
@[simp] theorem State.writeProduct_ll (s : State) (p : Word) : (s.writeProduct p).ll = s.ll := rfl
@[simp] theorem State.writeProduct_sched (s : State) (p : Word) : (s.writeProduct p).sched = s.sched := rfl
@[simp] theorem State.writeProduct_run (s : State) (p : Word) : (s.writeProduct p).run = s.run := rfl
@[simp] theorem State.writeProduct_mem (s : State) (p : Word) : (s.writeProduct p).mem = s.mem := rfl
@[simp] theorem State.writeProduct_regions (s : State) (p : Word) : (s.writeProduct p).regions = s.regions := rfl
@[simp] theorem State.writeProduct_log (s : State) (p : Word) : (s.writeProduct p).log = s.log := rfl
@[simp] theorem State.writeProduct_deviceLog (s : State) (p : Word) : (s.writeProduct p).deviceLog = s.deviceLog := rfl
@[simp] theorem State.writeProduct_runRequest (s : State) (p : Word) : (s.writeProduct p).runRequest = s.runRequest := rfl
@[simp] theorem State.writeProduct_draws (s : State) (p : Word) : (s.writeProduct p).draws = s.draws := rfl

@[simp] theorem State.writeQuotient_regs (s : State) (q r : Int) : (s.writeQuotient q r).regs = s.regs := rfl
@[simp] theorem State.writeQuotient_hi (s : State) (q r : Int) : (s.writeQuotient q r).hi = sext64 (BitVec.ofInt 32 r) := rfl
@[simp] theorem State.writeQuotient_lo (s : State) (q r : Int) : (s.writeQuotient q r).lo = sext64 (BitVec.ofInt 32 q) := rfl
@[simp] theorem State.writeQuotient_pc (s : State) (q r : Int) : (s.writeQuotient q r).pc = s.pc := rfl
@[simp] theorem State.writeQuotient_ll (s : State) (q r : Int) : (s.writeQuotient q r).ll = s.ll := rfl
@[simp] theorem State.writeQuotient_sched (s : State) (q r : Int) : (s.writeQuotient q r).sched = s.sched := rfl
@[simp] theorem State.writeQuotient_run (s : State) (q r : Int) : (s.writeQuotient q r).run = s.run := rfl
@[simp] theorem State.writeQuotient_mem (s : State) (q r : Int) : (s.writeQuotient q r).mem = s.mem := rfl
@[simp] theorem State.writeQuotient_regions (s : State) (q r : Int) : (s.writeQuotient q r).regions = s.regions := rfl
@[simp] theorem State.writeQuotient_log (s : State) (q r : Int) : (s.writeQuotient q r).log = s.log := rfl
@[simp] theorem State.writeQuotient_deviceLog (s : State) (q r : Int) : (s.writeQuotient q r).deviceLog = s.deviceLog := rfl
@[simp] theorem State.writeQuotient_runRequest (s : State) (q r : Int) : (s.writeQuotient q r).runRequest = s.runRequest := rfl
@[simp] theorem State.writeQuotient_draws (s : State) (q r : Int) : (s.writeQuotient q r).draws = s.draws := rfl

end Sys2Proof.Machine
end

