-- ==== Sys2Proof/Laws/Memory.lean ====
section
/-! SUPPORT. The laws of the list of cells: read after write, the canonical form, and that equal reads of canonical
lists are equal lists. -/

namespace Sys2Proof.Machine

variable {dflt : Nat → Byte}

theorem Memory.wf_iff (m : List Host.Cell) :
    Memory.wf dflt m = true ↔ m.Pairwise (fun c d => c.1 < d.1) ∧ ∀ c ∈ m, c.2 ≠ dflt c.1 := by
  simp [Memory.wf]

/-- A key below every listed key reads as an unlisted one. -/
theorem Memory.get_of_lt {m : List Host.Cell} {key : Nat} (h : ∀ c ∈ m, key < c.1) :
    Memory.get dflt m key = dflt key := by
  induction m with
  | nil => rfl
  | cons c m ih =>
    have hc := h c (by simp)
    rw [Memory.get, if_neg (by omega), ih fun d hd => h d (by simp [hd])]

/-- Every other key reads as before, in canonical form or not. -/
theorem Memory.get_set_other {key key' : Nat} (b : Byte) (m : List Host.Cell) (h : key' ≠ key) :
    Memory.get dflt (Memory.set dflt key b m) key' = Memory.get dflt m key' := by
  induction m with
  | nil => by_cases hb : b = dflt key <;> simp [Memory.set, Memory.get, hb, Ne.symm h]
  | cons c m ih =>
    unfold Memory.set
    split
    · simp [Memory.get, ih]
    · split
      · next hc => split <;> simp [Memory.get, hc, Ne.symm h]
      · split <;> simp [Memory.get, Ne.symm h]

/-- The written key reads as the byte written, when the keys are strictly rising. -/
theorem Memory.get_set_same (key : Nat) (b : Byte) {m : List Host.Cell}
    (hm : m.Pairwise (fun c d => c.1 < d.1)) : Memory.get dflt (Memory.set dflt key b m) key = b := by
  induction m with
  | nil => by_cases hb : b = dflt key <;> simp [Memory.set, Memory.get, hb]
  | cons c m ih =>
    obtain ⟨hc, hm⟩ := List.pairwise_cons.1 hm
    unfold Memory.set
    split
    · next h => rw [Memory.get, if_neg (by omega)]; exact ih hm
    · next h =>
      split
      · next he =>
        split
        · next hb => rw [Memory.get_of_lt fun d hd => by have := hc d hd; omega, hb]
        · simp [Memory.get]
      · next he =>
        split
        · next hb =>
          rw [Memory.get, if_neg (by omega), Memory.get_of_lt fun d hd => by have := hc d hd; omega, hb]
        · simp [Memory.get]

/-- The cells of a written list are the new one and old ones. -/
theorem Memory.mem_set {key : Nat} {b : Byte} {m : List Host.Cell} {c : Host.Cell}
    (h : c ∈ Memory.set dflt key b m) : (c = (key, b) ∧ b ≠ dflt key) ∨ c ∈ m := by
  induction m with
  | nil =>
    by_cases hb : b = dflt key <;> simp [Memory.set, hb] at h
    exact .inl ⟨h, hb⟩
  | cons d m ih =>
    unfold Memory.set at h
    split at h
    · rcases List.mem_cons.1 h with h | h
      · exact .inr (by simp [h])
      · rcases ih h with h | h
        · exact .inl h
        · exact .inr (by simp [h])
    · split at h <;> split at h
      · exact .inr (by simp [h])
      · next hb =>
        rcases List.mem_cons.1 h with h | h
        · exact .inl ⟨h, hb⟩
        · exact .inr (by simp [h])
      · exact .inr h
      · next hb =>
        rcases List.mem_cons.1 h with h | h
        · exact .inl ⟨h, hb⟩
        · exact .inr h

/-- A write keeps the canonical form. -/
theorem Memory.wf_set (key : Nat) (b : Byte) {m : List Host.Cell} (h : Memory.wf dflt m = true) :
    Memory.wf dflt (Memory.set dflt key b m) = true := by
  rw [Memory.wf_iff] at h ⊢
  refine ⟨?_, fun c hc => ?_⟩
  · obtain ⟨hp, -⟩ := h
    induction m with
    | nil => by_cases hb : b = dflt key <;> simp [Memory.set, hb]
    | cons c m ih =>
      obtain ⟨hc, hm⟩ := List.pairwise_cons.1 hp
      unfold Memory.set
      split
      · next hlt =>
        refine List.pairwise_cons.2 ⟨fun d hd => ?_, ih hm⟩
        rcases Memory.mem_set hd with ⟨rfl, -⟩ | hd
        · exact hlt
        · exact hc d hd
      · split
        · next he =>
          split
          · exact hm
          · exact List.pairwise_cons.2 ⟨fun d hd => he ▸ hc d hd, hm⟩
        · split
          · exact hp
          · refine List.pairwise_cons.2 ⟨fun d hd => ?_, hp⟩
            rcases List.mem_cons.1 hd with rfl | hd
            · show key < d.1; omega
            · have := hc d hd; show key < d.1; omega
  · rcases Memory.mem_set hc with ⟨rfl, hb⟩ | hc
    · exact hb
    · exact h.2 c hc

/-- Canonical lists that read alike are the same list. -/
theorem Memory.ext_of_wf {m m' : List Host.Cell} (h : Memory.wf dflt m = true) (h' : Memory.wf dflt m' = true)
    (hg : ∀ key, Memory.get dflt m key = Memory.get dflt m' key) : m = m' := by
  rw [Memory.wf_iff] at h h'
  induction m generalizing m' with
  | nil =>
    cases m' with
    | nil => rfl
    | cons c m' => exact absurd (by simpa [Memory.get] using (hg c.1).symm) (h'.2 c (by simp))
  | cons c m ih =>
    obtain ⟨hc, hm⟩ := List.pairwise_cons.1 h.1
    cases m' with
    | nil => exact absurd (by simpa [Memory.get] using hg c.1) (h.2 c (by simp))
    | cons d m' =>
      obtain ⟨hd, hm'⟩ := List.pairwise_cons.1 h'.1
      have key : c.1 = d.1 := by
        rcases Nat.lt_trichotomy c.1 d.1 with hlt | he | hlt
        · have := hg c.1
          rw [Memory.get, if_pos rfl, Memory.get_of_lt fun e he => by
            rcases List.mem_cons.1 he with rfl | he
            · exact hlt
            · exact lt_trans hlt (hd e he)] at this
          exact absurd this (h.2 c (by simp))
        · exact he
        · have := hg d.1
          rw [Memory.get_of_lt (m := c :: m) fun e he => by
            rcases List.mem_cons.1 he with rfl | he
            · exact hlt
            · exact lt_trans hlt (hc e he), Memory.get, if_pos rfl] at this
          exact absurd this.symm (h'.2 d (by simp))
      have val : c.2 = d.2 := by simpa [Memory.get, key] using hg c.1
      have tail : m = m' := ih ⟨hm, fun e he => h.2 e (by simp [he])⟩ ⟨hm', fun e he => h'.2 e (by simp [he])⟩
        fun k => by
          by_cases hk : c.1 = k
          · rw [Memory.get_of_lt fun e he => hk ▸ hc e he, Memory.get_of_lt fun e he => hk ▸ key ▸ hd e he]
          · simpa [Memory.get, hk, ← key] using hg k
      rw [tail, Prod.ext key val]

/-- The keys of two bytes differ where the bytes do. -/
theorem cellKey_inj {k off k' off' : Nat} (h : off < 2 ^ 32) (h' : off' < 2 ^ 32)
    (he : cellKey k off = cellKey k' off') : k = k' ∧ off = off' := by
  unfold cellKey at he; omega

theorem cellKey_div {k off : Nat} (h : off < 2 ^ 32) : cellKey k off / 2 ^ 32 = k := by
  unfold cellKey; omega

theorem cellKey_mod {k off : Nat} (h : off < 2 ^ 32) : cellKey k off % 2 ^ 32 = off := by
  unfold cellKey; omega

/-- What an unlisted byte of a region's buffer reads as. -/
theorem initialByte_cellKey {regions : List Region} {k off : Nat} {r : Region} (h : off < 2 ^ 32)
    (hr : regions[k]? = some r) : initialByte regions (cellKey k off) = bufferInit r off := by
  simp only [initialByte, cellKey_div h, cellKey_mod h, hr]

end Sys2Proof.Machine
end

