-- ==== Sys2Proof/Laws/AddressSpace.lean ====
section
/-! SUPPORT. What the resolver can answer (20_memory.md rules R35 to R39). -/

namespace Sys2Proof.Machine

theorem covers_iff (r : Region) (a : Addr) :
    covers r a = true ↔ r.start.toNat ≤ a.toNat ∧ a.toNat < r.start.toNat + r.size := by
  simp [covers]

/-- A match is a region of the list, at its place, that covers the address and supports the intent. -/
theorem firstMatch_sound {a : Addr} {intent : Intent} {regions : List Region} {n k : Nat} {r : Region}
    (h : firstMatch a intent n regions = some (k, r)) :
    n ≤ k ∧ regions[k - n]? = some r ∧ covers r a = true ∧ supports r.kind intent = true := by
  induction regions generalizing n with
  | nil => simp [firstMatch] at h
  | cons r' rest ih =>
    unfold firstMatch at h
    split at h
    · next hc => cases h; simpa using hc
    · obtain ⟨hn, hr, hcs⟩ := ih h
      refine ⟨by omega, ?_, hcs⟩
      rw [show k - n = (k - (n + 1)) + 1 by omega, List.getElem?_cons_succ]; exact hr

/-- A target is where some matching region, after any rebasing, lands the access. -/
theorem resolveFuel_target {regions : List Region} {intent : Intent} {fuel : Nat} {a : Addr} {t : Target}
    (h : resolveFuel regions intent fuel a = .target t) :
    ∃ a' k r, firstMatch a' intent 0 regions = some (k, r) ∧ landing k r a' = .inl (.target t) := by
  induction fuel generalizing a with
  | zero =>
    unfold resolveFuel at h
    split at h
    · cases h
    · next k r hm =>
      split at h
      · next res hl => exact ⟨a, k, r, hm, by rw [hl, h]⟩
      · cases h
  | succ fuel ih =>
    unfold resolveFuel at h
    split at h
    · cases h
    · next k r hm =>
      split at h
      · next res hl => exact ⟨a, k, r, hm, by rw [hl, h]⟩
      · exact ih h

/-- A Data target is a byte inside the buffer of a Data region whose kind supports the intent. -/
theorem resolve_data {regions : List Region} {intent : Intent} {a : Addr} {k off : Nat}
    (h : resolve regions a intent = .target (.data k off)) :
    ∃ r, regions[k]? = some r ∧ off < r.size ∧ off < 2 ^ 32 ∧
      ((∃ init, r.kind = .readWriteData init) ∨ (intent = .read ∧ ∃ init, r.kind = .readOnlyData init)) := by
  obtain ⟨a', k', r, hm, hl⟩ := resolveFuel_target h
  obtain ⟨-, hr, hc, hs⟩ := firstMatch_sound hm
  rw [covers_iff] at hc
  have hlt := a'.isLt
  unfold landing at hl
  cases hk : r.kind <;> rw [hk] at hl hs <;> simp at hl
  · obtain ⟨rfl, rfl⟩ := hl
    exact ⟨r, hr, by omega, by omega, .inl ⟨_, hk⟩⟩
  · obtain ⟨rfl, rfl⟩ := hl
    refine ⟨r, hr, by omega, by omega, .inr ⟨?_, _, hk⟩⟩
    cases intent with
    | read => rfl
    | write => simp [supports] at hs

/-- A byte that a write reaches lies in a ReadWriteData buffer (20_memory.md rule R41). -/
theorem resolve_write_inWritableBuffer {regions : List Region} {a : Addr} {k off : Nat}
    (h : resolve regions a .write = .target (.data k off)) :
    inWritableBuffer regions (cellKey k off) = true := by
  obtain ⟨r, hr, hoff, hlt, ⟨init, hk⟩ | ⟨hw, -⟩⟩ := resolve_data h
  · simp only [inWritableBuffer, cellKey_div hlt, cellKey_mod hlt, hr, hk, decide_eq_true_eq, hoff]
  · cases hw

/-- Every byte of a resolved access has its target. -/
theorem resolveAll_ok_iff {regions : List Region} {intent : Intent} {as : List Addr} {ts : List Target} :
    resolveAll regions intent as = .ok ts ↔
      List.Forall₂ (fun a t => resolve regions a intent = .target t) as ts := by
  induction as generalizing ts with
  | nil => cases ts <;> simp [resolveAll]
  | cons a as ih =>
    unfold resolveAll
    cases hr : resolve regions a intent with
    | noRegion => cases ts <;> simp [hr]
    | loop => cases ts <;> simp [hr]
    | target t =>
      cases ts with
      | nil => cases resolveAll regions intent as <;> simp
      | cons u us =>
        cases hall : resolveAll regions intent as with
        | error e =>
          have := ih (ts := us)
          simp [hall] at this
          simp [hr, this]
        | ok vs =>
          have := ih (ts := us)
          simp [hall] at this
          simp [hr, ← this]

/-- An access fails at its first byte, in access order, that has no target (20_memory.md rule R47). -/
theorem resolveAll_error {regions : List Region} {intent : Intent} {as : List Addr} {f : AccessFailure}
    (h : resolveAll regions intent as = .error f) :
    ∃ before a after, as = before ++ a :: after ∧
      (∀ b ∈ before, ∃ t, resolve regions b intent = .target t) ∧
      ((f = .unmapped a ∧ resolve regions a intent = .noRegion) ∨
        (f = .loop ∧ resolve regions a intent = .loop)) := by
  induction as with
  | nil => simp [resolveAll] at h
  | cons a as ih =>
    unfold resolveAll at h
    cases hr : resolve regions a intent with
    | noRegion => rw [hr] at h; cases h; exact ⟨[], a, as, rfl, by simp, .inl ⟨rfl, hr⟩⟩
    | loop => rw [hr] at h; cases h; exact ⟨[], a, as, rfl, by simp, .inr ⟨rfl, hr⟩⟩
    | target t =>
      rw [hr] at h
      cases hall : resolveAll regions intent as with
      | ok ts => simp [hall] at h
      | error e =>
        simp [hall] at h; subst h
        obtain ⟨before, b, after, rfl, hb, hf⟩ := ih hall
        refine ⟨a :: before, b, after, rfl, fun x hx => ?_, hf⟩
        rcases List.mem_cons.1 hx with rfl | hx
        · exact ⟨t, hr⟩
        · exact hb x hx

/-- The byte at place `i` of an access. -/
theorem accessAddrs_get (a : Addr) (n i : Nat) (h : i < (accessAddrs a n).length) :
    (accessAddrs a n)[i] = a + BitVec.ofNat 32 i := by
  simp [accessAddrs]

@[simp] theorem accessAddrs_length (a : Addr) (n : Nat) : (accessAddrs a n).length = n := by
  simp [accessAddrs]

end Sys2Proof.Machine
end

