-- ==== Sys2Proof/Laws/Registers.lean ====
section
/-! SUPPORT. Reading a register after an update (10_state.md rule R11). -/

namespace Sys2Proof.Machine

/-- Everything `putReg` can do: the entry it writes, unless it is r0's, and no other. -/
theorem putReg_get (regs : Vector Word 32) (i : RegIdx) (v : Word) (j : Nat) (hj : j < 32) :
    (putReg regs i v)[j] = if i.toNat = j ∧ i ≠ 0 then v else regs[j] := by
  by_cases hi : i = 0
  · have e : putReg regs i v = regs := if_pos hi
    have h : ¬ (i.toNat = j ∧ i ≠ 0) := fun h => h.2 hi
    simp only [e, if_neg h]
  · have e : putReg regs i v = regs.set i.toNat v i.isLt := if_neg hi
    have h : (i.toNat = j ∧ i ≠ 0) ↔ i.toNat = j := and_iff_left hi
    simp only [e, Vector.getElem_set, h]

/-- A register file keeps 0 for r0. -/
theorem putReg_zero (regs : Vector Word 32) (i : RegIdx) (v : Word) : (putReg regs i v)[0] = regs[0] := by
  rw [putReg_get, if_neg fun h => h.2 (BitVec.eq_of_toNat_eq h.1)]

/-- Reading a register of a state depends on its register file only. -/
theorem readReg_congr {s t : State} (h : t.regs = s.regs) (i : RegIdx) : t.readReg i = s.readReg i := by
  simp [State.readReg, h]

@[simp] theorem readReg_zero (s : State) : s.readReg 0#5 = 0#64 := rfl

@[simp] theorem readReg_enqueue (s : State) (e : Effect) (i : RegIdx) : (s.enqueue e).readReg i = s.readReg i := rfl
@[simp] theorem readReg_writeHi (s : State) (v : Word) (i : RegIdx) : (s.writeHi v).readReg i = s.readReg i := rfl
@[simp] theorem readReg_writeLo (s : State) (v : Word) (i : RegIdx) : (s.writeLo v).readReg i = s.readReg i := rfl
@[simp] theorem readReg_emit (s : State) (r : LogRecord) (i : RegIdx) : (s.emit r).readReg i = s.readReg i := rfl
@[simp] theorem readReg_halt (s : State) (d : Diagnostic) (i : RegIdx) : (s.halt d).readReg i = s.readReg i := rfl

/-- Everything a register write can do (10_state.md rule R11). -/
theorem readReg_writeReg (s : State) (i r : RegIdx) (v : Word) :
    (s.writeReg i v).readReg r = if r = i ∧ i ≠ 0 then v else s.readReg r := by
  unfold State.readReg
  by_cases hr : r = 0
  · rw [if_pos hr, if_pos hr, if_neg fun h => h.2 (h.1.symm.trans hr)]
  · rw [if_neg hr, if_neg hr]
    simp only [State.writeReg_regs, putReg_get]
    exact if_congr (and_congr_left fun _ => ⟨fun e => BitVec.eq_of_toNat_eq e.symm, fun e => by rw [e]⟩) rfl rfl

theorem registerWritten_writeReg (s : State) (i : RegIdx) (v : Word) :
    RegisterWritten s (s.writeReg i v) i v := fun r => readReg_writeReg s i r v

/-- Memory is read the same in a state with the same regions and the same cells. -/
theorem memoryKept_of_eq {s t : State} (hr : t.regions = s.regions) (hm : t.mem = s.mem) : MemoryKept s t := by
  have hb : ∀ k off, t.bufferByte k off = s.bufferByte k off := fun k off => by
    simp [State.bufferByte, hr, hm]
  exact ⟨hb, fun a => by simp [State.peek, hr, hb]⟩

theorem registersKept_of_eq {s t : State} (h : t.regs = s.regs) : RegistersKept s t :=
  fun r => readReg_congr h r

theorem writesOnlyRegister_writeReg (s : State) (i : RegIdx) (v : Word) :
    WritesOnlyRegister s (s.writeReg i v) i v :=
  ⟨registerWritten_writeReg s i v, rfl, memoryKept_of_eq rfl rfl⟩

end Sys2Proof.Machine
end

