-- ==== Sys2Proof/Laws/Access.lean ====
section
/-! SUPPORT. What reading and writing resolved targets can do to the state (20_memory.md rules R40 to R47): one lemma
per shared operation. -/

namespace Sys2Proof.Machine

/-- All that reads of targets can change: the log, the device calls and the draw counter. -/
def ReadsOnly (s t : State) : Prop :=
  t = { s with log := t.log, deviceLog := t.deviceLog, draws := t.draws }

theorem ReadsOnly.trans {s t u : State} (h : ReadsOnly s t) (h' : ReadsOnly t u) : ReadsOnly s u := by
  unfold ReadsOnly at *; rw [h', h]

theorem readTarget_readsOnly (s : State) (t : Target) : ReadsOnly s (s.readTarget t).2 := by
  cases t <;> rfl

/-- Reads of targets change the outputs and the draw counter only. -/
theorem readTargets_readsOnly (s : State) (ts : List Target) : ReadsOnly s (s.readTargets ts).2 := by
  induction ts generalizing s with
  | nil => rfl
  | cons t ts ih => exact (readTarget_readsOnly s t).trans (ih _)

/-- What a read of one target gives and changes when it is no device's. -/
theorem readTargets_length (s : State) (ts : List Target) : (s.readTargets ts).1.length = ts.length := by
  induction ts generalizing s with
  | nil => rfl
  | cons t ts ih => simp [State.readTargets, ih]

/-- Reads put their own records on the log, their own calls to the devices, and draw once for each of these. -/
theorem readTargets_outputs (s : State) (ts : List Target) :
    (s.readTargets ts).2 = { s with
      log := s.log ++ dummyTargetReads ts, deviceLog := s.deviceLog ++ deviceReads ts,
      draws := s.draws + (deviceReads ts).length } := by
  induction ts generalizing s with
  | nil => simp [State.readTargets, dummyTargetReads, deviceReads]
  | cons t ts ih =>
    refine (ih (s.readTarget t).2).trans ?_
    cases t with
    | data k off => rfl
    | dummy a => simp [State.readTarget, State.emit, dummyTargetReads, deviceReads]
    | device k off =>
      simp [State.readTarget, State.callDevice, dummyTargetReads, deviceReads, Nat.add_assoc, Nat.add_comm 1]

/-- The byte that reads find at a target, whatever targets stand before and after it. -/
theorem readTargets_byte (s : State) (before : List Target) (t : Target) (after : List Target) :
    (s.readTargets (before ++ t :: after)).1[before.length]? = some (byteRead s before t) := by
  induction before generalizing s with
  | nil => cases t <;> rfl
  | cons u before ih =>
    refine (ih (s.readTarget u).2).trans ?_
    cases u <;> cases t <;>
      simp [State.readTarget, State.emit, State.callDevice, byteRead, deviceReads, State.bufferByte,
        Nat.add_assoc, Nat.add_comm 1]

/-- The outputs of a state extend those of another. -/
def OutputsExtend (s t : State) : Prop :=
  (∃ l, t.log = s.log ++ l) ∧ ∃ e, t.deviceLog = s.deviceLog ++ e

theorem OutputsExtend.refl (s : State) : OutputsExtend s s := ⟨⟨[], by simp⟩, ⟨[], by simp⟩⟩

theorem OutputsExtend.trans {s t u : State} (h : OutputsExtend s t) (h' : OutputsExtend t u) :
    OutputsExtend s u := by
  obtain ⟨⟨l, hl⟩, ⟨e, he⟩⟩ := h
  obtain ⟨⟨l', hl'⟩, ⟨e', he'⟩⟩ := h'
  exact ⟨⟨l ++ l', by simp [hl', hl]⟩, ⟨e ++ e', by simp [he', he]⟩⟩

theorem readTargets_outputsExtend (s : State) (ts : List Target) : OutputsExtend s (s.readTargets ts).2 := by
  induction ts generalizing s with
  | nil => exact .refl s
  | cons t ts ih =>
    refine OutputsExtend.trans ?_ (ih _)
    cases t with
    | data k off => exact .refl s
    | dummy a => exact ⟨⟨[.dummyRead a], rfl⟩, ⟨[], (List.append_nil _).symm⟩⟩
    | device k off => exact ⟨⟨[], (List.append_nil _).symm⟩, ⟨[.read k off], rfl⟩⟩

/-- Everything `memRead` can answer. -/
theorem memRead_cases (s : State) (a : Addr) (n : Nat) :
    (∃ ts, resolveAll s.regions .read (accessAddrs a n) = .ok ts ∧ s.memRead a n = .ok (s.readTargets ts)) ∨
    (∃ f, resolveAll s.regions .read (accessAddrs a n) = .error f ∧ s.memRead a n = .error f) := by
  unfold State.memRead
  cases resolveAll s.regions .read (accessAddrs a n) with
  | ok ts => exact .inl ⟨ts, rfl, rfl⟩
  | error f => exact .inr ⟨f, rfl, rfl⟩

/-- Everything `memWrite` can answer. -/
theorem memWrite_cases (s : State) (a : Addr) (n : Nat) (v : Word) :
    (∃ ts, resolveAll s.regions .write (accessAddrs a n) = .ok ts ∧
      s.memWrite a n v = .ok (s.writeTargets (ts.zip (bytesOf n v)))) ∨
    (∃ f, resolveAll s.regions .write (accessAddrs a n) = .error f ∧ s.memWrite a n v = .error f) := by
  unfold State.memWrite
  cases resolveAll s.regions .write (accessAddrs a n) with
  | ok ts => exact .inl ⟨ts, rfl, rfl⟩
  | error f => exact .inr ⟨f, rfl, rfl⟩

/-- All that writes to targets can change: memory, the log and the device calls. -/
def WritesOnly (s t : State) : Prop :=
  t = { s with mem := t.mem, log := t.log, deviceLog := t.deviceLog }

theorem WritesOnly.trans {s t u : State} (h : WritesOnly s t) (h' : WritesOnly t u) : WritesOnly s u := by
  unfold WritesOnly at *; rw [h', h]

theorem WritesOnly.regions {s t : State} (h : WritesOnly s t) : t.regions = s.regions := by rw [h]

theorem writeTarget_writesOnly (s : State) (t : Target) (b : Byte) : WritesOnly s (s.writeTarget t b) := by
  cases t <;> rfl

theorem writeTargets_writesOnly (s : State) (ws : List (Target × Byte)) : WritesOnly s (s.writeTargets ws) := by
  induction ws generalizing s with
  | nil => rfl
  | cons w ws ih => exact (writeTarget_writesOnly s w.1 w.2).trans (ih _)

theorem writeTargets_outputsExtend (s : State) (ws : List (Target × Byte)) :
    OutputsExtend s (s.writeTargets ws) := by
  induction ws generalizing s with
  | nil => exact .refl s
  | cons w ws ih =>
    obtain ⟨t, b⟩ := w
    refine OutputsExtend.trans ?_ (ih _)
    cases t with
    | data k off => exact ⟨⟨[], by simp [State.writeTarget]⟩, ⟨[], by simp [State.writeTarget]⟩⟩
    | dummy a => exact ⟨⟨[.dummyWrite a b], rfl⟩, ⟨[], by simp [State.writeTarget]⟩⟩
    | device k off => exact ⟨⟨[], by simp [State.writeTarget]⟩, ⟨[.write k off b], rfl⟩⟩

/-- Writing one byte leaves every other byte of a buffer as it was. -/
theorem bufferByte_setBufferByte_other {s : State} {k off k' off' : Nat} (b : Byte) (h : off < 2 ^ 32)
    (h' : off' < 2 ^ 32) (hne : ¬ (k' = k ∧ off' = off)) :
    (s.setBufferByte k off b).bufferByte k' off' = s.bufferByte k' off' :=
  Memory.get_set_other b s.mem fun e => hne (cellKey_inj h' h e)

/-- Writing one byte, in canonical memory, puts it there. -/
theorem bufferByte_setBufferByte_same {s : State} (k off : Nat) (b : Byte) (h : s.memoryCanonical = true) :
    (s.setBufferByte k off b).bufferByte k off = b :=
  Memory.get_set_same _ b ((Memory.wf_iff _).1 h).1

/-- A byte write keeps memory canonical. -/
theorem writeTarget_memoryCanonical {s : State} (t : Target) (b : Byte) (h : s.memoryCanonical = true) :
    (s.writeTarget t b).memoryCanonical = true := by
  cases t with
  | data k off => exact Memory.wf_set _ b h
  | dummy a => exact h
  | device k off => exact h

/-- Writes keep memory canonical. -/
theorem writeTargets_memoryCanonical {s : State} (ws : List (Target × Byte)) (h : s.memoryCanonical = true) :
    (s.writeTargets ws).memoryCanonical = true := by
  induction ws generalizing s with
  | nil => exact h
  | cons w ws ih => exact ih (writeTarget_memoryCanonical w.1 w.2 h)

/-- Writes leave every byte of a buffer that none of them targets as it was. -/
theorem bufferByte_writeTargets_other {s : State} {ws : List (Target × Byte)} {k off : Nat} (hoff : off < 2 ^ 32)
    (hb : ∀ w ∈ ws, ∀ k' off', w.1 = .data k' off' → off' < 2 ^ 32) (hne : ∀ w ∈ ws, w.1 ≠ .data k off) :
    (s.writeTargets ws).bufferByte k off = s.bufferByte k off := by
  induction ws generalizing s with
  | nil => rfl
  | cons w ws ih =>
    obtain ⟨t, b⟩ := w
    refine (ih (fun w hw => hb w (by simp [hw])) fun w hw => hne w (by simp [hw])).trans ?_
    cases t with
    | data k' off' =>
      refine bufferByte_setBufferByte_other b (hb _ List.mem_cons_self _ _ rfl) hoff ?_
      rintro ⟨rfl, rfl⟩
      exact hne _ List.mem_cons_self rfl
    | dummy a => rfl
    | device k' off' => rfl

/-- Writes put in a byte of a buffer what the last of them that targets it carries. -/
theorem bufferByte_writeTargets_last {s : State} {before after : List (Target × Byte)} {k off : Nat} {b : Byte}
    (hc : s.memoryCanonical = true) (hoff : off < 2 ^ 32)
    (hb : ∀ w ∈ after, ∀ k' off', w.1 = .data k' off' → off' < 2 ^ 32) (hne : ∀ w ∈ after, w.1 ≠ .data k off) :
    (s.writeTargets (before ++ (.data k off, b) :: after)).bufferByte k off = b := by
  induction before generalizing s with
  | nil =>
    exact (bufferByte_writeTargets_other hoff hb hne).trans (bufferByte_setBufferByte_same k off b hc)
  | cons w before ih => exact ih (writeTarget_memoryCanonical w.1 w.2 hc)

/-- Writes put their own records on the log and their own calls to the devices, in order. -/
theorem writeTargets_outputs (s : State) (ws : List (Target × Byte)) :
    s.writeTargets ws = { s with
      mem := (s.writeTargets ws).mem, log := s.log ++ dummyWrites ws, deviceLog := s.deviceLog ++ deviceWrites ws } := by
  induction ws generalizing s with
  | nil => simp [State.writeTargets, dummyWrites, deviceWrites]
  | cons w ws ih =>
    obtain ⟨t, b⟩ := w
    have h := ih (s.writeTarget t b)
    cases t with
    | data k off => exact h
    | dummy a =>
      refine h.trans ?_
      simp [State.writeTargets, State.writeTarget, State.emit, dummyWrites, deviceWrites]
    | device k off =>
      refine h.trans ?_
      simp [State.writeTargets, State.writeTarget, State.callDevice, dummyWrites, deviceWrites]

/-- An address whose read lands on no written target reads as before. -/
theorem peek_writeTargets_other {s : State} {ws : List (Target × Byte)} {a : Addr}
    (hb : ∀ w ∈ ws, ∀ k off, w.1 = .data k off → off < 2 ^ 32)
    (hne : ∀ w ∈ ws, resolve s.regions a .read ≠ .target w.1) : (s.writeTargets ws).peek a = s.peek a := by
  unfold State.peek
  rw [(writeTargets_writesOnly s ws).regions]
  split
  · next k off hr =>
    obtain ⟨-, -, -, hoff, -⟩ := resolve_data hr
    rw [bufferByte_writeTargets_other hoff hb fun w hw hwt => hne w hw (hwt ▸ hr)]
  · rfl
  · rfl

/-- The offsets that an access's Data targets name are below 2^32. -/
theorem resolveAll_data_lt {regions : List Region} {intent : Intent} {as : List Addr} {ts : List Target}
    (h : resolveAll regions intent as = .ok ts) {k off : Nat} (ht : .data k off ∈ ts) : off < 2 ^ 32 := by
  rw [resolveAll_ok_iff] at h
  induction h with
  | nil => cases ht
  | cons hr _ ih =>
    rcases List.mem_cons.1 ht with rfl | ht
    · obtain ⟨-, -, -, hoff, -⟩ := resolve_data hr
      exact hoff
    · exact ih ht

/-! ### Reading where `peek` finds every byte -/

/-- What a byte that `peek` finds is read as, with the log record of a Dummy. -/
theorem peek_some {s : State} {a : Addr} {b : Byte} (h : s.peek a = some b) :
    ∃ t, resolve s.regions a .read = .target t ∧
      s.readTarget t = (b, { s with log := s.log ++ dummyReads s.regions [a] }) := by
  unfold State.peek at h
  split at h
  · next k off hr =>
    refine ⟨_, hr, ?_⟩
    simp [State.readTarget, dummyReads, hr] at *
    exact h
  · next d hr =>
    refine ⟨_, hr, ?_⟩
    simp at h
    simp [State.readTarget, dummyReads, hr, State.emit, h]
  · cases h

theorem dummyReads_cons (regions : List Region) (a : Addr) (as : List Addr) :
    dummyReads regions (a :: as) = dummyReads regions [a] ++ dummyReads regions as := by
  unfold dummyReads
  exact List.filterMap_append (l := [a])

/-- A readable access has targets, and reading them gives its bytes and the log records of its Dummy bytes. -/
theorem readTargets_of_peek {as : List Addr} {bytes : List Byte} {s : State}
    (h : as.map s.peek = bytes.map some) :
    ∃ ts, resolveAll s.regions .read as = .ok ts ∧
      s.readTargets ts = (bytes, { s with log := s.log ++ dummyReads s.regions as }) := by
  induction as generalizing s bytes with
  | nil =>
    cases bytes with
    | nil => exact ⟨[], rfl, by simp [State.readTargets, dummyReads]⟩
    | cons b bs => cases h
  | cons a as ih =>
    cases bytes with
    | nil => cases h
    | cons b bs =>
      rw [List.map_cons, List.map_cons, List.cons.injEq] at h
      obtain ⟨t, ht, hr⟩ := peek_some h.1
      obtain ⟨ts, hts, hrs⟩ := ih (s := { s with log := s.log ++ dummyReads s.regions [a] }) (bytes := bs) h.2
      refine ⟨t :: ts, ?_, ?_⟩
      · simp only [resolveAll, ht]
        simp only at hts
        rw [hts]
      · dsimp only at hrs
        simp only [State.readTargets, hr]
        rw [hrs, dummyReads_cons s.regions a as, List.append_assoc]

theorem memRead_of_readable {s : State} {a : Addr} {bytes : List Byte} (h : Readable s a bytes) :
    s.memRead a bytes.length =
      .ok (bytes, { s with log := s.log ++ dummyReads s.regions (accessAddrs a bytes.length) }) := by
  obtain ⟨ts, hts, hr⟩ := readTargets_of_peek h
  unfold State.memRead
  rw [hts]
  exact congrArg Except.ok hr

/-! ### Memory at construction -/

/-- At construction every byte of a buffer is its initial byte (70_reset_and_hazards.md rule R246). -/
theorem bufferByte_initial {p : Params} {k off : Nat} {r : Region} (h : off < 2 ^ 32) (hr : p.regions[k]? = some r) :
    (State.initial p).bufferByte k off = bufferInit r off :=
  initialByte_cellKey h hr

/-- What `peek` finds at construction where an address resolves to a buffer. -/
theorem peek_initial {p : Params} {a : Addr} {k off : Nat} {r : Region}
    (ha : resolve p.regions a .read = .target (.data k off)) (hr : p.regions[k]? = some r) :
    (State.initial p).peek a = some (bufferInit r off) := by
  obtain ⟨-, -, -, hlt, -⟩ := resolve_data ha
  unfold State.peek
  rw [show (State.initial p).regions = p.regions from rfl, ha]
  exact congrArg some (bufferByte_initial hlt hr)

end Sys2Proof.Machine
end

