-- ==== Sys2Proof/Laws/Handlers.lean ====
section
/-! SUPPORT. What a handler can do, said once over all instructions (40_dispatch_step.md rule R91): every law about
`exec` follows from `exec_cases` and `exec_effect`. -/

namespace Sys2Proof.Machine

/-- MULT, MULTU, DIV, DIVU, MTHI, MTLO. -/
def writesHiLo (i : Instr) : Prop :=
  (∃ rs rt ign, i = .mult rs rt ign ∨ i = .multu rs rt ign ∨ i = .div rs rt ign ∨ i = .divu rs rt ign) ∨
  (∃ rs ign, i = .mthi rs ign ∨ i = .mtlo rs ign)

/-- The next states a handler can answer. -/
inductive HandlerEffect (i : Instr) (s : State) : State → Prop
  | register (rd : RegIdx) (v : Word) (hct : i.isControlTransfer = false) : HandlerEffect i s (s.writeReg rd v)
  | accumulators (hi lo : Word) (draws : Nat) (hct : i.isControlTransfer = false) (hw : writesHiLo i) :
      HandlerEffect i s { s with hi := hi, lo := lo, draws := draws }
  | schedule (e : Effect) (rd : RegIdx) (v : Word) (hct : i.isControlTransfer = true) :
      HandlerEffect i s ((s.writeReg rd v).enqueue e)
  | log (hct : i.isControlTransfer = false) :
      HandlerEffect i s (s.emit (.unimplementedInstruction (encode i) s.pc))
  | load (rs rt : RegIdx) (imm : BitVec 16) (n : Nat) (ts : List Target) (v : Word) (hi : isLoad i n rs rt imm)
      (hct : i.isControlTransfer = false)
      (hts : resolveAll s.regions .read (accessAddrs (effectiveAddr (s.readReg rs) imm) n) = .ok ts) :
      HandlerEffect i s ((s.readTargets ts).2.writeReg rt v)
  | store (rs rt : RegIdx) (imm : BitVec 16) (n : Nat) (ts : List Target) (hi : isStore i n rs rt imm)
      (hct : i.isControlTransfer = false)
      (hts : resolveAll s.regions .write (accessAddrs (effectiveAddr (s.readReg rs) imm) n) = .ok ts) :
      HandlerEffect i s (s.writeTargets (ts.zip (bytesOf n (s.readReg rt))))
  | unmapped (rs rt : RegIdx) (imm : BitVec 16) (n : Nat) (intent : Intent) (a : Addr)
      (hi : (intent = .read ∧ isLoad i n rs rt imm) ∨ (intent = .write ∧ isStore i n rs rt imm))
      (hct : i.isControlTransfer = false)
      (ha : resolveAll s.regions intent (accessAddrs (effectiveAddr (s.readReg rs) imm) n) = .error (.unmapped a)) :
      HandlerEffect i s (s.halt (.unmappedAddress (some (encode i)) s.pc a))

/-- A write to r0 changes nothing. -/
theorem writeReg_zero (s : State) (v : Word) : s.writeReg 0 v = s := rfl

/-- Everything a load can answer (47_loads_stores.md rule R180). -/
theorem loadOp_cases (i : Instr) (n : Nat) (ext : List Byte → Word) (rs rt : RegIdx) (imm : BitVec 16) (s : State)
    (hi : isLoad i n rs rt imm) (hct : i.isControlTransfer = false) :
    (∃ t, loadOp (encode i) n ext rs rt imm s = .next t ∧ HandlerEffect i s t) ∨
    (loadOp (encode i) n ext rs rt imm s = .fault .mirrorLoop ∧
      ∃ a, resolveAll s.regions .read (accessAddrs a n) = .error .loop) := by
  unfold loadOp
  rcases memRead_cases s (effectiveAddr (s.readReg rs) imm) n with ⟨ts, hts, hr⟩ | ⟨f, hf, hr⟩ <;> rw [hr]
  · exact .inl ⟨_, rfl, .load rs rt imm n ts _ hi hct hts⟩
  · cases f with
    | unmapped a => exact .inl ⟨_, rfl, .unmapped rs rt imm n .read a (.inl ⟨rfl, hi⟩) hct hf⟩
    | loop => exact .inr ⟨rfl, _, hf⟩

/-- Everything a store can answer (47_loads_stores.md rule R180). -/
theorem storeOp_cases (i : Instr) (n : Nat) (rs rt : RegIdx) (imm : BitVec 16) (s : State)
    (hi : isStore i n rs rt imm) (hct : i.isControlTransfer = false) :
    (∃ t, storeOp (encode i) n rs rt imm s = .next t ∧ HandlerEffect i s t) ∨
    (storeOp (encode i) n rs rt imm s = .fault .mirrorLoop ∧
      ∃ a, resolveAll s.regions .write (accessAddrs a n) = .error .loop) := by
  unfold storeOp
  rcases memWrite_cases s (effectiveAddr (s.readReg rs) imm) n (s.readReg rt) with ⟨ts, hts, hr⟩ | ⟨f, hf, hr⟩ <;>
    rw [hr]
  · exact .inl ⟨_, rfl, .store rs rt imm n ts hi hct hts⟩
  · cases f with
    | unmapped a => exact .inl ⟨_, rfl, .unmapped rs rt imm n .write a (.inr ⟨rfl, hi⟩) hct hf⟩
    | loop => exact .inr ⟨rfl, _, hf⟩

/-- A handler answers a next state with one of the effects above, or the resolver is stuck: it never refuses. -/
theorem exec_cases (i : Instr) (s : State) :
    (∃ t, exec i s = .next t ∧ HandlerEffect i s t) ∨
    (exec i s = .fault .mirrorLoop ∧
      ∃ intent a n, resolveAll s.regions intent (accessAddrs a n) = .error .loop) := by
  have load (n : Nat) (ext : List Byte → Word) (rs rt : RegIdx) (imm : BitVec 16) (hi : isLoad i n rs rt imm)
      (hct : i.isControlTransfer = false) (he : exec i s = loadOp (encode i) n ext rs rt imm s) :
        (∃ t, exec i s = .next t ∧ HandlerEffect i s t) ∨
        (exec i s = .fault .mirrorLoop ∧
          ∃ intent a n, resolveAll s.regions intent (accessAddrs a n) = .error .loop) := by
    have h := loadOp_cases i n ext rs rt imm s hi hct
    rw [← he] at h
    exact h.imp id fun ⟨hf, a, ha⟩ => ⟨hf, .read, a, n, ha⟩
  have store (n : Nat) (rs rt : RegIdx) (imm : BitVec 16) (hi : isStore i n rs rt imm)
      (hct : i.isControlTransfer = false) (he : exec i s = storeOp (encode i) n rs rt imm s) :
        (∃ t, exec i s = .next t ∧ HandlerEffect i s t) ∨
        (exec i s = .fault .mirrorLoop ∧
          ∃ intent a n, resolveAll s.regions intent (accessAddrs a n) = .error .loop) := by
    have h := storeOp_cases i n rs rt imm s hi hct
    rw [← he] at h
    exact h.imp id fun ⟨hf, a, ha⟩ => ⟨hf, .write, a, n, ha⟩
  cases i with
  | sll rs rt rd sa => exact .inl ⟨_, rfl, .register _ _ rfl⟩
  | srl rs rt rd sa => exact .inl ⟨_, rfl, .register _ _ rfl⟩
  | sra rs rt rd sa => exact .inl ⟨_, rfl, .register _ _ rfl⟩
  | sllv rs rt rd sa => exact .inl ⟨_, rfl, .register _ _ rfl⟩
  | srlv rs rt rd sa => exact .inl ⟨_, rfl, .register _ _ rfl⟩
  | srav rs rt rd sa => exact .inl ⟨_, rfl, .register _ _ rfl⟩
  | jr rs ign => exact .inl ⟨_, rfl, .schedule _ 0 0 rfl⟩
  | jalr rs a rd b => exact .inl ⟨_, rfl, .schedule _ rd _ rfl⟩
  | syscall code => exact .inl ⟨_, rfl, .log rfl⟩
  | brk code => exact .inl ⟨_, rfl, .log rfl⟩
  | mfhi a rd b => exact .inl ⟨_, rfl, .register _ _ rfl⟩
  | mthi rs ign => exact .inl ⟨_, rfl, .accumulators _ _ s.draws rfl (.inr ⟨_, _, .inl rfl⟩)⟩
  | mflo a rd b => exact .inl ⟨_, rfl, .register _ _ rfl⟩
  | mtlo rs ign => exact .inl ⟨_, rfl, .accumulators _ _ s.draws rfl (.inr ⟨_, _, .inr rfl⟩)⟩
  | mult rs rt ign => exact .inl ⟨_, rfl, .accumulators _ _ s.draws rfl (.inl ⟨_, _, _, .inl rfl⟩)⟩
  | multu rs rt ign => exact .inl ⟨_, rfl, .accumulators _ _ s.draws rfl (.inl ⟨_, _, _, .inr (.inl rfl)⟩)⟩
  | div rs rt ign =>
    refine .inl ?_
    simp only [exec, execDiv]
    split
    · exact ⟨_, rfl, .accumulators _ _ _ rfl (.inl ⟨_, _, _, .inr (.inr (.inl rfl))⟩)⟩
    · exact ⟨_, rfl, .accumulators _ _ s.draws rfl (.inl ⟨_, _, _, .inr (.inr (.inl rfl))⟩)⟩
  | divu rs rt ign =>
    refine .inl ?_
    simp only [exec, execDivu]
    split
    · exact ⟨_, rfl, .accumulators _ _ _ rfl (.inl ⟨_, _, _, .inr (.inr (.inr rfl))⟩)⟩
    · exact ⟨_, rfl, .accumulators _ _ s.draws rfl (.inl ⟨_, _, _, .inr (.inr (.inr rfl))⟩)⟩
  | add rs rt rd sa => exact .inl ⟨_, rfl, .register _ _ rfl⟩
  | addu rs rt rd sa => exact .inl ⟨_, rfl, .register _ _ rfl⟩
  | sub rs rt rd sa => exact .inl ⟨_, rfl, .register _ _ rfl⟩
  | subu rs rt rd sa => exact .inl ⟨_, rfl, .register _ _ rfl⟩
  | and rs rt rd sa => exact .inl ⟨_, rfl, .register _ _ rfl⟩
  | or rs rt rd sa => exact .inl ⟨_, rfl, .register _ _ rfl⟩
  | xor rs rt rd sa => exact .inl ⟨_, rfl, .register _ _ rfl⟩
  | nor rs rt rd sa => exact .inl ⟨_, rfl, .register _ _ rfl⟩
  | slt rs rt rd sa => exact .inl ⟨_, rfl, .register _ _ rfl⟩
  | sltu rs rt rd sa => exact .inl ⟨_, rfl, .register _ _ rfl⟩
  | bltz rs imm => exact .inl ⟨_, rfl, .schedule _ 0 0 rfl⟩
  | bgez rs imm => exact .inl ⟨_, rfl, .schedule _ 0 0 rfl⟩
  | bltzl rs imm => exact .inl ⟨_, rfl, .schedule _ 0 0 rfl⟩
  | bgezl rs imm => exact .inl ⟨_, rfl, .schedule _ 0 0 rfl⟩
  | bltzal rs imm => exact .inl ⟨_, rfl, .schedule _ linkIndex _ rfl⟩
  | bgezal rs imm => exact .inl ⟨_, rfl, .schedule _ linkIndex _ rfl⟩
  | bltzall rs imm => exact .inl ⟨_, rfl, .schedule _ linkIndex _ rfl⟩
  | bgezall rs imm => exact .inl ⟨_, rfl, .schedule _ linkIndex _ rfl⟩
  | j target => exact .inl ⟨_, rfl, .schedule _ 0 0 rfl⟩
  | jal target => exact .inl ⟨_, rfl, .schedule _ linkIndex _ rfl⟩
  | beq rs rt imm => exact .inl ⟨_, rfl, .schedule _ 0 0 rfl⟩
  | bne rs rt imm => exact .inl ⟨_, rfl, .schedule _ 0 0 rfl⟩
  | blez rs rt imm => exact .inl ⟨_, rfl, .schedule _ 0 0 rfl⟩
  | bgtz rs rt imm => exact .inl ⟨_, rfl, .schedule _ 0 0 rfl⟩
  | addi rs rt imm => exact .inl ⟨_, rfl, .register _ _ rfl⟩
  | mfc0 rt rd ign => exact .inl ⟨_, rfl, .log rfl⟩
  | mtc0 rt rd ign => exact .inl ⟨_, rfl, .log rfl⟩
  | beql rs rt imm => exact .inl ⟨_, rfl, .schedule _ 0 0 rfl⟩
  | bnel rs rt imm => exact .inl ⟨_, rfl, .schedule _ 0 0 rfl⟩
  | blezl rs rt imm => exact .inl ⟨_, rfl, .schedule _ 0 0 rfl⟩
  | bgtzl rs rt imm => exact .inl ⟨_, rfl, .schedule _ 0 0 rfl⟩
  | lb rs rt imm => exact load 1 loadSign rs rt imm (by simp [isLoad]) rfl rfl
  | lh rs rt imm => exact load 2 loadSign rs rt imm (by simp [isLoad]) rfl rfl
  | lwl rs rt imm => exact .inl ⟨_, rfl, .log rfl⟩
  | lw rs rt imm => exact load 4 loadSign rs rt imm (by simp [isLoad]) rfl rfl
  | lbu rs rt imm => exact load 1 loadZero rs rt imm (by simp [isLoad]) rfl rfl
  | lhu rs rt imm => exact load 2 loadZero rs rt imm (by simp [isLoad]) rfl rfl
  | lwr rs rt imm => exact .inl ⟨_, rfl, .log rfl⟩
  | lwu rs rt imm => exact load 4 loadZero rs rt imm (by simp [isLoad]) rfl rfl
  | sb rs rt imm => exact store 1 rs rt imm (by simp [isStore]) rfl rfl
  | sh rs rt imm => exact store 2 rs rt imm (by simp [isStore]) rfl rfl
  | swl rs rt imm => exact .inl ⟨_, rfl, .log rfl⟩
  | sw rs rt imm => exact store 4 rs rt imm (by simp [isStore]) rfl rfl
  | swr rs rt imm => exact .inl ⟨_, rfl, .log rfl⟩
  | cache rs rt imm => exact .inl ⟨_, rfl, .log rfl⟩

/-- Everything a handler's next state can be. -/
theorem exec_effect {i : Instr} {s t : State} (h : exec i s = .next t) : HandlerEffect i s t := by
  rcases exec_cases i s with ⟨t', ht, he⟩ | ⟨hf, -⟩
  · rw [h] at ht; cases ht; exact he
  · rw [h] at hf; cases hf

end Sys2Proof.Machine
end

