-- ==== Sys2Proof/Laws/Driver.lean ====
section
/-! SUPPORT. What a step can do, said once (40_dispatch_step.md rules R84, R92). -/

namespace Sys2Proof.Machine

theorem isStepping_iff (s : State) : s.isStepping = true ↔ Stepping s := by
  simp [State.isStepping, Stepping, and_comm]

/-- A halted or paused block holds its state. -/
theorem step_of_not_stepping {s : State} (h : ¬ Stepping s) : step s = .next s := by
  rw [← isStepping_iff] at h
  simp [step, drive, h]

/-- A step of a running block is the fetch, then the decoder's verdict or the issue of the instruction. -/
theorem step_of_stepping {s : State} (h : Stepping s) : step s =
    match s.fetch with
    | .error f => s.failAccess none f
    | .ok (word, s') =>
      match decode word with
      | .error _ => .next (s'.halt (.decodeError word s.pc))
      | .ok i => s'.issue exec word i := by
  rw [← isStepping_iff] at h
  exact if_pos h

/-- Everything the fetch can answer. -/
theorem fetch_cases (s : State) :
    (∃ ts, resolveAll s.regions .read (accessAddrs s.pc 4) = .ok ts ∧
      s.fetch = .ok (BitVec.ofNat 32 (bigEndian (s.readTargets ts).1), (s.readTargets ts).2)) ∨
    (∃ f, resolveAll s.regions .read (accessAddrs s.pc 4) = .error f ∧ s.fetch = .error f) := by
  unfold State.fetch
  rcases memRead_cases s s.pc 4 with ⟨ts, hts, hr⟩ | ⟨f, hf, hr⟩ <;> rw [hr]
  · exact .inl ⟨ts, hts, rfl⟩
  · exact .inr ⟨f, hf, rfl⟩

/-- The fetch changes the outputs and the draw counter only. -/
theorem fetch_readsOnly {s s1 : State} {w : InstrWord} (h : s.fetch = .ok (w, s1)) : ReadsOnly s s1 := by
  rcases fetch_cases s with ⟨ts, -, hf⟩ | ⟨f, -, hf⟩ <;> rw [hf] at h <;> cases h
  exact readTargets_readsOnly s ts

theorem fetch_outputsExtend {s s1 : State} {w : InstrWord} (h : s.fetch = .ok (w, s1)) : OutputsExtend s s1 := by
  rcases fetch_cases s with ⟨ts, -, hf⟩ | ⟨f, -, hf⟩ <;> rw [hf] at h <;> cases h
  exact readTargets_outputsExtend s ts

/-- The ends of a step from a running block: each next state with how it came about. -/
inductive StepEnd (s : State) : State → Prop
  | unmappedFetch (a : Addr) (ha : resolveAll s.regions .read (accessAddrs s.pc 4) = .error (.unmapped a)) :
      StepEnd s (s.halt (.unmappedAddress none s.pc a))
  | decodeError (w : InstrWord) (s1 : State) (hf : s.fetch = .ok (w, s1)) (hd : ∀ i, decode w ≠ .ok i) :
      StepEnd s (s1.halt (.decodeError w s.pc))
  | branchInDelaySlot (w : InstrWord) (s1 : State) (i : Instr) (hf : s.fetch = .ok (w, s1)) (hd : decode w = .ok i)
      (hs : s.sched ≠ .idle) (hct : i.isControlTransfer = true) :
      StepEnd s (s1.halt (.branchInDelaySlot w s.pc))
  | handled (w : InstrWord) (s1 : State) (i : Instr) (t : State) (hf : s.fetch = .ok (w, s1)) (hd : decode w = .ok i)
      (hs : ¬ (s.sched ≠ .idle ∧ i.isControlTransfer = true)) (he : exec i { s1 with sched := .idle } = .next t) :
      StepEnd s (s1.finish t)

/-- Everything a step of a running block can answer. -/
theorem step_cases {s : State} (h : Stepping s) :
    (∃ s', step s = .next s' ∧ StepEnd s s') ∨
    (step s = .fault .mirrorLoop ∧
      ∃ intent a n, resolveAll s.regions intent (accessAddrs a n) = .error .loop) := by
  rw [step_of_stepping h]
  rcases fetch_cases s with ⟨ts, hts, hf⟩ | ⟨f, hr, hf⟩
  · have hro := fetch_readsOnly hf
    have hsched : (s.readTargets ts).2.sched = s.sched := by rw [hro]
    have hpc : (s.readTargets ts).2.pc = s.pc := by rw [hro]
    have hreg : (s.readTargets ts).2.regions = s.regions := by rw [hro]
    rw [hf]
    dsimp only
    cases hd : decode (BitVec.ofNat 32 (bigEndian (s.readTargets ts).1)) with
    | error r => exact .inl ⟨_, rfl, .decodeError _ _ hf (by simp [hd])⟩
    | ok i =>
      dsimp only [State.issue]
      split
      · next hc =>
        rw [hsched] at hc
        exact .inl ⟨_, rfl, by rw [hpc]; exact .branchInDelaySlot _ _ i hf hd hc.1 hc.2⟩
      · next hc =>
        rw [hsched] at hc
        rcases exec_cases i { (s.readTargets ts).2 with sched := .idle } with ⟨t, ht, -⟩ | ⟨he, intent, a, n, hl⟩
        · rw [ht]; exact .inl ⟨_, rfl, .handled _ _ i t hf hd hc ht⟩
        · rw [he]; exact .inr ⟨rfl, intent, a, n, hreg ▸ hl⟩
  · rw [hf]
    cases f with
    | unmapped a => exact .inl ⟨_, rfl, .unmappedFetch a hr⟩
    | loop => exact .inr ⟨rfl, _, _, _, hr⟩

/-- Everything a running block's next state can be. -/
theorem step_end {s s' : State} (h : Stepping s) (hs : step s = .next s') : StepEnd s s' := by
  rcases step_cases h with ⟨t, ht, he⟩ | ⟨hf, -⟩
  · rw [hs] at ht; cases ht; exact he
  · rw [hs] at hf; cases hf

end Sys2Proof.Machine
end

