-- ==== Sys2Proof/Laws/Encoding.lean ====
section
/-! SUPPORT. The words the encoder makes as numbers, their fields, and that a word is its fields put together
(30_encoding.md rules R61, R62). -/

namespace Sys2Proof

/-- Concatenation as a number, the first word in the high bits. -/
theorem toNat_append_eq {n m : Nat} (x : BitVec n) (y : BitVec m) :
    (x ++ y).toNat = x.toNat * 2 ^ m + y.toNat := by
  rw [BitVec.toNat_append, Nat.shiftLeft_eq, Nat.mul_comm, ← Nat.two_pow_add_eq_or_of_lt y.isLt]

/-- A bit slice as a number. -/
theorem toNat_slice (w : InstrWord) (lo len : Nat) :
    (w.extractLsb' lo len).toNat = w.toNat / 2 ^ lo % 2 ^ len := by
  rw [BitVec.extractLsb'_toNat, Nat.shiftRight_eq_div_pow]

/-! ### The words as numbers -/

theorem rWord_toNat (rs rt rd sa : BitVec 5) (f : BitVec 6) : (rWord rs rt rd sa f).toNat =
    rs.toNat * 2 ^ 21 + rt.toNat * 2 ^ 16 + rd.toNat * 2 ^ 11 + sa.toNat * 2 ^ 6 + f.toNat := by
  refine (toNat_append_eq (0x00#6 ++ rs ++ rt ++ rd ++ sa) f).trans ?_
  simp only [toNat_append_eq]; simp; omega

theorem aluWord_toNat (bits : BitVec 20) (f : BitVec 6) :
    (aluWord bits f).toNat = bits.toNat * 2 ^ 6 + f.toNat := by
  refine (toNat_append_eq (0x00#6 ++ bits) f).trans ?_
  simp only [toNat_append_eq]; simp

theorem iWord_toNat (op : BitVec 6) (rs rt : BitVec 5) (imm : BitVec 16) : (iWord op rs rt imm).toNat =
    op.toNat * 2 ^ 26 + rs.toNat * 2 ^ 21 + rt.toNat * 2 ^ 16 + imm.toNat := by
  refine (toNat_append_eq (op ++ rs ++ rt) imm).trans ?_
  simp only [toNat_append_eq]; omega

theorem jWord_toNat (op : BitVec 6) (target : BitVec 26) :
    (jWord op target).toNat = op.toNat * 2 ^ 26 + target.toNat :=
  toNat_append_eq op target

theorem cop0Word_toNat (sel : BitVec 5) (bits : BitVec 21) :
    (cop0Word sel bits).toNat = 0x10 * 2 ^ 26 + sel.toNat * 2 ^ 21 + bits.toNat := by
  refine (toNat_append_eq (0x10#6 ++ sel) bits).trans ?_
  simp only [toNat_append_eq]; simp; omega

theorem bits_rs_ign (rs : BitVec 5) (ign : BitVec 15) :
    (rs ++ ign : BitVec 20).toNat = rs.toNat * 2 ^ 15 + ign.toNat := toNat_append_eq rs ign

theorem bits_rs_rt_ign (rs rt : BitVec 5) (ign : BitVec 10) :
    (rs ++ rt ++ ign : BitVec 20).toNat = rs.toNat * 2 ^ 15 + rt.toNat * 2 ^ 10 + ign.toNat :=
  (toNat_append_eq (rs ++ rt) ign).trans (by rw [toNat_append_eq]; omega)

theorem bits_ign_rd_sa (ign : BitVec 10) (rd sa : BitVec 5) :
    (ign ++ rd ++ sa : BitVec 20).toNat = ign.toNat * 2 ^ 10 + rd.toNat * 2 ^ 5 + sa.toNat :=
  (toNat_append_eq (ign ++ rd) sa).trans (by rw [toNat_append_eq]; omega)

theorem bits_rt_rd_ign (rt rd : BitVec 5) (ign : BitVec 11) :
    (rt ++ rd ++ ign : BitVec 21).toNat = rt.toNat * 2 ^ 16 + rd.toNat * 2 ^ 11 + ign.toNat :=
  (toNat_append_eq (rt ++ rd) ign).trans (by rw [toNat_append_eq]; omega)

/-! ### Fields of made words -/

@[simp] theorem fieldOp_rWord (rs rt rd sa : BitVec 5) (f : BitVec 6) :
    fieldOp (rWord rs rt rd sa f) = 0 := by
  refine BitVec.eq_of_toNat_eq ?_
  rw [fieldOp, toNat_slice, rWord_toNat]; simp; omega

@[simp] theorem fieldRs_rWord (rs rt rd sa : BitVec 5) (f : BitVec 6) :
    fieldRs (rWord rs rt rd sa f) = rs := by
  refine BitVec.eq_of_toNat_eq ?_
  rw [fieldRs, toNat_slice, rWord_toNat]; omega

@[simp] theorem fieldRt_rWord (rs rt rd sa : BitVec 5) (f : BitVec 6) :
    fieldRt (rWord rs rt rd sa f) = rt := by
  refine BitVec.eq_of_toNat_eq ?_
  rw [fieldRt, toNat_slice, rWord_toNat]; omega

@[simp] theorem fieldRd_rWord (rs rt rd sa : BitVec 5) (f : BitVec 6) :
    fieldRd (rWord rs rt rd sa f) = rd := by
  refine BitVec.eq_of_toNat_eq ?_
  rw [fieldRd, toNat_slice, rWord_toNat]; omega

@[simp] theorem fieldSa_rWord (rs rt rd sa : BitVec 5) (f : BitVec 6) :
    fieldSa (rWord rs rt rd sa f) = sa := by
  refine BitVec.eq_of_toNat_eq ?_
  rw [fieldSa, toNat_slice, rWord_toNat]; omega

@[simp] theorem fieldFunct_rWord (rs rt rd sa : BitVec 5) (f : BitVec 6) :
    fieldFunct (rWord rs rt rd sa f) = f := by
  refine BitVec.eq_of_toNat_eq ?_
  rw [fieldFunct, toNat_slice, rWord_toNat]; omega

@[simp] theorem fieldOp_aluWord (bits : BitVec 20) (f : BitVec 6) :
    fieldOp (aluWord bits f) = 0 := by
  refine BitVec.eq_of_toNat_eq ?_
  rw [fieldOp, toNat_slice, aluWord_toNat]; simp; omega

@[simp] theorem fieldFunct_aluWord (bits : BitVec 20) (f : BitVec 6) :
    fieldFunct (aluWord bits f) = f := by
  refine BitVec.eq_of_toNat_eq ?_
  rw [fieldFunct, toNat_slice, aluWord_toNat]; omega

@[simp] theorem bits_aluWord (bits : BitVec 20) (f : BitVec 6) :
    (aluWord bits f).extractLsb' 6 20 = bits := by
  refine BitVec.eq_of_toNat_eq ?_
  rw [toNat_slice, aluWord_toNat]; omega

@[simp] theorem fieldRs_aluWord_rs_ign (rs : BitVec 5) (ign : BitVec 15) (f : BitVec 6) :
    fieldRs (aluWord (rs ++ ign) f) = rs := by
  refine BitVec.eq_of_toNat_eq ?_
  rw [fieldRs, toNat_slice, aluWord_toNat, bits_rs_ign]; omega

@[simp] theorem ign_aluWord_rs_ign (rs : BitVec 5) (ign : BitVec 15) (f : BitVec 6) :
    (aluWord (rs ++ ign) f).extractLsb' 6 15 = ign := by
  refine BitVec.eq_of_toNat_eq ?_
  rw [toNat_slice, aluWord_toNat, bits_rs_ign]; omega

@[simp] theorem fieldRs_aluWord_rs_rt_ign (rs rt : BitVec 5) (ign : BitVec 10) (f : BitVec 6) :
    fieldRs (aluWord (rs ++ rt ++ ign) f) = rs := by
  refine BitVec.eq_of_toNat_eq ?_
  rw [fieldRs, toNat_slice, aluWord_toNat, bits_rs_rt_ign]; omega

@[simp] theorem fieldRt_aluWord_rs_rt_ign (rs rt : BitVec 5) (ign : BitVec 10) (f : BitVec 6) :
    fieldRt (aluWord (rs ++ rt ++ ign) f) = rt := by
  refine BitVec.eq_of_toNat_eq ?_
  rw [fieldRt, toNat_slice, aluWord_toNat, bits_rs_rt_ign]; omega

@[simp] theorem ign_aluWord_rs_rt_ign (rs rt : BitVec 5) (ign : BitVec 10) (f : BitVec 6) :
    (aluWord (rs ++ rt ++ ign) f).extractLsb' 6 10 = ign := by
  refine BitVec.eq_of_toNat_eq ?_
  rw [toNat_slice, aluWord_toNat, bits_rs_rt_ign]; omega

@[simp] theorem ign_aluWord_ign_rd_sa (ign : BitVec 10) (rd sa : BitVec 5) (f : BitVec 6) :
    (aluWord (ign ++ rd ++ sa) f).extractLsb' 16 10 = ign := by
  refine BitVec.eq_of_toNat_eq ?_
  rw [toNat_slice, aluWord_toNat, bits_ign_rd_sa]; omega

@[simp] theorem fieldRd_aluWord_ign_rd_sa (ign : BitVec 10) (rd sa : BitVec 5) (f : BitVec 6) :
    fieldRd (aluWord (ign ++ rd ++ sa) f) = rd := by
  refine BitVec.eq_of_toNat_eq ?_
  rw [fieldRd, toNat_slice, aluWord_toNat, bits_ign_rd_sa]; omega

@[simp] theorem fieldSa_aluWord_ign_rd_sa (ign : BitVec 10) (rd sa : BitVec 5) (f : BitVec 6) :
    fieldSa (aluWord (ign ++ rd ++ sa) f) = sa := by
  refine BitVec.eq_of_toNat_eq ?_
  rw [fieldSa, toNat_slice, aluWord_toNat, bits_ign_rd_sa]; omega

@[simp] theorem fieldOp_iWord (op : BitVec 6) (rs rt : BitVec 5) (imm : BitVec 16) :
    fieldOp (iWord op rs rt imm) = op := by
  refine BitVec.eq_of_toNat_eq ?_
  rw [fieldOp, toNat_slice, iWord_toNat]; omega

@[simp] theorem fieldRs_iWord (op : BitVec 6) (rs rt : BitVec 5) (imm : BitVec 16) :
    fieldRs (iWord op rs rt imm) = rs := by
  refine BitVec.eq_of_toNat_eq ?_
  rw [fieldRs, toNat_slice, iWord_toNat]; omega

@[simp] theorem fieldRt_iWord (op : BitVec 6) (rs rt : BitVec 5) (imm : BitVec 16) :
    fieldRt (iWord op rs rt imm) = rt := by
  refine BitVec.eq_of_toNat_eq ?_
  rw [fieldRt, toNat_slice, iWord_toNat]; omega

@[simp] theorem fieldImm_iWord (op : BitVec 6) (rs rt : BitVec 5) (imm : BitVec 16) :
    fieldImm (iWord op rs rt imm) = imm := by
  refine BitVec.eq_of_toNat_eq ?_
  rw [fieldImm, toNat_slice, iWord_toNat]; omega

@[simp] theorem fieldOp_jWord (op : BitVec 6) (target : BitVec 26) :
    fieldOp (jWord op target) = op := by
  refine BitVec.eq_of_toNat_eq ?_
  rw [fieldOp, toNat_slice, jWord_toNat]; omega

@[simp] theorem fieldTarget_jWord (op : BitVec 6) (target : BitVec 26) :
    fieldTarget (jWord op target) = target := by
  refine BitVec.eq_of_toNat_eq ?_
  rw [fieldTarget, toNat_slice, jWord_toNat]; omega

@[simp] theorem fieldOp_cop0Word (sel : BitVec 5) (bits : BitVec 21) :
    fieldOp (cop0Word sel bits) = 0x10 := by
  refine BitVec.eq_of_toNat_eq ?_
  rw [fieldOp, toNat_slice, cop0Word_toNat]; simp; omega

@[simp] theorem fieldRs_cop0Word (sel : BitVec 5) (bits : BitVec 21) :
    fieldRs (cop0Word sel bits) = sel := by
  refine BitVec.eq_of_toNat_eq ?_
  rw [fieldRs, toNat_slice, cop0Word_toNat]; omega

@[simp] theorem fieldRt_cop0Word (sel rt rd : BitVec 5) (ign : BitVec 11) :
    fieldRt (cop0Word sel (rt ++ rd ++ ign)) = rt := by
  refine BitVec.eq_of_toNat_eq ?_
  rw [fieldRt, toNat_slice, cop0Word_toNat, bits_rt_rd_ign]; omega

@[simp] theorem fieldRd_cop0Word (sel rt rd : BitVec 5) (ign : BitVec 11) :
    fieldRd (cop0Word sel (rt ++ rd ++ ign)) = rd := by
  refine BitVec.eq_of_toNat_eq ?_
  rw [fieldRd, toNat_slice, cop0Word_toNat, bits_rt_rd_ign]; omega

@[simp] theorem ign_cop0Word (sel rt rd : BitVec 5) (ign : BitVec 11) :
    (cop0Word sel (rt ++ rd ++ ign)).extractLsb' 0 11 = ign := by
  refine BitVec.eq_of_toNat_eq ?_
  rw [toNat_slice, cop0Word_toNat, bits_rt_rd_ign]; omega

/-! ### A word is its fields put together -/

/-- The key of an ALU-class word has opcode 0x00. -/
theorem fieldOp_of_alu {w : InstrWord} {f : BitVec 6} (h : keyOf w = .alu f) :
    fieldOp w = 0x00 ∧ fieldFunct w = f := by
  unfold keyOf at h
  split at h
  · next hop => exact ⟨hop, Key.alu.inj h⟩
  · split at h
    · cases h
    · split at h <;> cases h

/-- The key of a REGIMM word has opcode 0x01. -/
theorem fieldOp_of_regimm {w : InstrWord} {f : BitVec 5} (h : keyOf w = .regimm f) :
    fieldOp w = 0x01 ∧ fieldRt w = f := by
  unfold keyOf at h
  split at h
  · cases h
  · split at h
    · next hop => exact ⟨hop, Key.regimm.inj h⟩
    · split at h <;> cases h

/-- The key of a coprocessor-0 word has opcode 0x10. -/
theorem fieldOp_of_cop0 {w : InstrWord} {f : BitVec 5} (h : keyOf w = .cop0 f) :
    fieldOp w = 0x10 ∧ fieldRs w = f := by
  unfold keyOf at h
  split at h
  · cases h
  · split at h
    · cases h
    · split at h
      · next hop => exact ⟨hop, Key.cop0.inj h⟩
      · cases h

/-- The key of every other word is its opcode, which is none of the three classes'. -/
theorem fieldOp_of_primary {w : InstrWord} {f : BitVec 6} (h : keyOf w = .primary f) :
    fieldOp w = f ∧ fieldOp w ≠ 0x00 ∧ fieldOp w ≠ 0x01 ∧ fieldOp w ≠ 0x10 := by
  unfold keyOf at h
  split at h
  · cases h
  · split at h
    · cases h
    · split at h
      · cases h
      · next h0 h1 h2 => exact ⟨Key.primary.inj h, h0, h1, h2⟩

/-- A word decodes exactly when its key has a handler. -/
theorem decode_ok_iff {w : InstrWord} {i : Instr} : decode w = .ok i ↔ handlerOf w = some i := by
  unfold decode
  split
  · next j hj => rw [hj]; exact ⟨fun h => by cases h; rfl, fun h => by cases h; rfl⟩
  · next hn => simp [hn]

theorem rWord_fields (w : InstrWord) (f : BitVec 6) (h : fieldOp w = 0)
    (hk : (fieldFunct w).toNat = f.toNat) : rWord (fieldRs w) (fieldRt w) (fieldRd w) (fieldSa w) f = w := by
  refine BitVec.eq_of_toNat_eq ?_
  have hop := congrArg BitVec.toNat h
  simp [fieldOp] at hop
  simp only [fieldFunct, toNat_slice] at hk
  rw [rWord_toNat]
  simp only [fieldRs, fieldRt, fieldRd, fieldSa, toNat_slice]
  simp at *
  omega

theorem aluWord_bits (w : InstrWord) (f : BitVec 6) (h : fieldOp w = 0)
    (hk : (fieldFunct w).toNat = f.toNat) : aluWord (w.extractLsb' 6 20) f = w := by
  refine BitVec.eq_of_toNat_eq ?_
  have hop := congrArg BitVec.toNat h
  simp [fieldOp] at hop
  simp only [fieldFunct, toNat_slice] at hk
  rw [aluWord_toNat]
  simp only [toNat_slice]
  simp at *
  omega

theorem aluWord_rs_ign (w : InstrWord) (f : BitVec 6) (h : fieldOp w = 0)
    (hk : (fieldFunct w).toNat = f.toNat) : aluWord (fieldRs w ++ w.extractLsb' 6 15) f = w := by
  refine BitVec.eq_of_toNat_eq ?_
  have hop := congrArg BitVec.toNat h
  simp [fieldOp] at hop
  simp only [fieldFunct, toNat_slice] at hk
  rw [aluWord_toNat, bits_rs_ign]
  simp only [fieldRs, toNat_slice]
  simp at *
  omega

theorem aluWord_rs_rt_ign (w : InstrWord) (f : BitVec 6) (h : fieldOp w = 0)
    (hk : (fieldFunct w).toNat = f.toNat) : aluWord (fieldRs w ++ fieldRt w ++ w.extractLsb' 6 10) f = w := by
  refine BitVec.eq_of_toNat_eq ?_
  have hop := congrArg BitVec.toNat h
  simp [fieldOp] at hop
  simp only [fieldFunct, toNat_slice] at hk
  rw [aluWord_toNat, bits_rs_rt_ign]
  simp only [fieldRs, fieldRt, toNat_slice]
  simp at *
  omega

theorem aluWord_ign_rd_sa (w : InstrWord) (f : BitVec 6) (h : fieldOp w = 0)
    (hk : (fieldFunct w).toNat = f.toNat) : aluWord (w.extractLsb' 16 10 ++ fieldRd w ++ fieldSa w) f = w := by
  refine BitVec.eq_of_toNat_eq ?_
  have hop := congrArg BitVec.toNat h
  simp [fieldOp] at hop
  simp only [fieldFunct, toNat_slice] at hk
  rw [aluWord_toNat, bits_ign_rd_sa]
  simp only [fieldRd, fieldSa, toNat_slice]
  simp at *
  omega

theorem regimmWord_fields (w : InstrWord) (f : BitVec 5) (h : fieldOp w = 0x01)
    (hk : (fieldRt w).toNat = f.toNat) : iWord 0x01 (fieldRs w) f (fieldImm w) = w := by
  refine BitVec.eq_of_toNat_eq ?_
  have hop := congrArg BitVec.toNat h
  simp [fieldOp] at hop
  simp only [fieldRt, toNat_slice] at hk
  rw [iWord_toNat]
  simp only [fieldRs, fieldImm, toNat_slice]
  simp at *
  omega

theorem iWord_fields (w : InstrWord) (f : BitVec 6)
    (hk : (fieldOp w).toNat = f.toNat) : iWord f (fieldRs w) (fieldRt w) (fieldImm w) = w := by
  refine BitVec.eq_of_toNat_eq ?_
  simp only [fieldOp, toNat_slice] at hk
  rw [iWord_toNat]
  simp only [fieldRs, fieldRt, fieldImm, toNat_slice]
  simp at *
  omega

theorem jWord_fields (w : InstrWord) (f : BitVec 6)
    (hk : (fieldOp w).toNat = f.toNat) : jWord f (fieldTarget w) = w := by
  refine BitVec.eq_of_toNat_eq ?_
  simp only [fieldOp, toNat_slice] at hk
  rw [jWord_toNat]
  simp only [fieldTarget, toNat_slice]
  simp at *
  omega

theorem cop0Word_fields (w : InstrWord) (f : BitVec 5) (h : fieldOp w = 0x10)
    (hk : (fieldRs w).toNat = f.toNat) : cop0Word f (fieldRt w ++ fieldRd w ++ w.extractLsb' 0 11) = w := by
  refine BitVec.eq_of_toNat_eq ?_
  have hop := congrArg BitVec.toNat h
  simp [fieldOp] at hop
  simp only [fieldRs, toNat_slice] at hk
  rw [cop0Word_toNat, bits_rt_rd_ign]
  simp only [fieldRt, fieldRd, toNat_slice]
  simp at *
  omega

end Sys2Proof
end

