-- ==== Sys2Proof/Laws/PerInstr.lean ====
section
/-! SUPPORT. The family TableRow: the word the encoder makes of an instruction has the fixed bits of the instruction's row of
spec/opcode_table.json (30_encoding.md rules R67 to R70), whatever its other fields hold. -/

namespace Sys2Proof.Laws

/-- One entry of a row's "fixed" list: the bits `hi` to `lo` of the word hold `value`. -/
structure FixedBits where
  hi    : Nat
  lo    : Nat
  value : Nat

/-- A word has the bits. -/
def FixedBits.holds (f : FixedBits) (w : InstrWord) : Prop :=
  w.toNat / 2 ^ f.lo % 2 ^ (f.hi + 1 - f.lo) = f.value

/-- The "fixed" list of each row of spec/opcode_table.json. -/
def tableRow : Instr → List FixedBits
  | .sll _ _ _ _ => [⟨31, 26, 0x00⟩, ⟨5, 0, 0x00⟩]
  | .srl _ _ _ _ => [⟨31, 26, 0x00⟩, ⟨5, 0, 0x02⟩]
  | .sra _ _ _ _ => [⟨31, 26, 0x00⟩, ⟨5, 0, 0x03⟩]
  | .sllv _ _ _ _ => [⟨31, 26, 0x00⟩, ⟨5, 0, 0x04⟩]
  | .srlv _ _ _ _ => [⟨31, 26, 0x00⟩, ⟨5, 0, 0x06⟩]
  | .srav _ _ _ _ => [⟨31, 26, 0x00⟩, ⟨5, 0, 0x07⟩]
  | .jr _ _ => [⟨31, 26, 0x00⟩, ⟨5, 0, 0x08⟩]
  | .jalr _ _ _ _ => [⟨31, 26, 0x00⟩, ⟨5, 0, 0x09⟩]
  | .syscall _ => [⟨31, 26, 0x00⟩, ⟨5, 0, 0x0C⟩]
  | .brk _ => [⟨31, 26, 0x00⟩, ⟨5, 0, 0x0D⟩]
  | .mfhi _ _ _ => [⟨31, 26, 0x00⟩, ⟨5, 0, 0x10⟩]
  | .mthi _ _ => [⟨31, 26, 0x00⟩, ⟨5, 0, 0x11⟩]
  | .mflo _ _ _ => [⟨31, 26, 0x00⟩, ⟨5, 0, 0x12⟩]
  | .mtlo _ _ => [⟨31, 26, 0x00⟩, ⟨5, 0, 0x13⟩]
  | .mult _ _ _ => [⟨31, 26, 0x00⟩, ⟨5, 0, 0x18⟩]
  | .multu _ _ _ => [⟨31, 26, 0x00⟩, ⟨5, 0, 0x19⟩]
  | .div _ _ _ => [⟨31, 26, 0x00⟩, ⟨5, 0, 0x1A⟩]
  | .divu _ _ _ => [⟨31, 26, 0x00⟩, ⟨5, 0, 0x1B⟩]
  | .add _ _ _ _ => [⟨31, 26, 0x00⟩, ⟨5, 0, 0x20⟩]
  | .addu _ _ _ _ => [⟨31, 26, 0x00⟩, ⟨5, 0, 0x21⟩]
  | .sub _ _ _ _ => [⟨31, 26, 0x00⟩, ⟨5, 0, 0x22⟩]
  | .subu _ _ _ _ => [⟨31, 26, 0x00⟩, ⟨5, 0, 0x23⟩]
  | .and _ _ _ _ => [⟨31, 26, 0x00⟩, ⟨5, 0, 0x24⟩]
  | .or _ _ _ _ => [⟨31, 26, 0x00⟩, ⟨5, 0, 0x25⟩]
  | .xor _ _ _ _ => [⟨31, 26, 0x00⟩, ⟨5, 0, 0x26⟩]
  | .nor _ _ _ _ => [⟨31, 26, 0x00⟩, ⟨5, 0, 0x27⟩]
  | .slt _ _ _ _ => [⟨31, 26, 0x00⟩, ⟨5, 0, 0x2A⟩]
  | .sltu _ _ _ _ => [⟨31, 26, 0x00⟩, ⟨5, 0, 0x2B⟩]
  | .bltz _ _ => [⟨31, 26, 0x01⟩, ⟨20, 16, 0x00⟩]
  | .bgez _ _ => [⟨31, 26, 0x01⟩, ⟨20, 16, 0x01⟩]
  | .bltzl _ _ => [⟨31, 26, 0x01⟩, ⟨20, 16, 0x02⟩]
  | .bgezl _ _ => [⟨31, 26, 0x01⟩, ⟨20, 16, 0x03⟩]
  | .bltzal _ _ => [⟨31, 26, 0x01⟩, ⟨20, 16, 0x10⟩]
  | .bgezal _ _ => [⟨31, 26, 0x01⟩, ⟨20, 16, 0x11⟩]
  | .bltzall _ _ => [⟨31, 26, 0x01⟩, ⟨20, 16, 0x12⟩]
  | .bgezall _ _ => [⟨31, 26, 0x01⟩, ⟨20, 16, 0x13⟩]
  | .j _ => [⟨31, 26, 0x02⟩]
  | .jal _ => [⟨31, 26, 0x03⟩]
  | .beq _ _ _ => [⟨31, 26, 0x04⟩]
  | .bne _ _ _ => [⟨31, 26, 0x05⟩]
  | .blez _ _ _ => [⟨31, 26, 0x06⟩]
  | .bgtz _ _ _ => [⟨31, 26, 0x07⟩]
  | .addi _ _ _ => [⟨31, 26, 0x08⟩]
  | .mfc0 _ _ _ => [⟨31, 21, 0x200⟩]
  | .mtc0 _ _ _ => [⟨31, 21, 0x204⟩]
  | .beql _ _ _ => [⟨31, 26, 0x14⟩]
  | .bnel _ _ _ => [⟨31, 26, 0x15⟩]
  | .blezl _ _ _ => [⟨31, 26, 0x16⟩]
  | .bgtzl _ _ _ => [⟨31, 26, 0x17⟩]
  | .lb _ _ _ => [⟨31, 26, 0x20⟩]
  | .lh _ _ _ => [⟨31, 26, 0x21⟩]
  | .lwl _ _ _ => [⟨31, 26, 0x22⟩]
  | .lw _ _ _ => [⟨31, 26, 0x23⟩]
  | .lbu _ _ _ => [⟨31, 26, 0x24⟩]
  | .lhu _ _ _ => [⟨31, 26, 0x25⟩]
  | .lwr _ _ _ => [⟨31, 26, 0x26⟩]
  | .lwu _ _ _ => [⟨31, 26, 0x27⟩]
  | .sb _ _ _ => [⟨31, 26, 0x28⟩]
  | .sh _ _ _ => [⟨31, 26, 0x29⟩]
  | .swl _ _ _ => [⟨31, 26, 0x2A⟩]
  | .sw _ _ _ => [⟨31, 26, 0x2B⟩]
  | .swr _ _ _ => [⟨31, 26, 0x2E⟩]
  | .cache _ _ _ => [⟨31, 26, 0x2F⟩]

/-- The rows of an ALU-class word. -/
theorem rWord_row (rs rt rd sa : BitVec 5) (f : BitVec 6) :
    ∀ b ∈ [(⟨31, 26, 0x00⟩ : FixedBits), ⟨5, 0, f.toNat⟩], b.holds (rWord rs rt rd sa f) := by
  simp [FixedBits.holds, rWord_toNat]; omega

theorem aluWord_row (bits : BitVec 20) (f : BitVec 6) :
    ∀ b ∈ [(⟨31, 26, 0x00⟩ : FixedBits), ⟨5, 0, f.toNat⟩], b.holds (aluWord bits f) := by
  simp [FixedBits.holds, aluWord_toNat]; omega

/-- The row of a REGIMM word. -/
theorem regimmWord_row (rs rt : BitVec 5) (imm : BitVec 16) :
    ∀ b ∈ [(⟨31, 26, 0x01⟩ : FixedBits), ⟨20, 16, rt.toNat⟩], b.holds (iWord 0x01 rs rt imm) := by
  simp [FixedBits.holds, iWord_toNat]; omega

/-- The row of an I-format word. -/
theorem iWord_row (op : BitVec 6) (rs rt : BitVec 5) (imm : BitVec 16) :
    ∀ b ∈ [(⟨31, 26, op.toNat⟩ : FixedBits)], b.holds (iWord op rs rt imm) := by
  simp [FixedBits.holds, iWord_toNat]; omega

/-- The row of a J-format word. -/
theorem jWord_row (op : BitVec 6) (target : BitVec 26) :
    ∀ b ∈ [(⟨31, 26, op.toNat⟩ : FixedBits)], b.holds (jWord op target) := by
  simp [FixedBits.holds, jWord_toNat]; omega

/-- The row of a coprocessor-0 word. -/
theorem cop0Word_row (sel : BitVec 5) (bits : BitVec 21) :
    ∀ b ∈ [(⟨31, 21, 0x200 + sel.toNat⟩ : FixedBits)], b.holds (cop0Word sel bits) := by
  simp [FixedBits.holds, cop0Word_toNat]; omega

/-- The word of the instruction has its row's fixed bits. -/
def TableRow.Statement (i : Instr) : Prop := ∀ b ∈ tableRow i, b.holds (encode i)

theorem TableRow.sll (rs rt rd sa : BitVec 5) : TableRow.Statement (.sll rs rt rd sa) := rWord_row rs rt rd sa 0x00
theorem TableRow.srl (rs rt rd sa : BitVec 5) : TableRow.Statement (.srl rs rt rd sa) := rWord_row rs rt rd sa 0x02
theorem TableRow.sra (rs rt rd sa : BitVec 5) : TableRow.Statement (.sra rs rt rd sa) := rWord_row rs rt rd sa 0x03
theorem TableRow.sllv (rs rt rd sa : BitVec 5) : TableRow.Statement (.sllv rs rt rd sa) := rWord_row rs rt rd sa 0x04
theorem TableRow.srlv (rs rt rd sa : BitVec 5) : TableRow.Statement (.srlv rs rt rd sa) := rWord_row rs rt rd sa 0x06
theorem TableRow.srav (rs rt rd sa : BitVec 5) : TableRow.Statement (.srav rs rt rd sa) := rWord_row rs rt rd sa 0x07
theorem TableRow.jr (rs : BitVec 5) (ign : BitVec 15) : TableRow.Statement (.jr rs ign) := aluWord_row _ 0x08
theorem TableRow.jalr (rs rt rd sa : BitVec 5) : TableRow.Statement (.jalr rs rt rd sa) := rWord_row rs rt rd sa 0x09
theorem TableRow.syscall (code : BitVec 20) : TableRow.Statement (.syscall code) := aluWord_row _ 0x0C
theorem TableRow.brk (code : BitVec 20) : TableRow.Statement (.brk code) := aluWord_row _ 0x0D
theorem TableRow.mfhi (ign : BitVec 10) (rd sa : BitVec 5) : TableRow.Statement (.mfhi ign rd sa) := aluWord_row _ 0x10
theorem TableRow.mthi (rs : BitVec 5) (ign : BitVec 15) : TableRow.Statement (.mthi rs ign) := aluWord_row _ 0x11
theorem TableRow.mflo (ign : BitVec 10) (rd sa : BitVec 5) : TableRow.Statement (.mflo ign rd sa) := aluWord_row _ 0x12
theorem TableRow.mtlo (rs : BitVec 5) (ign : BitVec 15) : TableRow.Statement (.mtlo rs ign) := aluWord_row _ 0x13
theorem TableRow.mult (rs rt : BitVec 5) (ign : BitVec 10) : TableRow.Statement (.mult rs rt ign) := aluWord_row _ 0x18
theorem TableRow.multu (rs rt : BitVec 5) (ign : BitVec 10) : TableRow.Statement (.multu rs rt ign) := aluWord_row _ 0x19
theorem TableRow.div (rs rt : BitVec 5) (ign : BitVec 10) : TableRow.Statement (.div rs rt ign) := aluWord_row _ 0x1A
theorem TableRow.divu (rs rt : BitVec 5) (ign : BitVec 10) : TableRow.Statement (.divu rs rt ign) := aluWord_row _ 0x1B
theorem TableRow.add (rs rt rd sa : BitVec 5) : TableRow.Statement (.add rs rt rd sa) := rWord_row rs rt rd sa 0x20
theorem TableRow.addu (rs rt rd sa : BitVec 5) : TableRow.Statement (.addu rs rt rd sa) := rWord_row rs rt rd sa 0x21
theorem TableRow.sub (rs rt rd sa : BitVec 5) : TableRow.Statement (.sub rs rt rd sa) := rWord_row rs rt rd sa 0x22
theorem TableRow.subu (rs rt rd sa : BitVec 5) : TableRow.Statement (.subu rs rt rd sa) := rWord_row rs rt rd sa 0x23
theorem TableRow.and (rs rt rd sa : BitVec 5) : TableRow.Statement (.and rs rt rd sa) := rWord_row rs rt rd sa 0x24
theorem TableRow.or (rs rt rd sa : BitVec 5) : TableRow.Statement (.or rs rt rd sa) := rWord_row rs rt rd sa 0x25
theorem TableRow.xor (rs rt rd sa : BitVec 5) : TableRow.Statement (.xor rs rt rd sa) := rWord_row rs rt rd sa 0x26
theorem TableRow.nor (rs rt rd sa : BitVec 5) : TableRow.Statement (.nor rs rt rd sa) := rWord_row rs rt rd sa 0x27
theorem TableRow.slt (rs rt rd sa : BitVec 5) : TableRow.Statement (.slt rs rt rd sa) := rWord_row rs rt rd sa 0x2A
theorem TableRow.sltu (rs rt rd sa : BitVec 5) : TableRow.Statement (.sltu rs rt rd sa) := rWord_row rs rt rd sa 0x2B
theorem TableRow.bltz (rs : BitVec 5) (imm : BitVec 16) : TableRow.Statement (.bltz rs imm) := regimmWord_row rs 0x00 imm
theorem TableRow.bgez (rs : BitVec 5) (imm : BitVec 16) : TableRow.Statement (.bgez rs imm) := regimmWord_row rs 0x01 imm
theorem TableRow.bltzl (rs : BitVec 5) (imm : BitVec 16) : TableRow.Statement (.bltzl rs imm) := regimmWord_row rs 0x02 imm
theorem TableRow.bgezl (rs : BitVec 5) (imm : BitVec 16) : TableRow.Statement (.bgezl rs imm) := regimmWord_row rs 0x03 imm
theorem TableRow.bltzal (rs : BitVec 5) (imm : BitVec 16) : TableRow.Statement (.bltzal rs imm) := regimmWord_row rs 0x10 imm
theorem TableRow.bgezal (rs : BitVec 5) (imm : BitVec 16) : TableRow.Statement (.bgezal rs imm) := regimmWord_row rs 0x11 imm
theorem TableRow.bltzall (rs : BitVec 5) (imm : BitVec 16) : TableRow.Statement (.bltzall rs imm) := regimmWord_row rs 0x12 imm
theorem TableRow.bgezall (rs : BitVec 5) (imm : BitVec 16) : TableRow.Statement (.bgezall rs imm) := regimmWord_row rs 0x13 imm
theorem TableRow.j (target : BitVec 26) : TableRow.Statement (.j target) := jWord_row 0x02 target
theorem TableRow.jal (target : BitVec 26) : TableRow.Statement (.jal target) := jWord_row 0x03 target
theorem TableRow.beq (rs rt : BitVec 5) (imm : BitVec 16) : TableRow.Statement (.beq rs rt imm) := iWord_row 0x04 rs rt imm
theorem TableRow.bne (rs rt : BitVec 5) (imm : BitVec 16) : TableRow.Statement (.bne rs rt imm) := iWord_row 0x05 rs rt imm
theorem TableRow.blez (rs rt : BitVec 5) (imm : BitVec 16) : TableRow.Statement (.blez rs rt imm) := iWord_row 0x06 rs rt imm
theorem TableRow.bgtz (rs rt : BitVec 5) (imm : BitVec 16) : TableRow.Statement (.bgtz rs rt imm) := iWord_row 0x07 rs rt imm
theorem TableRow.addi (rs rt : BitVec 5) (imm : BitVec 16) : TableRow.Statement (.addi rs rt imm) := iWord_row 0x08 rs rt imm
theorem TableRow.mfc0 (rt rd : BitVec 5) (ign : BitVec 11) : TableRow.Statement (.mfc0 rt rd ign) := cop0Word_row 0x00 _
theorem TableRow.mtc0 (rt rd : BitVec 5) (ign : BitVec 11) : TableRow.Statement (.mtc0 rt rd ign) := cop0Word_row 0x04 _
theorem TableRow.beql (rs rt : BitVec 5) (imm : BitVec 16) : TableRow.Statement (.beql rs rt imm) := iWord_row 0x14 rs rt imm
theorem TableRow.bnel (rs rt : BitVec 5) (imm : BitVec 16) : TableRow.Statement (.bnel rs rt imm) := iWord_row 0x15 rs rt imm
theorem TableRow.blezl (rs rt : BitVec 5) (imm : BitVec 16) : TableRow.Statement (.blezl rs rt imm) := iWord_row 0x16 rs rt imm
theorem TableRow.bgtzl (rs rt : BitVec 5) (imm : BitVec 16) : TableRow.Statement (.bgtzl rs rt imm) := iWord_row 0x17 rs rt imm
theorem TableRow.lb (rs rt : BitVec 5) (imm : BitVec 16) : TableRow.Statement (.lb rs rt imm) := iWord_row 0x20 rs rt imm
theorem TableRow.lh (rs rt : BitVec 5) (imm : BitVec 16) : TableRow.Statement (.lh rs rt imm) := iWord_row 0x21 rs rt imm
theorem TableRow.lwl (rs rt : BitVec 5) (imm : BitVec 16) : TableRow.Statement (.lwl rs rt imm) := iWord_row 0x22 rs rt imm
theorem TableRow.lw (rs rt : BitVec 5) (imm : BitVec 16) : TableRow.Statement (.lw rs rt imm) := iWord_row 0x23 rs rt imm
theorem TableRow.lbu (rs rt : BitVec 5) (imm : BitVec 16) : TableRow.Statement (.lbu rs rt imm) := iWord_row 0x24 rs rt imm
theorem TableRow.lhu (rs rt : BitVec 5) (imm : BitVec 16) : TableRow.Statement (.lhu rs rt imm) := iWord_row 0x25 rs rt imm
theorem TableRow.lwr (rs rt : BitVec 5) (imm : BitVec 16) : TableRow.Statement (.lwr rs rt imm) := iWord_row 0x26 rs rt imm
theorem TableRow.lwu (rs rt : BitVec 5) (imm : BitVec 16) : TableRow.Statement (.lwu rs rt imm) := iWord_row 0x27 rs rt imm
theorem TableRow.sb (rs rt : BitVec 5) (imm : BitVec 16) : TableRow.Statement (.sb rs rt imm) := iWord_row 0x28 rs rt imm
theorem TableRow.sh (rs rt : BitVec 5) (imm : BitVec 16) : TableRow.Statement (.sh rs rt imm) := iWord_row 0x29 rs rt imm
theorem TableRow.swl (rs rt : BitVec 5) (imm : BitVec 16) : TableRow.Statement (.swl rs rt imm) := iWord_row 0x2A rs rt imm
theorem TableRow.sw (rs rt : BitVec 5) (imm : BitVec 16) : TableRow.Statement (.sw rs rt imm) := iWord_row 0x2B rs rt imm
theorem TableRow.swr (rs rt : BitVec 5) (imm : BitVec 16) : TableRow.Statement (.swr rs rt imm) := iWord_row 0x2E rs rt imm
theorem TableRow.cache (rs rt : BitVec 5) (imm : BitVec 16) : TableRow.Statement (.cache rs rt imm) := iWord_row 0x2F rs rt imm

end Sys2Proof.Laws
end

