-- ==== Sys2Proof/Tests/Slice0.lean ====
section
/-! SUPPORT. The model's own tests. Expected results come from 95_test_vectors.md, from spec/opcode_table.json, or by hand from
the rules cited. A theorem named witness_… shows a concrete state and operands that meet the hypotheses of the
obligation it is named after. -/

namespace Sys2Proof.Tests

open Sys2Proof Sys2Proof.Machine

/-! ### Decoding: one word for each of the 63 rows, from spec/opcode_table.json's match and field positions, with the
bits each row ignores set (30_encoding.md rules R64, R67 to R70) -/

/-- The shift rows. -/
theorem test_decode_shift :
    decode 0b00000000001000100001100100000000#32 = .ok (.sll 1 2 3 4) ∧
    decode 0b00000000001000100001100100000010#32 = .ok (.srl 1 2 3 4) ∧
    decode 0b00000000001000100001100100000011#32 = .ok (.sra 1 2 3 4) ∧
    decode 0b00000000001000100001100100000100#32 = .ok (.sllv 1 2 3 4) ∧
    decode 0b00000000001000100001100100000110#32 = .ok (.srlv 1 2 3 4) ∧
    decode 0b00000000001000100001100100000111#32 = .ok (.srav 1 2 3 4) := by decide

/-- The register jump and absolute jump rows. -/
theorem test_decode_register_jump_and_absolute_jump :
    decode 0b00000011111100000000000001001000#32 = .ok (.jr 0x1F 0x4001) ∧
    decode 0b00000000001000100001100100001001#32 = .ok (.jalr 1 2 3 4) ∧
    decode 0b00001010000000000000000001000000#32 = .ok (.j 0x2000040) ∧
    decode 0b00001110000000000000000001000000#32 = .ok (.jal 0x2000040) := by decide

/-- The system stub rows. -/
theorem test_decode_system_stub :
    decode 0b00000010010010001101000101001100#32 = .ok (.syscall 0x92345) ∧
    decode 0b00000010010010001101000101001101#32 = .ok (.brk 0x92345) ∧
    decode 0b01000000000000100110010000000111#32 = .ok (.mfc0 2 0xC 0x407) ∧
    decode 0b01000000100000100110010000000111#32 = .ok (.mtc0 2 0xC 0x407) ∧
    decode 0b10111100001000101111111111111101#32 = .ok (.cache 1 2 0xFFFD) := by decide

/-- The hilo move rows. -/
theorem test_decode_hilo_move :
    decode 0b00000010000000010001110001010000#32 = .ok (.mfhi 0x201 3 0x11) ∧
    decode 0b00000011111100000000000001010001#32 = .ok (.mthi 0x1F 0x4001) ∧
    decode 0b00000010000000010001110001010010#32 = .ok (.mflo 0x201 3 0x11) ∧
    decode 0b00000011111100000000000001010011#32 = .ok (.mtlo 0x1F 0x4001) := by decide

/-- The multiply divide rows. -/
theorem test_decode_multiply_divide :
    decode 0b00000000001000101000000001011000#32 = .ok (.mult 1 2 0x201) ∧
    decode 0b00000000001000101000000001011001#32 = .ok (.multu 1 2 0x201) ∧
    decode 0b00000000001000101000000001011010#32 = .ok (.div 1 2 0x201) ∧
    decode 0b00000000001000101000000001011011#32 = .ok (.divu 1 2 0x201) := by decide

/-- The add subtract rows. -/
theorem test_decode_add_subtract :
    decode 0b00000000001000100001100100100000#32 = .ok (.add 1 2 3 4) ∧
    decode 0b00000000001000100001100100100001#32 = .ok (.addu 1 2 3 4) ∧
    decode 0b00000000001000100001100100100010#32 = .ok (.sub 1 2 3 4) ∧
    decode 0b00000000001000100001100100100011#32 = .ok (.subu 1 2 3 4) ∧
    decode 0b00100000001000101111111111111101#32 = .ok (.addi 1 2 0xFFFD) := by decide

/-- The bitwise compare rows. -/
theorem test_decode_bitwise_compare :
    decode 0b00000000001000100001100100100100#32 = .ok (.and 1 2 3 4) ∧
    decode 0b00000000001000100001100100100101#32 = .ok (.or 1 2 3 4) ∧
    decode 0b00000000001000100001100100100110#32 = .ok (.xor 1 2 3 4) ∧
    decode 0b00000000001000100001100100100111#32 = .ok (.nor 1 2 3 4) ∧
    decode 0b00000000001000100001100100101010#32 = .ok (.slt 1 2 3 4) ∧
    decode 0b00000000001000100001100100101011#32 = .ok (.sltu 1 2 3 4) := by decide

/-- The regimm branch rows. -/
theorem test_decode_regimm_branch :
    decode 0b00000100001000001000000000000100#32 = .ok (.bltz 1 0x8004) ∧
    decode 0b00000100001000011000000000000100#32 = .ok (.bgez 1 0x8004) ∧
    decode 0b00000100001000101000000000000100#32 = .ok (.bltzl 1 0x8004) ∧
    decode 0b00000100001000111000000000000100#32 = .ok (.bgezl 1 0x8004) ∧
    decode 0b00000100001100001000000000000100#32 = .ok (.bltzal 1 0x8004) ∧
    decode 0b00000100001100011000000000000100#32 = .ok (.bgezal 1 0x8004) ∧
    decode 0b00000100001100101000000000000100#32 = .ok (.bltzall 1 0x8004) ∧
    decode 0b00000100001100111000000000000100#32 = .ok (.bgezall 1 0x8004) := by decide

/-- The primary branch rows. -/
theorem test_decode_primary_branch :
    decode 0b00010000001000101111111111111101#32 = .ok (.beq 1 2 0xFFFD) ∧
    decode 0b00010100001000101111111111111101#32 = .ok (.bne 1 2 0xFFFD) ∧
    decode 0b00011000001000101111111111111101#32 = .ok (.blez 1 2 0xFFFD) ∧
    decode 0b00011100001000101111111111111101#32 = .ok (.bgtz 1 2 0xFFFD) ∧
    decode 0b01010000001000101111111111111101#32 = .ok (.beql 1 2 0xFFFD) ∧
    decode 0b01010100001000101111111111111101#32 = .ok (.bnel 1 2 0xFFFD) ∧
    decode 0b01011000001000101111111111111101#32 = .ok (.blezl 1 2 0xFFFD) ∧
    decode 0b01011100001000101111111111111101#32 = .ok (.bgtzl 1 2 0xFFFD) := by decide

/-- The load rows. -/
theorem test_decode_load :
    decode 0b10000000001000101111111111111101#32 = .ok (.lb 1 2 0xFFFD) ∧
    decode 0b10000100001000101111111111111101#32 = .ok (.lh 1 2 0xFFFD) ∧
    decode 0b10001100001000101111111111111101#32 = .ok (.lw 1 2 0xFFFD) ∧
    decode 0b10010000001000101111111111111101#32 = .ok (.lbu 1 2 0xFFFD) ∧
    decode 0b10010100001000101111111111111101#32 = .ok (.lhu 1 2 0xFFFD) ∧
    decode 0b10011100001000101111111111111101#32 = .ok (.lwu 1 2 0xFFFD) := by decide

/-- The store rows. -/
theorem test_decode_store :
    decode 0b10100000001000101111111111111101#32 = .ok (.sb 1 2 0xFFFD) ∧
    decode 0b10100100001000101111111111111101#32 = .ok (.sh 1 2 0xFFFD) ∧
    decode 0b10101100001000101111111111111101#32 = .ok (.sw 1 2 0xFFFD) := by decide

/-- The unaligned stub rows. -/
theorem test_decode_unaligned_stub :
    decode 0b10001000001000101111111111111101#32 = .ok (.lwl 1 2 0xFFFD) ∧
    decode 0b10011000001000101111111111111101#32 = .ok (.lwr 1 2 0xFFFD) ∧
    decode 0b10101000001000101111111111111101#32 = .ok (.swl 1 2 0xFFFD) ∧
    decode 0b10111000001000101111111111111101#32 = .ok (.swr 1 2 0xFFFD) := by decide

/-! ### Steps: the vectors of 95_test_vectors.md, by their names there. Each is one step -/

/-- The plain RAM configuration of 95_test_vectors.md with the bytes it holds. -/
def ram (bytes : List Host.Cell) : Region := ⟨0, 0x4000, .readWriteData bytes⟩

/-- The four bytes of a word at an address, the most significant first. -/
def wordAt (a w : Nat) : List Host.Cell :=
  [(a, BitVec.ofNat 8 (w / 2 ^ 24)), (a + 1, BitVec.ofNat 8 (w / 2 ^ 16)),
   (a + 2, BitVec.ofNat 8 (w / 2 ^ 8)), (a + 3, BitVec.ofNat 8 w)]

/-- A block with these regions, registers and `pc`, all else 0. -/
def machine (regions : List Region) (regs : List (RegIdx × Word)) (pc : Addr) : State :=
  { State.initial ⟨regions, pc, 29, 0, #v[19, 20, 21, 22, 23]⟩ with
    regs := regs.foldl (fun f iv => putReg f iv.1 iv.2) (Vector.replicate 32 0) }

/-- The state after one step, if there is one. -/
def after (s : State) : Option State :=
  match step s with
  | .next t => some t
  | .fault _ => none
  | .refused _ => none

/-- Plain RAM with a word at 0x2000, and `pc` there. -/
def program (w : Nat) (regs : List (RegIdx × Word)) : State := machine [ram (wordAt 0x2000 w)] regs 0x2000

/-- Register `r` after the word ran, where the step left `pc` at 0x2004 and the block running. -/
def result (r : RegIdx) (w : Nat) (regs : List (RegIdx × Word)) : Option Word :=
  match after (program w regs) with
  | some t => if t.pc = 0x2004 ∧ t.run = .running ∧ t.sched = .idle then some (t.readReg r) else none
  | none => none

/-- HI and LO after the word ran from HI = LO = 9. -/
def hiLo (w : Nat) (regs : List (RegIdx × Word)) : Option (Word × Word) :=
  (after { program w regs with hi := 9, lo := 9 }).map (fun t => (t.hi, t.lo))

theorem test_add : result 3 0x00221820 [(1, 5), (2, 7)] = some 12 ∧
    result 3 0x00221820 [(1, 0x7FFFFFFFFFFFFFFF), (2, 1)] = some 0x8000000000000000 ∧
    result 3 0x00221820 [(1, 0x7FFFFFFF), (2, 1)] = some 0x80000000 ∧
    result 0 0x00220020 [(1, 5), (2, 7)] = some 0 ∧
    result 1 0x00210820 [(1, 21)] = some 42 := by decide

theorem test_addu : result 3 0x00221821 [(1, 0xFFFFFFFFFFFFFFFF), (2, 1)] = some 0 := by decide

theorem test_sub : result 3 0x00221822 [(1, 0), (2, 1)] = some 0xFFFFFFFFFFFFFFFF := by decide

theorem test_subu : result 3 0x00221823 [(1, 0x8000000000000000), (2, 1)] = some 0x7FFFFFFFFFFFFFFF := by decide

theorem test_addi : result 2 0x2022FFFD [(1, 5)] = some 2 ∧
    result 2 0x20228000 [] = some 0xFFFFFFFFFFFF8000 ∧
    result 2 0x20227FFF [(1, 0x7FFFFFFFFFFFFFFF)] = some 0x8000000000007FFE := by decide

theorem test_sll : result 2 0x00011040 [(1, 0x80000000)] = some 0x100000000 ∧
    result 2 0x000117C0 [(1, 0xFFFFFFFFFFFFFFFF)] = some 0xFFFFFFFF80000000 := by decide

theorem test_srl : result 2 0x00011102 [(1, 0xFFFFFFFF80000000)] = some 0x0FFFFFFFF8000000 ∧
    result 2 0x000117C2 [(1, 0x8000000000000000)] = some 0x100000000 := by decide

theorem test_sra : result 2 0x00011103 [(1, 0xFFFFFFFF80000000)] = some 0x08000000 ∧
    result 2 0x00011003 [(1, 0xFFFFFFFFFFFFFFFF)] = some 0xFFFFFFFF ∧
    result 2 0x00011103 [(1, 0x1230)] = some 0x123 := by decide

theorem test_sllv : result 3 0x00411804 [(1, 1), (2, 40)] = some 0x100 ∧
    result 3 0x00411804 [(1, 1), (2, 32)] = some 1 := by decide

theorem test_srlv : result 3 0x00411806 [(1, 0xFFFFFFFFFFFFFFFF), (2, 0xFFFFFFFFFFFFFFFF)] =
    some 0x1FFFFFFFF := by decide

theorem test_srav : result 3 0x00411807 [(1, 0xFFFFFFFFFFFFFF00), (2, 4)] = some 0x0FFFFFF0 := by decide

theorem test_slt : result 3 0x0022182A [(1, 0xFFFFFFFFFFFFFFFB), (2, 3)] = some 1 ∧
    result 3 0x0022182A [(1, 0x80000000), (2, 0)] = some 0 ∧
    result 3 0x0022182A [(1, 0x8000000000000000), (2, 0x7FFFFFFFFFFFFFFF)] = some 1 := by decide

theorem test_sltu : result 3 0x0022182B [(1, 0xFFFFFFFFFFFFFFFB), (2, 3)] = some 0 ∧
    result 3 0x0002182B [(2, 9)] = some 1 := by decide

theorem test_bitwise :
    result 3 0x00221824 [(1, 0xFF00FF00FF00FF00), (2, 0x0FF00FF00FF00FF0)] = some 0x0F000F000F000F00 ∧
    result 3 0x00221825 [(1, 0xFF00FF00FF00FF00), (2, 0x0FF00FF00FF00FF0)] = some 0xFFF0FFF0FFF0FFF0 ∧
    result 3 0x00211826 [(1, 0x123456789)] = some 0 ∧
    result 3 0x00001827 [] = some 0xFFFFFFFFFFFFFFFF := by decide

theorem test_mult : hiLo 0x00220018 [(1, 0xFFFFFFFFFFFFFFFF), (2, 0xFFFFFFFFFFFFFFFF)] = some (0, 1) ∧
    hiLo 0x00220018 [(1, 0x80000000), (2, 0x80000000)] = some (0x40000000, 0) ∧
    hiLo 0x00220018 [(1, 0x7FFFFFFF), (2, 2)] = some (0, 0xFFFFFFFFFFFFFFFE) := by decide

theorem test_multu : hiLo 0x00220019 [(1, 0xFFFFFFFF), (2, 0xFFFFFFFF)] = some (0xFFFFFFFFFFFFFFFE, 1) ∧
    hiLo 0x00220019 [(1, 0x80000000), (2, 2)] = some (1, 0) := by decide

theorem test_div : hiLo 0x0022001A [(1, 7), (2, 2)] = some (1, 3) ∧
    hiLo 0x0022001A [(1, 0xFFFFFFFFFFFFFFF9), (2, 2)] = some (0xFFFFFFFFFFFFFFFF, 0xFFFFFFFFFFFFFFFD) ∧
    hiLo 0x0022001A [(1, 7), (2, 0xFFFFFFFFFFFFFFFE)] = some (1, 0xFFFFFFFFFFFFFFFD) := by decide

theorem test_div_corners :
    hiLo 0x0022001A [(1, 0xFFFFFFFF80000000), (2, 0xFFFFFFFFFFFFFFFF)] = some (0, 0xFFFFFFFF80000000) ∧
    (after (program 0x0022001A [(1, 7)])).map (fun t => (t.pc, t.run, t.readReg 1)) =
      some (0x2004, .running, 7) := by decide

theorem test_divu : hiLo 0x0022001B [(1, 0xFFFFFFFF), (2, 2)] = some (1, 0x7FFFFFFF) ∧
    hiLo 0x0022001B [(1, 0x80000000), (2, 0xFFFFFFFF)] = some (0xFFFFFFFF80000000, 0) ∧
    (after (program 0x0022001B [(1, 7), (2, 0x100000000)])).map (fun t => (t.pc, t.run)) =
      some (0x2004, .running) := by decide

theorem test_hilo_moves :
    (after { program 0x00001810 [] with hi := 0x123456789ABCDEF0 }).map (·.readReg 3) = some 0x123456789ABCDEF0 ∧
    (after { program 0x00001812 [] with lo := 3 }).map (·.readReg 3) = some 3 ∧
    hiLo 0x00200011 [(1, 0x123456789ABCDEF0)] = some (0x123456789ABCDEF0, 9) ∧
    hiLo 0x00200013 [(1, 42)] = some (9, 42) ∧
    (after { program 0x00000012 [] with lo := 3 }).map (·.readReg 0) = some 0 := by decide

/-- `pc` and the scheduler after a word at 0x1000 ran. -/
def transfer (w : Nat) (regs : List (RegIdx × Word)) : Option (Addr × Sched) :=
  (after (machine [ram (wordAt 0x1000 w)] regs 0x1000)).map (fun t => (t.pc, t.sched))

/-- A word at 0x1000 schedules a redirect. -/
def takes (w : Nat) (regs : List (RegIdx × Word)) (t : Addr) : Bool :=
  transfer w regs == some (0x1004, .pending (.redirect t))

/-- A word at 0x1000 schedules NoRedirect. -/
def skips (w : Nat) (regs : List (RegIdx × Word)) : Bool :=
  transfer w regs == some (0x1004, .pending .noRedirect)

theorem test_beq : takes 0x10220004 [(1, 9), (2, 9)] 0x1014 ∧ skips 0x10220004 [(1, 9), (2, 8)] ∧
    takes 0x1000FFFF [] 0x1000 ∧ skips 0x10220004 [(1, 0x80000000), (2, 0xFFFFFFFF80000000)] := by decide

theorem test_bne : takes 0x14200000 [(1, 1)] 0x1004 ∧ skips 0x14220004 [(1, 3), (2, 3)] := by decide

theorem test_blez : takes 0x18200002 [] 0x100C ∧ takes 0x18200002 [(1, 0xFFFFFFFFFFFFFFFF)] 0x100C ∧
    skips 0x18200002 [(1, 0x80000000)] := by decide

theorem test_bgtz : skips 0x1C200002 [] ∧ takes 0x1C200002 [(1, 0x80000000)] 0x100C := by decide

theorem test_bltz : skips 0x04200004 [(1, 0x80000000)] ∧ takes 0x04200004 [(1, 0x8000000000000000)] 0x1014 := by decide

theorem test_bgez : skips 0x0421FFFE [(1, 0xFFFFFFFFFFFFFFFF)] ∧ takes 0x0421FFFE [] 0xFFC := by decide

/-- A likely branch that is not taken schedules NoRedirect: its delay slot is executed (45_branches.md rule R148). -/
theorem test_likely_branches : skips 0x50220004 [(1, 1), (2, 2)] ∧ takes 0x50220004 [] 0x1014 ∧
    skips 0x54220004 [] ∧ takes 0x54220004 [(1, 1)] 0x1014 ∧
    skips 0x58200004 [(1, 1)] ∧ takes 0x58200004 [] 0x1014 ∧
    skips 0x5C200004 [] ∧ takes 0x5C200004 [(1, 1)] 0x1014 := by decide

theorem test_likely_sign_branches : skips 0x04220004 [] ∧ takes 0x04220004 [(1, 0xFFFFFFFFFFFFFFFF)] 0x1014 ∧
    skips 0x04230004 [(1, 0xFFFFFFFFFFFFFFFF)] ∧ takes 0x04230004 [] 0x1014 := by decide

/-- r31, `pc` and the scheduler after a word at 0x1000 ran. -/
def link (w : Nat) (regs : List (RegIdx × Word)) : Option (Word × Sched) :=
  (after (machine [ram (wordAt 0x1000 w)] regs 0x1000)).map (fun t => (t.readReg 31, t.sched))

theorem test_bltzal : link 0x04300004 [(1, 5)] = some (0x1008, .pending .noRedirect) ∧
    link 0x07F00004 [(31, 0xFFFFFFFFFFFFFFFF)] = some (0x1008, .pending (.redirect 0x1014)) := by decide

theorem test_bgezal : link 0x04310004 [] = some (0x1008, .pending (.redirect 0x1014)) ∧
    link 0x04310004 [(1, 0xFFFFFFFFFFFFFFFF)] = some (0x1008, .pending .noRedirect) := by decide

theorem test_bltzall : link 0x04320003 [(1, 0xFFFFFFFFFFFFFFFF)] = some (0x1008, .pending (.redirect 0x1010)) ∧
    link 0x04320003 [] = some (0x1008, .pending .noRedirect) := by decide

theorem test_bgezall : link 0x04330004 [] = some (0x1008, .pending (.redirect 0x1014)) ∧
    link 0x04330004 [(1, 0xFFFFFFFFFFFFFFFF)] = some (0x1008, .pending .noRedirect) := by decide

/-- Vectors J7 and J8: the page of the jump's own address, and a link that is not sign-extended. -/
def highPage (w : Nat) : State :=
  machine [⟨0xA4000000, 0x2000, .readWriteData (wordAt 0x40 w)⟩] [] 0xA4000040

theorem test_j : link 0x08000040 [] = some (0, .pending (.redirect 0x100)) ∧
    (after (highPage 0x09000020)).map (·.sched) = some (.pending (.redirect 0xA4000080)) := by decide

theorem test_jal : (after (machine [ram (wordAt 0x10 0x0C000040)] [] 0x10)).map
      (fun t => (t.pc, t.readReg 31, t.sched)) = some (0x14, 0x18, .pending (.redirect 0x100)) ∧
    (after (highPage 0x0D000020)).map (·.readReg 31) = some 0xA4000048 := by decide

theorem test_jr : takes 0x00200008 [(1, 0xFFFFFFFF00002000)] 0x2000 ∧ takes 0x00200008 [(1, 0x2002)] 0x2002 := by decide

theorem test_jalr : (after (machine [ram (wordAt 0x10 0x00200809)] [(1, 0x200)] 0x10)).map
      (fun t => (t.readReg 1, t.readReg 31, t.sched)) = some (0x18, 0, .pending (.redirect 0x200)) ∧
    takes 0x00200009 [(1, 0x2000)] 0x2000 := by decide

/-- The bytes of section 2.7, with a word at 0x2000. -/
def loads (w : Nat) (x1 : Word) : State :=
  machine [ram (wordAt 0x1008 0x1234F678 ++ wordAt 0x100C 0xF2345678 ++ wordAt 0x1010 0x80007FFF ++ wordAt 0x2000 w)]
    [(1, x1)] 0x2000

/-- Register `r` after a load. -/
def loaded (r : RegIdx) (w : Nat) (x1 : Word) : Option Word := (after (loads w x1)).map (·.readReg r)

theorem test_lb : loaded 2 0x8022000A 0x1000 = some 0xFFFFFFFFFFFFFFF6 ∧ loaded 2 0x80220008 0x1000 = some 0x12 ∧
    loaded 0 0x8020000A 0x1000 = some 0 := by decide

theorem test_lbu : loaded 2 0x9022000A 0x1000 = some 0xF6 := by decide

theorem test_lh : loaded 2 0x8422000A 0x1000 = some 0xFFFFFFFFFFFFF678 ∧
    loaded 2 0x84220009 0x1000 = some 0x34F6 ∧ loaded 2 0x84220010 0x1000 = some 0xFFFFFFFFFFFF8000 := by decide

theorem test_lhu : loaded 2 0x9422000A 0x1000 = some 0xF678 := by decide

theorem test_lw : loaded 2 0x8C22000C 0x1000 = some 0xFFFFFFFFF2345678 ∧
    loaded 2 0x8C220009 0x1000 = some 0x34F678F2 ∧ loaded 1 0x8C210008 0x1000 = some 0x1234F678 := by decide

theorem test_lw_addresses : loaded 2 0x8C22FFFC 0x1010 = some 0xFFFFFFFFF2345678 ∧
    loaded 2 0x8C220008 0xFFFFFFFF00001000 = some 0x1234F678 ∧
    loaded 2 0x8C220008 0x100001000 = some 0x1234F678 := by decide

theorem test_lwu : loaded 2 0x9C22000C 0x1000 = some 0xF2345678 := by decide

/-- The eight bytes from an address after a store of x2 from the bytes AA of section 2.7. -/
def stored (w : Nat) (a : Addr) : Option (List (Option Byte)) :=
  (after (machine [ram (wordAt 0x1008 0xAAAAAAAA ++ wordAt 0x100C 0xAAAAAAAA ++ wordAt 0x2000 w)]
    [(1, 0x1000), (2, 0x1122334455667788)] 0x2000)).map (fun t => (accessAddrs a 8).map t.peek)

theorem test_sb : stored 0xA0220008 0x1008 =
      some [some 0x88, some 0xAA, some 0xAA, some 0xAA, some 0xAA, some 0xAA, some 0xAA, some 0xAA] ∧
    stored 0xA0200008 0x1008 =
      some [some 0, some 0xAA, some 0xAA, some 0xAA, some 0xAA, some 0xAA, some 0xAA, some 0xAA] := by decide

theorem test_sh : stored 0xA4220009 0x1008 =
    some [some 0xAA, some 0x77, some 0x88, some 0xAA, some 0xAA, some 0xAA, some 0xAA, some 0xAA] := by decide

theorem test_sw : stored 0xAC220009 0x1008 =
      some [some 0xAA, some 0x55, some 0x66, some 0x77, some 0x88, some 0xAA, some 0xAA, some 0xAA] ∧
    stored 0xAC22FFFF 0xFFF =
      some [some 0x55, some 0x66, some 0x77, some 0x88, some 0, some 0, some 0, some 0] := by decide

/-- A stub logs its word and changes nothing else but `pc`, whatever its base address (section 2.8). -/
def stubs (w : Nat) : Bool :=
  after (program w [(1, 0xFFFF0000), (2, 0x55)]) == some { program w [(1, 0xFFFF0000), (2, 0x55)] with
    pc := 0x2004, log := [.unimplementedInstruction (BitVec.ofNat 32 w) 0x2000] }

theorem test_unaligned_stubs : stubs 0x88220008 ∧ stubs 0x98220008 ∧ stubs 0xA8220008 ∧ stubs 0xB8220008 := by decide

theorem test_syscall : stubs 0x0000000C ∧ stubs 0x0048D14C := by decide

theorem test_break : stubs 0x0000000D ∧ stubs 0x03FF000D := by decide

theorem test_cache : stubs 0xBC200000 := by decide

theorem test_mfc0 : stubs 0x40026000 ∧ stubs 0x40026007 := by decide

theorem test_mtc0 : stubs 0x40826000 := by decide

/-- Vector Y13: a stub in a delay slot is logged and the carried redirect applied. -/
theorem test_stub_in_delay_slot :
    (after { program 0x0000000C [] with sched := .pending (.redirect 0x1014) }).map
      (fun t => (t.pc, t.sched, t.log)) =
    some (0x1014, .idle, [.unimplementedInstruction 0x0000000C 0x2000]) := by decide

/-! ### Fatal conditions (section 2.10) -/

/-- Words whose keys have no handler: vectors E1 to E5 and E7 to E16. -/
theorem test_no_handler :
    ([0xFFFFFFFF, 0x3C011234, 0x34210001, 0x24220001, 0xDC220000, 0x0000000F, 0x00000001, 0x0022182C] ++
     [0x04240000, 0x041F0000, 0x42000018, 0x40226000, 0x40A26000, 0x44000000, 0x70000000] : List Nat).all
      (fun w => (decodeTableWord 32 w).isNone) = true ∧
    decodeTableWord 32 0x00000040 = some (.sll 0 0 0 1) ∧
    decodeTableWord 32 0x03E0F809 = some (.jalr 31 0 31 0) := by decide

/-- Decoding from bytes: the first byte is the most significant, the rest is given back, three bytes are too few. -/
theorem test_decode_bytes :
    decodeBytes [0x00, 0x22, 0x18, 0x20, 0xAB] = .ok (.add 1 2 3 0, [0xAB]) ∧
    decodeBytes [0x00, 0x22, 0x18] = .error .truncated ∧
    decodeBytes [0x3C, 0x01, 0x12, 0x34] = .error (.noHandler (.primary 0x0F)) := by decide

/-- Vectors W11 and E1. -/
theorem test_decode_error : after (program 0xFFFFFFFF [(5, 0x55)]) =
    some { program 0xFFFFFFFF [(5, 0x55)] with run := .halted (.decodeError 0xFFFFFFFF 0x2000) } := by decide

/-- Vectors E6 and E19. -/
theorem test_unmapped_fetch :
    (after (machine [ram []] [] 0x8000)).map (fun t => (t.run, t.pc)) =
      some (.halted (.unmappedAddress none 0x8000 0x8000), 0x8000) ∧
    (after (machine [ram []] [] 0x3FFE)).map (·.run) =
      some (.halted (.unmappedAddress none 0x3FFE 0x4000)) := by decide

/-- Vectors E20 and E21. -/
theorem test_unmapped_access :
    after (program 0x8C220000 [(1, 0x4000), (2, 0x55)]) = some { program 0x8C220000 [(1, 0x4000), (2, 0x55)] with
      run := .halted (.unmappedAddress (some 0x8C220000) 0x2000 0x4000) } ∧
    after (program 0xAC22FFFE [(1, 0x4000), (2, 0x11223344)]) =
      some { program 0xAC22FFFE [(1, 0x4000), (2, 0x11223344)] with
        run := .halted (.unmappedAddress (some 0xAC22FFFE) 0x2000 0x4000) } := by decide

/-- Vectors E22 and E24, second steps. -/
theorem test_branch_in_delay_slot :
    after { program 0x14200002 [(1, 1)] with sched := .pending .noRedirect } =
      some { program 0x14200002 [(1, 1)] with
        sched := .pending .noRedirect, run := .halted (.branchInDelaySlot 0x14200002 0x2000) } ∧
    (after { program 0x03E00008 [] with sched := .pending (.redirect 0x40) }).map (·.run) =
      some (.halted (.branchInDelaySlot 0x03E00008 0x2000)) := by decide

/-- Vector E23, second step: a word with no handler in a delay slot is a DecodeError and the redirect is not applied. -/
theorem test_decode_error_in_delay_slot :
    (after { program 0xFFFFFFFF [] with sched := .pending (.redirect 0x1014) }).map (fun t => (t.run, t.pc, t.sched)) =
      some (.halted (.decodeError 0xFFFFFFFF 0x2000), 0x2000, .pending (.redirect 0x1014)) := by decide

/-- Vector E25, and a paused block. -/
theorem test_halted_and_paused_hold :
    after { program 0x00221820 [] with run := .halted (.decodeError 0 0) } =
      some { program 0x00221820 [] with run := .halted (.decodeError 0 0) } ∧
    after { program 0x00221820 [] with runRequest := false } =
      some { program 0x00221820 [] with runRequest := false } := by decide

/-- `pc` wraps modulo 2^32 (40_dispatch_step.md rule R85). -/
theorem test_pc_wraps : (after (machine [⟨0xFFFFF000, 0x1000, .readWriteData []⟩] [] 0xFFFFFFFC)).map (·.pc) =
    some 0 := by decide

/-! ### The resolver (section 2.9) -/

/-- Configuration Q of 95_test_vectors.md; of the ReadOnlyData window, the bytes that the vectors read. -/
def configQ : List Region :=
  [⟨0x0000, 0x1000, .readWriteData [(0x10, 0x12), (0x11, 0x34), (0x12, 0x56), (0x13, 0x78)]⟩,
   ⟨0x2000, 0x100, .readOnlyData
     [(0, 0xC0), (1, 0xC1), (2, 0xC2), (3, 0xC3), (4, 0xC4), (0xFE, 0xBE), (0xFF, 0xBF)]⟩,
   ⟨0x3000, 0x100, .mirror 0x0000⟩, ⟨0x4000, 0x100, .mirror 0x3000⟩, ⟨0x5000, 0x100, .dummy⟩,
   ⟨0x6000, 0x10, .writeOnlyDevice⟩, ⟨0x6000, 0x10, .readOnlyDevice⟩, ⟨0x7000, 0x100, .empty⟩] ++
  [⟨0x7000, 0x100, .readWriteData []⟩, ⟨0x2000, 0x200, .readWriteData [(0x100, 0x5A), (0x101, 0x5B)]⟩,
   ⟨0x8000, 0x100, .mirror 0x9000⟩, ⟨0xA000, 0x100, .mirror 0x2000⟩]

/-- A block with configuration Q. -/
def blockQ : State := machine configQ [] 0

/-- The value an access reads and the log it leaves, or the failure. -/
def readQ (s : State) (a : Addr) (n : Nat) : Except AccessFailure (Nat × List LogRecord) :=
  match s.memRead a n with
  | .ok (bytes, t) => .ok (bigEndian bytes, t.log)
  | .error f => .error f

/-- The state after a write to a block with configuration Q, or the failure. -/
def writeQ (a : Addr) (n : Nat) (v : Word) : Except AccessFailure State := blockQ.memWrite a n v

/-- What holds of the state a write to configuration Q leaves. -/
def wroteQ {α : Type} (a : Addr) (n : Nat) (v : Word) (f : State → α) : Option α := (writeQ a n v).toOption.map f

/-- Vectors Q1, Q2: big-endian values, and a chain of two Mirrors. -/
theorem test_reads : readQ blockQ 0x10 4 = .ok (0x12345678, []) ∧ readQ blockQ 0x11 2 = .ok (0x3456, []) ∧
    readQ blockQ 0x3010 4 = .ok (0x12345678, []) ∧ readQ blockQ 0x4012 2 = .ok (0x5678, []) := by decide

/-- Vectors Q3 and Q11. -/
theorem test_mirror_writes :
    wroteQ 0x4020 2 0xBEEF (fun t => (readQ t 0x20 2, readQ t 0x3020 2)) =
      some (.ok (0xBEEF, []), .ok (0xBEEF, [])) ∧
    wroteQ 0xA004 1 0x77 (fun t => (t.bufferByte 9 4, readQ t 0xA004 1)) = some (0x77, .ok (0xC4, [])) := by decide

/-- Vector Q4: a write skips the ReadOnlyData region and lands in a later one, and the read still finds the first. -/
theorem test_read_only_skipped :
    wroteQ 0x2000 4 0x11223344 (fun t => (t.bufferByte 9 0, t.bufferByte 9 3)) = some (0x11, 0x44) ∧
    wroteQ 0x2000 4 0x11223344 (fun t => (t.bufferByte 1 0, readQ t 0x2000 4)) =
      some (0xC0, .ok (0xC0C1C2C3, [])) := by decide

/-- Vector Q5: one access that straddles two regions. -/
theorem test_straddling_read : readQ blockQ 0x20FE 4 = .ok (0xBEBF5A5B, []) := by decide

/-- Vector Q6. -/
theorem test_dummy : wroteQ 0x5000 2 0xABCD (fun t => readQ t 0x5000 2) =
    some (.ok (0, [.dummyWrite 0x5000 0xAB, .dummyWrite 0x5001 0xCD, .dummyRead 0x5000, .dummyRead 0x5001])) := by
  decide

/-- Vector Q7; what the read endpoint answers is free, that it is called is not. -/
theorem test_devices :
    wroteQ 0x6004 2 0xA1B2 (·.deviceLog) = some [.write 5 4 0xA1, .write 5 5 0xB2] ∧
    (blockQ.memRead 0x6004 2).toOption.map (fun r => (r.2.deviceLog, r.2.draws)) =
      some ([.read 6 4, .read 6 5], 2) := by decide

/-- Vector Q8. -/
theorem test_empty_skipped :
    wroteQ 0x7000 1 0x99 (fun t => (t.bufferByte 8 0, readQ t 0x7000 1)) = some (0x99, .ok (0x99, [])) := by decide

/-- Vectors Q9, Q10, Q12, Q13. -/
theorem test_unmapped : readQ blockQ 0x8000 1 = .error (.unmapped 0x8000) ∧
    readQ blockQ 0x0FFE 4 = .error (.unmapped 0x1000) ∧
    writeQ 0x0FFE 4 0xAABBCCDD = .error (.unmapped 0x1000) ∧
    readQ blockQ 0x50FE 4 = .error (.unmapped 0x5100) ∧
    readQ blockQ 0xFFFFFFFE 4 = .error (.unmapped 0xFFFFFFFE) := by decide

/-- An access wraps from the top of the address space to address 0 (47_loads_stores.md rule R180). -/
theorem test_access_wraps :
    readQ (machine [⟨0xFFFFFFF0, 0x10, .readWriteData [(15, 0xAB)]⟩, ram [(0, 0xCD)]] [] 0) 0xFFFFFFFF 2 =
      .ok (0xABCD, []) := by decide

/-- Writing what an unlisted byte reads as removes its cell. -/
theorem test_memory_canonical :
    (blockQ.setBufferByte 0 0x10 0x99).mem = [(0x10, 0x99)] ∧
    ((blockQ.setBufferByte 0 0x10 0x99).setBufferByte 0 0x10 0x12).mem = [] ∧
    ((blockQ.setBufferByte 8 1 7).setBufferByte 0 2 9).mem = [(2, 9), (8 * 2 ^ 32 + 1, 7)] := by decide

/-! ### What is admitted (20_memory.md rule R34, 70_reset_and_hazards.md rule R241) -/

/-- Parameters that are admitted. -/
def goodParams : Params := ⟨configQ, 0x2000, 29, 0x1FF0, #v[19, 20, 21, 22, 23]⟩

/-- Whether construction admits a region list. -/
def admits (regions : List Region) : Bool := (State.construct { goodParams with regions := regions }).isSome

/-- Whether construction admits preset indices. -/
def admitsPresets (preset : Vector RegIdx 5) : Bool := (State.construct { goodParams with preset := preset }).isSome

theorem test_admitted : admits configQ = true ∧ admits [] = true ∧ (defaultParams defaultRom).wellFormed = true ∧
    defaultRom.wellFormed = true ∧ hasMapShape (defaultRegions defaultRom defaultRamSize) = true := by decide

theorem test_refuses_size_zero : admits [⟨0x1000, 0, .dummy⟩] = false ∧ admits [⟨0x1000, 1, .dummy⟩] = true := by
  decide

theorem test_refuses_range_past_the_end :
    admits [⟨0xFFFFF000, 0x1001, .dummy⟩] = false ∧ admits [⟨0xFFFFF000, 0x1000, .dummy⟩] = true := by decide

theorem test_refuses_contents_outside_the_buffer :
    admits [⟨0, 4, .readWriteData [(4, 1)]⟩] = false ∧ admits [⟨0, 4, .readOnlyData [(3, 1)]⟩] = true ∧
    admits [⟨0, 4, .readOnlyData [(4, 1)]⟩] = false := by decide

theorem test_refuses_contents_out_of_order :
    admits [⟨0, 4, .readWriteData [(2, 1), (1, 1)]⟩] = false ∧
    admits [⟨0, 4, .readOnlyData [(2, 1), (2, 1)]⟩] = false := by decide

theorem test_refuses_mirror_cycles : admits [⟨0x1000, 0x100, .mirror 0x1080⟩] = false ∧
    admits [⟨0x1000, 0x100, .mirror 0x2000⟩, ⟨0x2000, 0x100, .mirror 0x1000⟩] = false ∧
    admits [⟨0x1000, 0x100, .mirror 0x1100⟩] = true := by decide

/-- A rebased range that wraps past 2^32 counts (assumption log entry 9). -/
theorem test_refuses_wrapping_mirror_cycle : admits [⟨0, 0x100, .mirror 0xFFFFFFF0⟩] = false := by decide

theorem test_refuses_presets : admitsPresets #v[19, 20, 21, 22, 22] = false ∧
    admitsPresets #v[0, 20, 21, 22, 23] = false ∧ admitsPresets #v[19, 20, 29, 22, 23] = false ∧
    admitsPresets #v[23, 22, 21, 20, 19] = true := by decide

theorem test_refuses_short_rom : (⟨4095, []⟩ : Image).wellFormed = false ∧
    (⟨4096, [(4096, 1)]⟩ : Image).wellFormed = false ∧ (⟨4096, [(4095, 1)]⟩ : Image).wellFormed = true := by decide

theorem test_map_shape : hasMapShape configQ = false := by decide

/-- An ill-formed region list leaves a step with no next state (20_memory.md rule R38). -/
theorem test_mirror_loop_is_stuck :
    step (machine [⟨0, 0x100, .mirror 0⟩] [] 0) = .fault .mirrorLoop := rfl

/-! ### Reset (70_reset_and_hazards.md rule R241, 92_eei_decisions.md D29, D43) -/

theorem test_reset_registers :
    (State.reset.readReg 19, State.reset.readReg 20, State.reset.readReg 21, State.reset.readReg 22) =
      (0, 1, 0, 0x3F) ∧
    (State.reset.readReg 23, State.reset.readReg 29, State.reset.readReg 1, State.reset.readReg 0) =
      (0, 0xA4001FF0, 0, 0) ∧
    (State.reset.pc, State.reset.hi, State.reset.lo, State.reset.ll) = (0xA4000040, 0, 0, false) ∧
    (State.reset.sched, State.reset.run, State.reset.log) = (.idle, .running, []) := by decide

/-- The first step after reset runs a word placed from outside (assumption log entry 20); with nothing placed it runs
the word 0, a NOP, of the default ROM image (entry 2). -/
theorem test_first_step : (after (State.reset.withFetchWord 32 0x22A2FFFD)).map
      (fun t => (t.readReg 2, t.pc)) = some (0xFFFFFFFFFFFFFFFD, 0xA4000044) ∧
    (after State.reset).map (·.pc) = some 0xA4000044 := by decide

/-- The `reset` input keeps the outputs, the level of `run_request` and the draw counter (assumption log entry 22). -/
theorem test_reset_input :
    ({ program 0x00221820 [(1, 5)] with log := [.dummyRead 4], runRequest := false, draws := 3 } : State).applyReset
        goodParams =
      { State.initial goodParams with log := [.dummyRead 4], runRequest := false, draws := 3 } := by decide

/-! ### Pseudo-instructions (30_encoding.md rule R75) -/

theorem test_pseudo_words : decode 0x00000000 = .ok pseudoNop ∧ decode 0x00201825 = .ok (pseudoMove 3 1) ∧
    decode 0x2003FFFB = .ok (pseudoLi 3 0xFFFB) ∧ decode 0x1000FFFF = .ok (pseudoB 0xFFFF) ∧
    decode 0x04110004 = .ok (pseudoBal 4) ∧ decode 0x00011822 = .ok (pseudoNeg 3 1) ∧
    decode 0x00201827 = .ok (pseudoNot 3 1) := by decide

/-- LUI, ORI and ADDIU. -/
theorem test_constant_builders_are_decode_errors : decode 0x3C011234 = .error (.noHandler (.primary 0x0F)) ∧
    decode 0x34215678 = .error (.noHandler (.primary 0x0D)) ∧ decode 0x24210001 = .error (.noHandler (.primary 0x09)) := by
  decide

/-! ### Witnesses: concrete states and operands that meet the hypotheses of each obligation -/

theorem witness_DecodedWordsEncodeBack : decode 0x00221820 = .ok (.add 1 2 3 0) := by decide

/-- A key with a handler, and a key without one under a fetch. -/
theorem witness_TheKeysWithHandlersAreThose63 :
    fieldOp 0xBC220008 = 0x2F ∧ keyOf 0xFFFFFFFF = .primary 0x3F ∧ decode 0xFFFFFFFF = .error (.noHandler (.primary 0x3F)) ∧
    Stepping (program 0xFFFFFFFF []) ∧ (program 0xFFFFFFFF []).fetch = .ok (0xFFFFFFFF, program 0xFFFFFFFF []) := by
  refine ⟨by decide, by decide, by decide, ⟨rfl, rfl⟩, by decide⟩

theorem witness_OnlyTheKeySelectsTheHandler :
    keyOf 0x00221820 = keyOf 0x03FFFFE0 ∧ decode 0x00221820 = .ok (.add 1 2 3 0) := by decide

/-- Signed and unsigned operands away from the corners, at the most negative dividend and at the largest divisor. -/
theorem witness_SignedQuotientTruncatesTowardZero :
    (let s := machine [] [(1, 0x80000000), (2, 0x7FFFFFFF)] 0
     (low32 (s.readReg 2)).toInt ≠ 0 ∧
       ¬ ((low32 (s.readReg 1)).toInt = -2 ^ 31 ∧ (low32 (s.readReg 2)).toInt = -1)) ∧
    ((machine [] [(2, 0xFFFFFFFF)] 0).readReg 2).toNat % 2 ^ 32 ≠ 0 := by decide

theorem witness_SignedDivideOverflowTruncates :
    let s := machine [] [(1, 0x1280000000), (2, 0xFFFFFFFF)] 0
    low32 (s.readReg 1) = 0x80000000 ∧ low32 (s.readReg 2) = 0xFFFFFFFF := by decide

theorem witness_DivideByZeroCompletes : low32 ((machine [] [(2, 0x100000000)] 0).readReg 2) = 0 := by decide

/-- The last byte, halfword and word of plain RAM, and a word of a Dummy region. -/
theorem witness_LoadsExtendTheBigEndianValue :
    Readable (machine [ram [(0x3FFF, 0x80)]] [] 0) 0x3FFF [0x80] ∧
    Readable (machine [ram [(0x3FFF, 0x80)]] [] 0) 0x3FFE [0, 0x80] ∧
    Readable (machine [ram [(0x3FFF, 0x80)]] [] 0) 0x3FFC [0, 0, 0, 0x80] ∧
    Readable blockQ 0x5000 [0, 0, 0, 0] ∧
    BitVec.ofInt 32 (((machine [] [(1, 0x4000)] 0).readReg 1).toInt + (0xFFFF#16).toInt) = 0x3FFF#32 := by
  unfold Readable; decide

/-- Targets of one, two and four bytes: of a device, at the end of plain RAM, and over two regions. -/
theorem witness_LoadsCompleteWhereverTheBytesResolve :
    resolveAll configQ .read (accessAddrs 0x600F 1) = .ok [.device 6 15] ∧
    resolveAll configQ .read (accessAddrs 0x600C 4) =
      .ok [.device 6 12, .device 6 13, .device 6 14, .device 6 15] ∧
    resolveAll [ram []] .read (accessAddrs 0x3FFE 2) = .ok [.data 0 0x3FFE, .data 0 0x3FFF] ∧
    resolveAll configQ .read (accessAddrs 0x20FE 4) =
      .ok [.data 1 0xFE, .data 1 0xFF, .data 9 0x100, .data 9 0x101] := by decide

theorem witness_StoresWriteTheirBytesAndNoOthers : blockQ.memoryCanonical = true ∧
    resolveAll configQ .write (accessAddrs 0x600F 1) = .ok [.device 5 15] ∧
    resolveAll configQ .write (accessAddrs 0x0FFE 2) = .ok [.data 0 0xFFE, .data 0 0xFFF] ∧
    resolveAll configQ .write (accessAddrs 0x50FC 4) =
      .ok [.dummy 0x50FC, .dummy 0x50FD, .dummy 0x50FE, .dummy 0x50FF] := by decide

/-- One, two and four bytes that end past the end of plain RAM, for both intents. -/
theorem witness_UnmappedAccessHaltsWithNothingDone :
    (∀ intent ∈ [Intent.read, Intent.write],
      resolveAll [ram []] intent (accessAddrs 0x4000 1) = .error (.unmapped 0x4000) ∧
      resolveAll [ram []] intent (accessAddrs 0x3FFF 2) = .error (.unmapped 0x4000) ∧
      resolveAll [ram []] intent (accessAddrs 0x3FFD 4) = .error (.unmapped 0x4000)) ∧
    effectiveAddr ((machine [ram []] [(1, 0x4000)] 0).readReg 1) 0xFFFD = 0x3FFD := by decide

theorem witness_HandlersLeaveTheDriversStateAlone :
    exec (.j 4) blockQ = .next (blockQ.enqueue (.redirect 16)) ∧
    exec (.add 1 1 1 0) blockQ = .next (blockQ.writeReg 1 0) ∧
    ∃ t d, exec (.sw 1 2 0) (machine [ram []] [(1, 0x3FFD)] 0) = .next t ∧ t.run = .halted d :=
  ⟨by rfl, by rfl, _, _, by rfl, by rfl⟩

theorem witness_OnlyMultiplyDivideAndMovesTouchHiLo :
    exec (.mthi 1 0) (machine [] [(1, 5)] 0) = .next ((machine [] [(1, 5)] 0).writeHi 5) ∧
    ((machine [] [(1, 5)] 0).writeHi 5).hi ≠ (machine [] [(1, 5)] 0).hi := ⟨by rfl, by decide⟩

theorem witness_OnlyStoresChangeMemory :
    let s := machine [ram []] [(2, 7)] 0
    exec (.sb 1 2 5) s = .next (s.setBufferByte 0 5 7) ∧ (s.setBufferByte 0 5 7).mem ≠ s.mem :=
  ⟨by rfl, by decide⟩

/-- A handler that runs, one that halts, and one that is stuck in a self-Mirror no configuration admits. -/
def stuckLoad : State := machine [ram (wordAt 0x2000 0x80220000), ⟨0x8000, 4, .mirror 0x8000⟩] [(1, 0x8000)] 0x2000

theorem witness_StepRunsTheDecodedInstruction :
    (Stepping (program 0x00221820 []) ∧ (program 0x00221820 []).fetch = .ok (0x00221820, program 0x00221820 []) ∧
      decode 0x00221820 = .ok (.add 1 2 3 0) ∧ (program 0x00221820 []).sched = .idle) ∧
    (∃ t d, exec (.lw 1 2 0) (program 0x8C220000 [(1, 0x4000)]) = .next t ∧ t.run = .halted d) ∧
    (Stepping stuckLoad ∧ stuckLoad.fetch = .ok (0x80220000, stuckLoad) ∧ decode 0x80220000 = .ok (.lb 1 2 0) ∧
      exec (.lb 1 2 0) stuckLoad = .fault .mirrorLoop) :=
  ⟨⟨⟨rfl, rfl⟩, by decide, by decide, rfl⟩, ⟨_, _, by rfl, by rfl⟩, ⟨rfl, rfl⟩, by decide, by decide, by rfl⟩

theorem witness_FetchReadsTheBigEndianWordAtPc :
    Readable (program 0x12345678 []) (program 0x12345678 []).pc [0x12, 0x34, 0x56, 0x78] := by
  unfold Readable; decide

/-- A fetch whose last two bytes are unmapped, and one that is all unmapped. -/
theorem witness_UnmappedFetchHaltsWithNoWord :
    Stepping (machine [ram []] [] 0x3FFE) ∧
    resolveAll [ram []] .read (accessAddrs 0x3FFE 4) = .error (.unmapped 0x4000) ∧
    resolveAll [ram []] .read (accessAddrs 0x8000 4) = .error (.unmapped 0x8000) :=
  ⟨⟨rfl, rfl⟩, by decide, by decide⟩

theorem witness_UnknownKeyHaltsWithDecodeError :
    Stepping (program 0x3C011234 []) ∧ (program 0x3C011234 []).fetch = .ok (0x3C011234, program 0x3C011234 []) ∧
    ∀ i, decode 0x3C011234 ≠ .ok i :=
  ⟨⟨rfl, rfl⟩, by decide, fun i h => by
    rw [show decode 0x3C011234 = .error (.noHandler (.primary 0x0F)) by decide] at h; cases h⟩

/-- A jump in a delay slot with NoRedirect carried. -/
def slotJump : State := { program 0x03E00008 [] with sched := .pending .noRedirect }

theorem witness_BranchInADelaySlotHalts :
    Stepping slotJump ∧ slotJump.sched ≠ .idle ∧ slotJump.fetch = .ok (0x03E00008, slotJump) ∧
    decode 0x03E00008 = .ok (.jr 31 0) ∧ (Instr.jr 31 0).isControlTransfer = true :=
  ⟨⟨rfl, rfl⟩, by decide, by decide, by decide, rfl⟩

/-- The three states the scheduler can hold at a step that completes, and a step that halts. -/
theorem witness_PcAndSchedulerFollowTheTable :
    (∀ e, Stepping { program 0x00221820 [] with sched := e }) ∧ decode 0x00221820 = .ok (.add 1 2 3 0) ∧
    (∀ e ∈ [Sched.idle, .pending .noRedirect, .pending (.redirect 0x40)],
      let s := { program 0x00221820 [] with sched := e }
      s.fetch = .ok (0x00221820, s) ∧ (after s).map (·.run) = some .running) ∧
    (after slotJump).map (·.run) = some (.halted (.branchInDelaySlot 0x03E00008 0x2000)) :=
  ⟨fun _ => ⟨rfl, rfl⟩, by decide, by decide, by decide⟩

/-- A step for each of the three fatal conditions, UnmappedAddress at the fetch and at an access. -/
theorem witness_FatalConditionsChangeNothing :
    (∀ w, Stepping (program w [])) ∧ Stepping slotJump ∧ Stepping (machine [] [] 0) ∧
    (after (program 0xFFFFFFFF [])).map (·.run) = some (.halted (.decodeError 0xFFFFFFFF 0x2000)) ∧
    (after slotJump).map (·.run) = some (.halted (.branchInDelaySlot 0x03E00008 0x2000)) ∧
    (after (machine [] [] 0)).map (·.run) = some (.halted (.unmappedAddress none 0 0)) ∧
    (after (program 0xA4017FFF [])).map (·.run) =
      some (.halted (.unmappedAddress (some 0xA4017FFF) 0x2000 0x7FFF)) :=
  ⟨fun _ => ⟨rfl, rfl⟩, ⟨rfl, rfl⟩, ⟨rfl, rfl⟩, by decide, by decide, by decide, by decide⟩

/-- Running blocks that halt at the fetch and at a load. -/
theorem witness_OnlyTheListedEventsHalt :
    Stepping (machine [] [] 0) ∧ Stepping (program 0x8C220000 [(1, 0x4000)]) ∧
    (after (machine [] [] 0)).map (·.run) = some (.halted (.unmappedAddress none 0 0)) ∧
    (after (program 0x8C220000 [(1, 0x4000)])).map (·.run) =
      some (.halted (.unmappedAddress (some 0x8C220000) 0x2000 0x4000)) :=
  ⟨⟨rfl, rfl⟩, ⟨rfl, rfl⟩, by decide, by decide⟩

theorem witness_HaltedOrPausedBlocksHoldTheirState :
    ¬ Stepping { blockQ with run := .halted (.decodeError 0 0) } ∧ ¬ Stepping { blockQ with runRequest := false } :=
  ⟨fun h => (by cases h.1), fun h => (by cases h.2)⟩

theorem witness_WellFormedBlocksAlwaysStep : regionsWellFormed configQ = true := by decide

/-- The invariant holds of a state with a byte written, and that state steps. -/
theorem witness_StepKeepsTheInvariant :
    let s := (program 0xA0220005 [(2, 7)]).setBufferByte 0 9 1
    s.invariant = true ∧ (after s).map (·.mem) = some [(5, 7), (9, 1)] := by decide

theorem witness_ResetMeetsTheInvariant :
    State.construct goodParams = some (State.initial goodParams) := by decide

/-- A step of a block whose place 1 is a ReadOnlyData region, at the largest offset of its buffer. -/
theorem witness_RegionsAndReadOnlyBytesNeverChange :
    (after blockQ).isSome = true ∧
    (configQ[1]?).map (·.kind) = some (.readOnlyData
      [(0, 0xC0), (1, 0xC1), (2, 0xC2), (3, 0xC3), (4, 0xC4), (0xFE, 0xBE), (0xFF, 0xBF)]) := by decide

theorem witness_OutputsOnlyGrow : (after (program 0x0000000C [])).isSome = true := by decide

/-- A branch and a jump with the scheduler Idle, and the running steps of their slots. -/
theorem witness_TakenBranchTakesEffectAfterTheSlot :
    (let s := program 0x10220004 [(1, 9), (2, 9)]
     Stepping s ∧ s.sched = .idle ∧ s.fetch = .ok (0x10220004, s) ∧ decode 0x10220004 = .ok (.beq 1 2 4) ∧
       s.readReg 1 = s.readReg 2 ∧ ((after s).bind after).map (fun u => (u.run, u.pc)) = some (.running, 0x2014)) ∧
    (let s := program 0x0C000040 []
     Stepping s ∧ s.sched = .idle ∧ s.fetch = .ok (0x0C000040, s) ∧ decode 0x0C000040 = .ok (.jal 0x40) ∧
       ((after s).bind after).map (fun u => (u.run, u.pc)) = some (.running, 0x100)) :=
  ⟨⟨⟨rfl, rfl⟩, rfl, by decide, by decide, by decide, by decide⟩,
   ⟨⟨rfl, rfl⟩, rfl, by decide, by decide, by decide⟩⟩

/-- A fetch from a Dummy through a Mirror, its addresses rebased. -/
theorem witness_DummyFetchExecutesANop :
    Stepping (machine [⟨0x100, 8, .mirror 0xFFFFFFFE⟩, ⟨0xFFFFFFF0, 0x10, .dummy⟩, ⟨0, 0x10, .dummy⟩] [] 0x100) ∧
    resolveAll [⟨0x100, 8, .mirror 0xFFFFFFFE⟩, ⟨0xFFFFFFF0, 0x10, .dummy⟩, ⟨0, 0x10, .dummy⟩] .read
      (accessAddrs 0x100 4) = .ok [.dummy 0xFFFFFFFE, .dummy 0xFFFFFFFF, .dummy 0, .dummy 1] :=
  ⟨⟨rfl, rfl⟩, by decide⟩

/-- A match past a region that does not support the intent, a match of each sort at its last offset, and no match. -/
theorem witness_FirstMatchWins :
    (firstMatch 0x20FF .write 0 configQ).map (·.1) = some 9 ∧ (firstMatch 0x600F .read 0 configQ).map (·.1) = some 6 ∧
    (firstMatch 0x600F .write 0 configQ).map (·.1) = some 5 ∧ (firstMatch 0x50FF .read 0 configQ).map (·.1) = some 4 ∧ (firstMatch 0x2000 .read 0 configQ).map (·.1) = some 1 ∧
    firstMatch 0x9000 .read 0 configQ = none := by decide

theorem witness_ResolutionEndsOnWellFormedLists :
    regionsWellFormed configQ = true ∧ resolve configQ 0x4012 .read = .target (.data 0 0x12) := by decide

/-- Both sides of the equivalence: a list with a chain of two Mirrors, and one with a cycle of two. -/
theorem witness_MirrorClauseForbidsExactlyTheCycles :
    mirrorsAcyclic configQ = true ∧
    mirrorsAcyclic [⟨0x1000, 0x100, .mirror 0x2000⟩, ⟨0x2000, 0x100, .mirror 0x1000⟩] = false := by decide

theorem witness_MirrorsReadAndWriteWhatTheyLeadTo :
    regionsWellFormed configQ = true ∧
    firstMatch 0x4012 .read 0 configQ = some (3, ⟨0x4000, 0x100, .mirror 0x3000⟩) ∧
    firstMatch 0x40FF .write 0 configQ = some (3, ⟨0x4000, 0x100, .mirror 0x3000⟩) ∧
    blockQ.peek 0x4012 = some 0x56 ∧ blockQ.peek 0x3012 = some 0x56 := by decide

/-- Each kind of target, for both intents, at the last offset of a region, a Dummy, and no region behind a Mirror. -/
theorem witness_TargetsLieInsideTheirRegions :
    resolve configQ 0x20FF .read = .target (.data 1 0xFF) ∧ resolve configQ 0x20FF .write = .target (.data 9 0xFF) ∧
    resolve configQ 0x600F .read = .target (.device 6 15) ∧
    resolve configQ 0x600F .write = .target (.device 5 15) ∧
    resolve configQ 0x50FF .write = .target (.dummy 0x50FF) ∧
    resolve configQ 0x8000 .read = .noRegion := by decide

/-- An access whose bytes resolve to consecutive offsets of one ReadWriteData region is storage backed. -/
theorem storageBacked_of_targets {regions : List Region} {a : Addr} {n k : Nat}
    (h : ∀ i < n, ∀ intent, resolve regions (a + BitVec.ofNat 32 i) intent =
      .target (.data k (a.toNat + i))) : StorageBacked regions a n := by
  refine ⟨fun x hx => ?_, ?_⟩
  · obtain ⟨i, hi, rfl⟩ := List.mem_map.1 hx
    exact ⟨_, _, h i (List.mem_range.1 hi) _, h i (List.mem_range.1 hi) _⟩
  · refine List.pairwise_map.2 (List.Pairwise.imp_of_mem ?_ (List.pairwise_lt_range (n := n)))
    intro i j hi hj hlt e
    rw [h i (List.mem_range.1 hi), h j (List.mem_range.1 hj)] at e
    simp at e
    omega

/-- One, two and four bytes at the end of a region. -/
theorem witness_WriteThenReadReturnsTheValue : blockQ.memoryCanonical = true ∧
    StorageBacked configQ 0xFFF 1 ∧ StorageBacked configQ 0xFFE 2 ∧ StorageBacked configQ 0xFFC 4 := by
  refine ⟨by decide, ?_, ?_, ?_⟩ <;> refine storageBacked_of_targets (k := 0) fun i hi intent => ?_ <;>
    interval_cases i <;> cases intent <;> decide

theorem witness_StoredWordIsFetchedNext :
    let s := machine [ram []] [(1, 0x3FFC), (2, 0x00221820)] 0
    s.memoryCanonical = true ∧ StorageBacked s.regions (effectiveAddr (s.readReg 1) 0) 4 := by
  refine ⟨by decide, storageBacked_of_targets (k := 0) fun i hi intent => ?_⟩
  interval_cases i <;> cases intent <;> decide

/-- Admitted parameters whose stack pointer is r0, and each way the presets are refused. -/
theorem witness_ResetPutsEveryPieceAtItsValue :
    (State.construct { goodParams with spIndex := 0 }).isSome = true ∧
    (∃ i j : Fin 5, i ≠ j ∧ (#v[19, 20, 21, 22, 22] : Vector RegIdx 5)[i] = #v[19, 20, 21, 22, 22][j]) ∧
    (∃ i : Fin 5, (#v[0, 20, 21, 22, 23] : Vector RegIdx 5)[i] = 0) ∧
    ∃ i : Fin 5, (#v[19, 20, 29, 22, 23] : Vector RegIdx 5)[i] = goodParams.spIndex := by decide

/-- A region that meets each of the four conditions. -/
theorem witness_IllFormedRegionsAreRefused :
    (⟨0, 0, .dummy⟩ : Region).size = 0 ∧ 2 ^ 32 < (⟨0xFFFFFFFF, 2, .dummy⟩ : Region).start.toNat + 2 ∧
    (∃ c ∈ [((4 : Nat), (1 : Byte))], 4 ≤ c.1) ∧
    mirrorArrow ⟨0x1000, 0x100, .mirror 0x1080⟩ ⟨0x1000, 0x100, .mirror 0x1080⟩ = true := by decide

/-- A ROM image with bytes at both ends of the header and after it. -/
theorem witness_DefaultMapHoldsTheRomHeader :
    let rom : Image := ⟨0x2000, [(0, 0x80), (0xFFF, 0x7F), (0x1000, 1)]⟩
    rom.wellFormed = true ∧ (State.construct (defaultParams rom)).isSome = true := by decide

/-- A fetch of each of LUI, ORI and ADDIU. -/
theorem witness_PseudoInstructionsActAsTheirExpansions :
    (∀ w, Stepping (program w [])) ∧
    ∀ op ∈ ([0x0F, 0x0D, 0x09] : List (BitVec 6)),
      (program (op ++ 0x211234#26).toNat []).fetch =
        .ok (op ++ 0x211234#26, program (op ++ 0x211234#26).toNat []) :=
  ⟨fun _ => ⟨rfl, rfl⟩, by decide⟩

end Sys2Proof.Tests
end

/-! # The block's state: what every step keeps and what it appends (10_state.md) -/

namespace Sys2Proof.Machine

/-! ### The driver's functions, an equation per case (40_dispatch_step.md rule R84) -/

theorem finish_of_running {s t : State} (h : t.run = .running) :
    s.finish t = { t with pc := nextPc s.sched t.pc } := by
  unfold State.finish
  rw [h]

theorem finish_of_halted {s t : State} {d : Diagnostic} (h : t.run = .halted d) : s.finish t = s.halt d := by
  unfold State.finish
  rw [h]

theorem issue_of_slot {i : Instr} {s : State} (word : InstrWord)
    (hslot : s.sched ≠ .idle ∧ i.isControlTransfer = true) :
    s.issue exec word i = .next (s.halt (.branchInDelaySlot word s.pc)) := if_pos hslot

theorem issue_of_exec_next {i : Instr} {s t : State} (word : InstrWord)
    (hslot : ¬ (s.sched ≠ .idle ∧ i.isControlTransfer = true)) (h : exec i { s with sched := .idle } = .next t) :
    s.issue exec word i = .next (s.finish t) := by
  unfold State.issue
  rw [if_neg hslot, h]

theorem issue_of_exec_fault {i : Instr} {s : State} {f : Fault} (word : InstrWord)
    (hslot : ¬ (s.sched ≠ .idle ∧ i.isControlTransfer = true)) (h : exec i { s with sched := .idle } = .fault f) :
    s.issue exec word i = .fault f := by
  unfold State.issue
  rw [if_neg hslot, h]

theorem step_of_fetch_error {s : State} {f : AccessFailure} (h : Stepping s) (hf : s.fetch = .error f) :
    step s = s.failAccess none f := by
  rw [step_of_stepping h, hf]

theorem step_of_decode_error {s s1 : State} {w : InstrWord} {r : Reject} (h : Stepping s)
    (hf : s.fetch = .ok (w, s1)) (hd : decode w = .error r) : step s = .next (s1.halt (.decodeError w s.pc)) := by
  simp only [step_of_stepping h, hf, hd]

theorem step_of_decode_ok {s s1 : State} {w : InstrWord} {i : Instr} (h : Stepping s)
    (hf : s.fetch = .ok (w, s1)) (hd : decode w = .ok i) : step s = s1.issue exec w i := by
  simp only [step_of_stepping h, hf, hd]

/-! ### The invariant depends on the regions, the cells, r0's entry and LL -/

theorem invariant_iff (s : State) : s.invariant = true ↔
    regionsWellFormed s.regions = true ∧ s.memoryCanonical = true ∧ s.onlyWritableListed = true ∧
      s.regs[0] = 0 ∧ s.ll = false := by
  simp [State.invariant, and_assoc]

theorem invariant_congr {s t : State} (hregions : t.regions = s.regions) (hmem : t.mem = s.mem)
    (hzero : t.regs[0] = s.regs[0]) (hll : t.ll = s.ll) : t.invariant = s.invariant := by
  simp only [State.invariant, State.memoryCanonical, State.onlyWritableListed, hregions, hmem, hzero, hll]

theorem ReadsOnly.invariant {s t : State} (h : ReadsOnly s t) : t.invariant = s.invariant := by
  rw [h]; rfl

theorem writeReg_invariant (s : State) (i : RegIdx) (v : Word) : (s.writeReg i v).invariant = s.invariant :=
  invariant_congr rfl rfl (putReg_zero s.regs i v) rfl

@[simp] theorem halt_invariant (s : State) (d : Diagnostic) : (s.halt d).invariant = s.invariant := rfl

/-! ### Stores write only ReadWriteData buffers (20_memory.md rule R41) -/

/-- Every Data target of a resolved write access lies in a ReadWriteData buffer. -/
theorem resolveAll_write_inWritableBuffer {regions : List Region} {as : List Addr} {ts : List Target}
    (h : resolveAll regions .write as = .ok ts) {k off : Nat} (ht : .data k off ∈ ts) :
    inWritableBuffer regions (cellKey k off) = true := by
  rw [resolveAll_ok_iff] at h
  induction h with
  | nil => cases ht
  | cons hr _ ih =>
    rcases List.mem_cons.1 ht with rfl | ht
    · exact resolve_write_inWritableBuffer hr
    · exact ih ht

theorem writeTarget_onlyWritableListed {s : State} {t : Target} (b : Byte)
    (ht : ∀ k off, t = .data k off → inWritableBuffer s.regions (cellKey k off) = true)
    (h : s.onlyWritableListed = true) : (s.writeTarget t b).onlyWritableListed = true := by
  cases t with
  | data k off =>
    refine List.all_eq_true.2 fun c hc => ?_
    rcases Memory.mem_set hc with ⟨rfl, -⟩ | hc
    · exact ht k off rfl
    · exact List.all_eq_true.1 h c hc
  | dummy a => exact h
  | device k off => exact h

theorem writeTargets_onlyWritableListed {s : State} {ws : List (Target × Byte)}
    (hw : ∀ w ∈ ws, ∀ k off, w.1 = .data k off → inWritableBuffer s.regions (cellKey k off) = true)
    (h : s.onlyWritableListed = true) : (s.writeTargets ws).onlyWritableListed = true := by
  induction ws generalizing s with
  | nil => exact h
  | cons w ws ih =>
    have hregions := (writeTarget_writesOnly s w.1 w.2).regions
    exact ih (fun v hv => hregions ▸ hw v (List.mem_cons_of_mem w hv))
      (writeTarget_onlyWritableListed w.2 (hw w List.mem_cons_self) h)

/-- A store whose bytes all resolve keeps the invariant. -/
theorem writeTargets_invariant {s : State} {as : List Addr} {ts : List Target} (bytes : List Byte)
    (hts : resolveAll s.regions .write as = .ok ts) (h : s.invariant = true) :
    (s.writeTargets (ts.zip bytes)).invariant = true := by
  obtain ⟨hregions, hcanonical, hlisted, hzero, hll⟩ := (invariant_iff s).1 h
  have hframe := writeTargets_writesOnly s (ts.zip bytes)
  have hwritable : ∀ w ∈ ts.zip bytes, ∀ k off, w.1 = .data k off →
      inWritableBuffer s.regions (cellKey k off) = true := fun w hw k off hdata =>
    resolveAll_write_inWritableBuffer hts (hdata ▸ (List.of_mem_zip hw).1)
  refine (invariant_iff _).2 ⟨?_, writeTargets_memoryCanonical _ hcanonical,
    writeTargets_onlyWritableListed hwritable hlisted, ?_, ?_⟩
  · rw [hframe]; exact hregions
  · rw [hframe]; exact hzero
  · rw [hframe]; exact hll

/-! ### Handlers and steps keep the invariant -/

theorem HandlerEffect.invariant {i : Instr} {s t : State} (h : HandlerEffect i s t) (hs : s.invariant = true) :
    t.invariant = true := by
  cases h with
  | register rd v => rw [writeReg_invariant, hs]
  | accumulators => exact hs
  | schedule e rd v => exact (writeReg_invariant s rd v).trans hs
  | log => exact hs
  | load rs rt imm n ts v => rw [writeReg_invariant, (readTargets_readsOnly s ts).invariant, hs]
  | store rs rt imm n ts hi hct hts => exact writeTargets_invariant _ hts hs
  | unmapped => exact hs

/-- The end of a step keeps what the state before the handler and the handler's own keep. -/
theorem finish_invariant {s t : State} (hs : s.invariant = true) (ht : t.invariant = true) :
    (s.finish t).invariant = true := by
  cases hrun : t.run with
  | running => rw [finish_of_running hrun]; exact ht
  | halted d => rw [finish_of_halted hrun, halt_invariant, hs]

theorem StepEnd.invariant {s s' : State} (h : StepEnd s s') (hs : s.invariant = true) : s'.invariant = true := by
  have fetched {w : InstrWord} {s1 : State} (hf : s.fetch = .ok (w, s1)) : s1.invariant = true :=
    (fetch_readsOnly hf).invariant.trans hs
  cases h with
  | unmappedFetch => exact hs
  | decodeError w s1 hf => rw [halt_invariant, fetched hf]
  | branchInDelaySlot w s1 i hf => rw [halt_invariant, fetched hf]
  | handled w s1 i t hf _ _ he =>
    have hs1 := fetched hf
    exact finish_invariant hs1 ((exec_effect he).invariant hs1)

/-- Settles O42: by the ends a step can have (`step_end`); only stores touch the cells, and they write only
ReadWriteData buffers. -/
theorem stepKeepsTheInvariant : Obligations.StepKeepsTheInvariant := by
  intro s s' hs hstep
  by_cases hrun : Stepping s
  · exact (step_end hrun hstep).invariant hs
  · rw [step_of_not_stepping hrun] at hstep
    cases hstep
    exact hs

/-! ### What a handler keeps of HI, LO and memory -/

theorem HandlerEffect.hi_lo_kept_or_writesHiLo {i : Instr} {s t : State} (h : HandlerEffect i s t) :
    (t.hi = s.hi ∧ t.lo = s.lo) ∨ writesHiLo i := by
  cases h with
  | register => exact .inl ⟨rfl, rfl⟩
  | accumulators hi lo draws hct hw => exact .inr hw
  | schedule => exact .inl ⟨rfl, rfl⟩
  | log => exact .inl ⟨rfl, rfl⟩
  | load rs rt imm n ts v =>
    rw [readTargets_readsOnly s ts]
    exact .inl ⟨rfl, rfl⟩
  | store rs rt imm n ts =>
    rw [writeTargets_writesOnly s _]
    exact .inl ⟨rfl, rfl⟩
  | unmapped => exact .inl ⟨rfl, rfl⟩

/-- Settles O30: every effect of a handler but the one on the accumulators keeps HI and LO. -/
theorem onlyMultiplyDivideAndMovesTouchHiLo : Obligations.OnlyMultiplyDivideAndMovesTouchHiLo := by
  intro i s t h hne
  rcases (exec_effect h).hi_lo_kept_or_writesHiLo with ⟨hhi, hlo⟩ | hw
  · exact (hne.elim (· hhi) (· hlo)).elim
  · exact hw

theorem HandlerEffect.mem_kept_or_isStore {i : Instr} {s t : State} (h : HandlerEffect i s t) :
    t.mem = s.mem ∨ ∃ n rs rt imm, isStore i n rs rt imm := by
  cases h with
  | register => exact .inl rfl
  | accumulators => exact .inl rfl
  | schedule => exact .inl rfl
  | log => exact .inl rfl
  | load rs rt imm n ts v =>
    rw [readTargets_readsOnly s ts]
    exact .inl rfl
  | store rs rt imm n ts hi => exact .inr ⟨n, rs, rt, imm, hi⟩
  | unmapped => exact .inl rfl

/-- Settles O31: every effect of a handler but a store's keeps the cells. -/
theorem onlyStoresChangeMemory : Obligations.OnlyStoresChangeMemory := by
  intro i s t h hne
  rcases (exec_effect h).mem_kept_or_isStore with hmem | ⟨n, rs, rt, imm, hstore⟩
  · exact absurd hmem hne
  · rcases hstore with ⟨-, hi⟩ | ⟨-, hi⟩ | ⟨-, hi⟩
    · exact ⟨rs, rt, imm, .inl hi⟩
    · exact ⟨rs, rt, imm, .inr (.inl hi)⟩
    · exact ⟨rs, rt, imm, .inr (.inr hi)⟩

/-! ### The outputs are appended to and never read (10_state.md rule R21)

One property says both: a function of the state appends records that its state decides without its histories, and what
else it answers does not depend on the histories either. -/

/-- The state with other histories of the log port and of the device calls. -/
def State.withOutputs (s : State) (log : List LogRecord) (calls : List DeviceEvent) : State :=
  { s with log := log, deviceLog := calls }

section
variable (s : State) (log : List LogRecord) (calls : List DeviceEvent)

@[simp] theorem State.withOutputs_pc : (s.withOutputs log calls).pc = s.pc := rfl
@[simp] theorem State.withOutputs_run : (s.withOutputs log calls).run = s.run := rfl
@[simp] theorem State.withOutputs_regions : (s.withOutputs log calls).regions = s.regions := rfl
@[simp] theorem readReg_withOutputs (r : RegIdx) : (s.withOutputs log calls).readReg r = s.readReg r := rfl

end

/-- The answer with other histories in its next state. -/
def answerWithOutputs (r : Result) (log : List LogRecord) (calls : List DeviceEvent) : Result :=
  match r with
  | .next t => .next (t.withOutputs log calls)
  | .fault f => .fault f
  | .refused q => .refused q

/-- From `s` with any histories, `f` answers as from `s` and appends the same records and calls. -/
def AppendsOutputs (f : State → Result) (s : State) : Prop :=
  ∃ l e, ∀ log calls, f (s.withOutputs log calls) = answerWithOutputs (f s) (log ++ l) (calls ++ e)

/-- What leaves the histories as they are appends nothing to them. -/
theorem AppendsOutputs.of_kept {f : State → Result} {s : State}
    (h : ∀ log calls, f (s.withOutputs log calls) = answerWithOutputs (f s) log calls) : AppendsOutputs f s :=
  ⟨[], [], fun log calls => by rw [List.append_nil, List.append_nil, h]⟩

theorem readTarget_withOutputs (s : State) (t : Target) (log : List LogRecord) (calls : List DeviceEvent) :
    (s.withOutputs log calls).readTarget t = ((s.readTarget t).1,
      (s.readTarget t).2.withOutputs (log ++ dummyTargetReads [t]) (calls ++ deviceReads [t])) := by
  cases t <;>
    simp [State.readTarget, State.withOutputs, State.bufferByte, State.emit, State.callDevice, dummyTargetReads,
      deviceReads]

theorem readTargets_withOutputs (s : State) (ts : List Target) (log : List LogRecord) (calls : List DeviceEvent) :
    (s.withOutputs log calls).readTargets ts = ((s.readTargets ts).1,
      (s.readTargets ts).2.withOutputs (log ++ dummyTargetReads ts) (calls ++ deviceReads ts)) := by
  induction ts generalizing s log calls with
  | nil => simp [State.readTargets, dummyTargetReads, deviceReads]
  | cons t ts ih =>
    have hlog : dummyTargetReads (t :: ts) = dummyTargetReads [t] ++ dummyTargetReads ts :=
      List.filterMap_append (l := [t])
    have hcalls : deviceReads (t :: ts) = deviceReads [t] ++ deviceReads ts := List.filterMap_append (l := [t])
    simp only [State.readTargets, readTarget_withOutputs, ih, hlog, hcalls, List.append_assoc]

theorem writeTarget_withOutputs (s : State) (t : Target) (b : Byte) (log : List LogRecord)
    (calls : List DeviceEvent) : (s.withOutputs log calls).writeTarget t b =
      (s.writeTarget t b).withOutputs (log ++ dummyWrites [(t, b)]) (calls ++ deviceWrites [(t, b)]) := by
  cases t <;>
    simp [State.writeTarget, State.withOutputs, State.setBufferByte, State.emit, State.callDevice, dummyWrites,
      deviceWrites]

theorem writeTargets_withOutputs (s : State) (ws : List (Target × Byte)) (log : List LogRecord)
    (calls : List DeviceEvent) : (s.withOutputs log calls).writeTargets ws =
      (s.writeTargets ws).withOutputs (log ++ dummyWrites ws) (calls ++ deviceWrites ws) := by
  induction ws generalizing s log calls with
  | nil => simp [State.writeTargets, dummyWrites, deviceWrites]
  | cons w ws ih =>
    have hlog : dummyWrites (w :: ws) = dummyWrites [w] ++ dummyWrites ws := List.filterMap_append (l := [w])
    have hcalls : deviceWrites (w :: ws) = deviceWrites [w] ++ deviceWrites ws := List.filterMap_append (l := [w])
    simp only [State.writeTargets, writeTarget_withOutputs, ih, hlog, hcalls, List.append_assoc]

/-- A memory read finds the same bytes and appends the same records whatever the histories hold. -/
theorem memRead_withOutputs (s : State) (a : Addr) (n : Nat) :
    (∃ bytes s1 l e, s.memRead a n = .ok (bytes, s1) ∧
      ∀ log calls, (s.withOutputs log calls).memRead a n = .ok (bytes, s1.withOutputs (log ++ l) (calls ++ e))) ∨
    (∃ f, s.memRead a n = .error f ∧ ∀ log calls, (s.withOutputs log calls).memRead a n = .error f) := by
  unfold State.memRead
  simp only [State.withOutputs_regions]
  cases resolveAll s.regions .read (accessAddrs a n) with
  | ok ts =>
    exact .inl ⟨_, _, _, _, rfl, fun log calls => congrArg Except.ok (readTargets_withOutputs s ts log calls)⟩
  | error f => exact .inr ⟨f, rfl, fun _ _ => rfl⟩

theorem failAccess_appendsOutputs (word : Option InstrWord) (f : AccessFailure) (s : State) :
    AppendsOutputs (fun t => t.failAccess word f) s := by
  cases f with
  | unmapped a => exact .of_kept fun _ _ => rfl
  | loop => exact .of_kept fun _ _ => rfl

theorem loadOp_appendsOutputs (word : InstrWord) (n : Nat) (extend : List Byte → Word) (rs rt : RegIdx)
    (imm : BitVec 16) (s : State) : AppendsOutputs (loadOp word n extend rs rt imm) s := by
  rcases memRead_withOutputs s (effectiveAddr (s.readReg rs) imm) n with ⟨bytes, s1, l, e, hr, hr'⟩ | ⟨f, hr, hr'⟩
  · refine ⟨l, e, fun log calls => ?_⟩
    simp only [loadOp, readReg_withOutputs, hr, hr']
    rfl
  · obtain ⟨l, e, hfail⟩ := failAccess_appendsOutputs (some word) f s
    refine ⟨l, e, fun log calls => ?_⟩
    simp only [loadOp, readReg_withOutputs, hr, hr', hfail]

theorem storeOp_appendsOutputs (word : InstrWord) (n : Nat) (rs rt : RegIdx) (imm : BitVec 16) (s : State) :
    AppendsOutputs (storeOp word n rs rt imm) s := by
  cases hall : resolveAll s.regions .write (accessAddrs (effectiveAddr (s.readReg rs) imm) n) with
  | ok ts =>
    let ws := ts.zip (bytesOf n (s.readReg rt))
    refine ⟨dummyWrites ws, deviceWrites ws, fun log calls => ?_⟩
    simp only [storeOp, State.memWrite, readReg_withOutputs, State.withOutputs_regions, hall, writeTargets_withOutputs]
    rfl
  | error f =>
    obtain ⟨l, e, hfail⟩ := failAccess_appendsOutputs (some word) f s
    refine ⟨l, e, fun log calls => ?_⟩
    simp only [storeOp, State.memWrite, readReg_withOutputs, State.withOutputs_regions, hall, hfail]

theorem stubOp_appendsOutputs (word : InstrWord) (s : State) : AppendsOutputs (stubOp word) s :=
  ⟨[.unimplementedInstruction word s.pc], [], fun log calls => by rw [List.append_nil]; rfl⟩

/-- No handler reads the histories: the loads, the stores and the stubs append to them, the others keep them. -/
theorem exec_appendsOutputs (i : Instr) (s : State) : AppendsOutputs (exec i) s := by
  cases i with
  | lb | lbu | lh | lhu | lw | lwu => exact loadOp_appendsOutputs _ _ _ _ _ _ s
  | sb | sh | sw => exact storeOp_appendsOutputs _ _ _ _ _ s
  | syscall | brk | cache | mfc0 | mtc0 | lwl | lwr | swl | swr => exact stubOp_appendsOutputs _ s
  | div rs rt ign =>
    refine .of_kept fun log calls => ?_
    by_cases hzero : (low32 (s.readReg rt)).toInt = 0 <;>
      simp only [exec, execDiv, readReg_withOutputs, hzero, reduceIte] <;> rfl
  | divu rs rt ign =>
    refine .of_kept fun log calls => ?_
    by_cases hzero : (low32 (s.readReg rt)).toNat = 0 <;>
      simp only [exec, execDivu, readReg_withOutputs, hzero, reduceIte] <;> rfl
  | _ => exact .of_kept fun _ _ => rfl

theorem fetch_withOutputs (s : State) :
    (∃ w s1 l e, s.fetch = .ok (w, s1) ∧
      ∀ log calls, (s.withOutputs log calls).fetch = .ok (w, s1.withOutputs (log ++ l) (calls ++ e))) ∨
    (∃ f, s.fetch = .error f ∧ ∀ log calls, (s.withOutputs log calls).fetch = .error f) := by
  unfold State.fetch
  rcases memRead_withOutputs s s.pc 4 with ⟨bytes, s1, l, e, hr, hr'⟩ | ⟨f, hr, hr'⟩
  · exact .inl ⟨_, s1, l, e, by rw [hr], fun log calls => by rw [State.withOutputs_pc, hr']⟩
  · exact .inr ⟨f, by rw [hr], fun log calls => by rw [State.withOutputs_pc, hr']⟩

/-- Issuing an instruction appends what its handler appends, or nothing where the step is abandoned. -/
theorem issue_appendsOutputs (word : InstrWord) (i : Instr) (s : State) :
    AppendsOutputs (State.issue exec word i) s := by
  by_cases hslot : s.sched ≠ .idle ∧ i.isControlTransfer = true
  · refine .of_kept fun log calls => ?_
    have hslot' : (s.withOutputs log calls).sched ≠ .idle ∧ i.isControlTransfer = true := hslot
    rw [issue_of_slot word hslot, issue_of_slot word hslot']
    rfl
  · obtain ⟨l, e, hexec⟩ := exec_appendsOutputs i { s with sched := .idle }
    have hslot' : ∀ log calls, ¬ ((s.withOutputs log calls).sched ≠ .idle ∧ i.isControlTransfer = true) :=
      fun _ _ => hslot
    rcases exec_cases i { s with sched := .idle } with ⟨t, ht, -⟩ | ⟨ht, -⟩ <;> rw [ht] at hexec
    · cases hrun : t.run with
      | running =>
        refine ⟨l, e, fun log calls => ?_⟩
        rw [issue_of_exec_next word hslot ht, issue_of_exec_next word (hslot' log calls) (hexec log calls),
          finish_of_running hrun, finish_of_running ((State.withOutputs_run _ _ _).trans hrun)]
        rfl
      | halted d =>
        refine .of_kept fun log calls => ?_
        rw [issue_of_exec_next word hslot ht, issue_of_exec_next word (hslot' log calls) (hexec log calls),
          finish_of_halted hrun, finish_of_halted ((State.withOutputs_run _ _ _).trans hrun)]
        rfl
    · refine .of_kept fun log calls => ?_
      rw [issue_of_exec_fault word hslot ht, issue_of_exec_fault word (hslot' log calls) (hexec log calls)]
      rfl

/-- A step appends to the histories and reads nothing of them: first the fetch does, then the issued instruction. -/
theorem step_appendsOutputs (s : State) : AppendsOutputs step s := by
  by_cases hrun : Stepping s
  · have hrun' : ∀ log calls, Stepping (s.withOutputs log calls) := fun _ _ => hrun
    rcases fetch_withOutputs s with ⟨w, s1, l, e, hf, hf'⟩ | ⟨f, hf, hf'⟩
    · cases hd : decode w with
      | error r =>
        refine ⟨l, e, fun log calls => ?_⟩
        rw [step_of_decode_error hrun hf hd, step_of_decode_error (hrun' log calls) (hf' log calls) hd]
        rfl
      | ok i =>
        obtain ⟨l', e', hissue⟩ := issue_appendsOutputs w i s1
        refine ⟨l ++ l', e ++ e', fun log calls => ?_⟩
        rw [step_of_decode_ok hrun hf hd, step_of_decode_ok (hrun' log calls) (hf' log calls) hd, hissue,
          List.append_assoc, List.append_assoc]
    · obtain ⟨l, e, hfail⟩ := failAccess_appendsOutputs none f s
      refine ⟨l, e, fun log calls => ?_⟩
      rw [step_of_fetch_error hrun hf, step_of_fetch_error (hrun' log calls) (hf' log calls)]
      exact hfail log calls
  · refine .of_kept fun log calls => ?_
    have hrun' : ¬ Stepping (s.withOutputs log calls) := hrun
    rw [step_of_not_stepping hrun, step_of_not_stepping hrun']
    rfl

/-- Settles O45: a step's answer is the same from every pair of histories, with the same records appended; from the
state's own histories that is the growth. -/
theorem outputsOnlyGrow : Obligations.OutputsOnlyGrow := by
  intro s s' hstep
  obtain ⟨l, e, h⟩ := step_appendsOutputs s
  rw [hstep] at h
  have own : Host.Outcome.next s' = answerWithOutputs (.next s') (s.log ++ l) (s.deviceLog ++ e) :=
    hstep.symm.trans (h s.log s.deviceLog)
  have hs' : s' = s'.withOutputs (s.log ++ l) (s.deviceLog ++ e) := Host.Outcome.next.inj own
  exact ⟨⟨l, congrArg State.log hs'⟩, ⟨e, congrArg State.deviceLog hs'⟩, fun log calls => ⟨_, _, h log calls⟩⟩

/-! ### The invariant at reset (70_reset_and_hazards.md rule R241) -/

theorem foldl_putReg_zero (writes : List (RegIdx × Word)) (regs : Vector Word 32) :
    (writes.foldl (fun regs iv => putReg regs iv.1 iv.2) regs)[0] = regs[0] := by
  induction writes generalizing regs with
  | nil => rfl
  | cons iv writes ih => exact (ih _).trans (putReg_zero regs iv.1 iv.2)

theorem resetRegs_zero (p : Params) : (resetRegs p)[0] = 0 := by
  unfold resetRegs
  rw [putReg_zero, foldl_putReg_zero, Vector.getElem_replicate]

theorem initial_invariant {p : Params} (h : regionsWellFormed p.regions = true) :
    (State.initial p).invariant = true :=
  (invariant_iff _).2 ⟨h, rfl, rfl, resetRegs_zero p, rfl⟩

/-- Settles O43: an admitted configuration has a well-formed region list, and the default one is admitted. -/
theorem resetMeetsTheInvariant : Obligations.ResetMeetsTheInvariant := by
  refine ⟨fun p s hs => ?_, initial_invariant (by decide)⟩
  unfold State.construct at hs
  split at hs
  · next hp =>
    cases hs
    exact initial_invariant (Bool.and_eq_true_iff.1 hp).1
  · cases hs

end Sys2Proof.Machine

/-! # The address space: the resolver, Mirrors, and what the buffers keep (20_memory.md) -/

namespace Sys2Proof.Machine

/-! ### The first match (20_memory.md rules R35, R36) -/

/-- The table of 20_memory.md rule R35. -/
theorem supports_iff (kind : RegionKind) (intent : Intent) : supports kind intent = true ↔
    kind = .dummy ∨ (∃ init, kind = .readWriteData init) ∨ kind = .readWriteDevice ∨
      (∃ target, kind = .mirror target) ∨
      (intent = .read ∧ ((∃ init, kind = .readOnlyData init) ∨ kind = .readOnlyDevice)) ∨
      (intent = .write ∧ kind = .writeOnlyDevice) := by
  cases kind <;> cases intent <;> simp [supports]

/-- The region covers the address and its kind supports the intent. -/
def RegionMatches (a : Addr) (intent : Intent) (r : Region) : Prop :=
  covers r a = true ∧ supports r.kind intent = true

section
variable {a : Addr} {intent : Intent} {regions : List Region} {r : Region} {n : Nat}

theorem firstMatch_cons_of_matches (rest : List Region) (h : RegionMatches a intent r) :
    firstMatch a intent n (r :: rest) = some (n, r) :=
  if_pos (Bool.and_eq_true_iff.2 h)

theorem firstMatch_cons_of_not_matches (rest : List Region) (h : ¬ RegionMatches a intent r) :
    firstMatch a intent n (r :: rest) = firstMatch a intent (n + 1) rest :=
  if_neg fun hc => h (Bool.and_eq_true_iff.1 hc)

/-- The search from place `n` on finds the region at place `n + i` exactly when it is the first that matches. -/
theorem firstMatch_eq_some_iff {i : Nat} : firstMatch a intent n regions = some (n + i, r) ↔
    regions[i]? = some r ∧ RegionMatches a intent r ∧
      ∀ j r', j < i → regions[j]? = some r' → ¬ RegionMatches a intent r' := by
  induction regions generalizing n i with
  | nil => simp [firstMatch]
  | cons x rest ih =>
    by_cases hx : RegionMatches a intent x
    · rw [firstMatch_cons_of_matches rest hx]
      cases i with
      | zero =>
        simp only [Nat.add_zero, Option.some.injEq, Prod.mk.injEq, true_and, List.getElem?_cons_zero]
        exact ⟨fun h => ⟨h, h ▸ hx, fun j _ hj => absurd hj j.not_lt_zero⟩, fun h => h.1⟩
      | succ i => exact iff_of_false (by simp) fun ⟨_, _, hfirst⟩ => hfirst 0 x i.succ_pos rfl hx
    · rw [firstMatch_cons_of_not_matches rest hx]
      cases i with
      | zero =>
        refine iff_of_false (fun h => ?_) fun ⟨hr, hm, _⟩ => ?_
        · have := (firstMatch_sound h).1
          omega
        · cases hr
          exact hx hm
      | succ i =>
        rw [show n + (i + 1) = n + 1 + i by omega, ih, List.getElem?_cons_succ]
        refine and_congr_right fun _ => and_congr_right fun _ => ⟨fun h j r' hj hr' => ?_, fun h j r' hj hr' => ?_⟩
        · cases j with
          | zero => cases hr'; exact hx
          | succ j => exact h j r' (by omega) hr'
        · exact h (j + 1) r' (by omega) hr'

theorem firstMatch_eq_none_iff :
    firstMatch a intent n regions = none ↔ ∀ r ∈ regions, ¬ RegionMatches a intent r := by
  induction regions generalizing n with
  | nil => simp [firstMatch]
  | cons x rest ih =>
    rw [List.forall_mem_cons, ← ih (n := n + 1)]
    by_cases hx : RegionMatches a intent x
    · rw [firstMatch_cons_of_matches rest hx]
      exact iff_of_false (Option.some_ne_none _) fun h => h.1 hx
    · rw [firstMatch_cons_of_not_matches rest hx, and_iff_right hx]

end

theorem firstMatch_mem {a : Addr} {intent : Intent} {regions : List Region} {k : Nat} {r : Region}
    (h : firstMatch a intent 0 regions = some (k, r)) : r ∈ regions := by
  obtain ⟨-, hr, -⟩ := firstMatch_sound h
  exact List.mem_of_getElem? hr

/-! ### Where a match lands (20_memory.md rules R36, R37) -/

theorem landing_eq_inr_iff {k : Nat} {r : Region} {a a' : Addr} :
    landing k r a = .inr a' ↔ ∃ target, r.kind = .mirror target ∧ a' = rebase r target a := by
  unfold landing
  cases r.kind <;> simp [eq_comm]

theorem landing_eq_data_iff {k k' off : Nat} {r : Region} {a : Addr} :
    landing k r a = .inl (.target (.data k' off)) ↔
      (∃ init, r.kind = .readWriteData init ∨ r.kind = .readOnlyData init) ∧
        k = k' ∧ a.toNat - r.start.toNat = off := by
  unfold landing
  cases r.kind <;> simp

theorem landing_eq_device_iff {k k' off : Nat} {r : Region} {a : Addr} :
    landing k r a = .inl (.target (.device k' off)) ↔
      (r.kind = .readWriteDevice ∨ r.kind = .readOnlyDevice ∨ r.kind = .writeOnlyDevice) ∧
        k = k' ∧ a.toNat - r.start.toNat = off := by
  unfold landing
  cases r.kind <;> simp

theorem landing_eq_dummy_iff {k : Nat} {r : Region} {a d : Addr} :
    landing k r a = .inl (.target (.dummy d)) ↔ r.kind = .dummy ∧ a = d := by
  unfold landing
  cases r.kind <;> simp

theorem landing_eq_noRegion_iff {k : Nat} {r : Region} {a : Addr} :
    landing k r a = .inl .noRegion ↔ r.kind = .empty := by
  unfold landing
  cases r.kind <;> simp

theorem landing_ne_loop (k : Nat) (r : Region) (a : Addr) : landing k r a ≠ .inl .loop := by
  unfold landing
  cases r.kind <;> simp

/-! ### The resolver, an equation per case -/

section
variable {regions : List Region} {intent : Intent} {a : Addr}

theorem resolveFuel_of_none (fuel : Nat) (h : firstMatch a intent 0 regions = none) :
    resolveFuel regions intent fuel a = .noRegion := by
  cases fuel <;> simp only [resolveFuel, h]

theorem resolveFuel_of_landed (fuel : Nat) {k : Nat} {r : Region} {res : Resolution}
    (h : firstMatch a intent 0 regions = some (k, r)) (hl : landing k r a = .inl res) :
    resolveFuel regions intent fuel a = res := by
  cases fuel <;> simp only [resolveFuel, h, hl]

theorem resolveFuel_zero_of_mirror {k : Nat} {r : Region} {a' : Addr}
    (h : firstMatch a intent 0 regions = some (k, r)) (hl : landing k r a = .inr a') :
    resolveFuel regions intent 0 a = .loop := by
  simp only [resolveFuel, h, hl]

theorem resolveFuel_succ_of_mirror (fuel : Nat) {k : Nat} {r : Region} {a' : Addr}
    (h : firstMatch a intent 0 regions = some (k, r)) (hl : landing k r a = .inr a') :
    resolveFuel regions intent (fuel + 1) a = resolveFuel regions intent fuel a' := by
  simp only [resolveFuel, h, hl]

/-- What resolution meets at an address: nothing, a region in which it ends, or a Mirror from which it goes on. -/
theorem firstMatch_cases (regions : List Region) (intent : Intent) (a : Addr) :
    firstMatch a intent 0 regions = none ∨
    (∃ k r res, firstMatch a intent 0 regions = some (k, r) ∧ landing k r a = .inl res) ∨
    (∃ k r a', firstMatch a intent 0 regions = some (k, r) ∧ landing k r a = .inr a') := by
  cases hm : firstMatch a intent 0 regions with
  | none => exact .inl rfl
  | some kr =>
    obtain ⟨k, r⟩ := kr
    cases hl : landing k r a with
    | inl res => exact .inr (.inl ⟨k, r, res, rfl, hl⟩)
    | inr a' => exact .inr (.inr ⟨k, r, a', rfl, hl⟩)

theorem resolve_of_data {k : Nat} {r : Region} {init : List Host.Cell}
    (h : firstMatch a intent 0 regions = some (k, r))
    (hk : r.kind = .readWriteData init ∨ r.kind = .readOnlyData init) :
    resolve regions a intent = .target (.data k (a.toNat - r.start.toNat)) :=
  resolveFuel_of_landed _ h (landing_eq_data_iff.2 ⟨⟨init, hk⟩, rfl, rfl⟩)

theorem resolve_of_device {k : Nat} {r : Region} (h : firstMatch a intent 0 regions = some (k, r))
    (hk : r.kind = .readWriteDevice ∨ r.kind = .readOnlyDevice ∨ r.kind = .writeOnlyDevice) :
    resolve regions a intent = .target (.device k (a.toNat - r.start.toNat)) :=
  resolveFuel_of_landed _ h (landing_eq_device_iff.2 ⟨hk, rfl, rfl⟩)

theorem resolve_of_dummy {k : Nat} {r : Region} (h : firstMatch a intent 0 regions = some (k, r))
    (hk : r.kind = .dummy) : resolve regions a intent = .target (.dummy a) :=
  resolveFuel_of_landed _ h (landing_eq_dummy_iff.2 ⟨hk, rfl⟩)

end

/-- Settles O48: the search by induction on the list (`firstMatch_eq_some_iff`), the answers by the landing of each
kind. -/
theorem firstMatchWins : Obligations.FirstMatchWins := by
  intro regions a intent supported fits
  have hfits : ∀ r, RegionMatches a intent r ↔ fits r := fun r => by
    unfold RegionMatches
    rw [covers_iff, supports_iff, and_assoc]
  refine ⟨fun k r => ?_, ?_, resolveFuel_of_none _, fun k r h => ⟨fun init => resolve_of_data h,
    resolve_of_device h, resolve_of_dummy h⟩⟩
  · simp only [← hfits]
    simpa only [Nat.zero_add] using firstMatch_eq_some_iff (n := 0) (i := k)
  · simp only [← hfits]
    exact firstMatch_eq_none_iff

/-! ### Where a resolution ends (20_memory.md rules R37, R39) -/

/-- A Mirror's rebased address is one more step of `RebasesTo`. -/
theorem RebasesTo.of_mirror {regions : List Region} {intent : Intent} {a a' a'' : Addr} {k : Nat} {r : Region}
    (h : firstMatch a intent 0 regions = some (k, r)) (hl : landing k r a = .inr a')
    (hr : RebasesTo regions intent a' a'') : RebasesTo regions intent a a'' := by
  obtain ⟨target, hk, ha'⟩ := landing_eq_inr_iff.1 hl
  exact Relation.ReflTransGen.head ⟨k, r, target, h, hk, ha'⟩ hr

/-- A resolution that ends does so at a rebased address, where no region matches or the first match lands it. -/
theorem resolveFuel_ends {regions : List Region} {intent : Intent} {fuel : Nat} {a : Addr} {res : Resolution}
    (h : resolveFuel regions intent fuel a = res) (hloop : res ≠ .loop) :
    ∃ a', RebasesTo regions intent a a' ∧
      ((firstMatch a' intent 0 regions = none ∧ res = .noRegion) ∨
        ∃ k r, firstMatch a' intent 0 regions = some (k, r) ∧ landing k r a' = .inl res) := by
  rcases firstMatch_cases regions intent a with hm | ⟨k, r, res', hm, hl⟩ | ⟨k, r, a', hm, hl⟩
  · exact ⟨a, .refl, .inl ⟨hm, h.symm.trans (resolveFuel_of_none fuel hm)⟩⟩
  · rw [resolveFuel_of_landed fuel hm hl] at h
    exact ⟨a, .refl, .inr ⟨k, r, hm, h ▸ hl⟩⟩
  · cases fuel with
    | zero => exact absurd (h.symm.trans (resolveFuel_zero_of_mirror hm hl)) hloop
    | succ fuel =>
      rw [resolveFuel_succ_of_mirror fuel hm hl] at h
      obtain ⟨a'', hr, hend⟩ := resolveFuel_ends h hloop
      exact ⟨a'', hr.of_mirror hm hl, hend⟩

/-- A target is where the first match at a rebased address lands. -/
theorem resolve_target_landing {regions : List Region} {intent : Intent} {a : Addr} {t : Target}
    (h : resolve regions a intent = .target t) :
    ∃ a' k r, RebasesTo regions intent a a' ∧ firstMatch a' intent 0 regions = some (k, r) ∧
      regions[k]? = some r ∧ r.start.toNat ≤ a'.toNat ∧ a'.toNat < r.start.toNat + r.size ∧
      supports r.kind intent = true ∧ landing k r a' = .inl (.target t) := by
  obtain ⟨a', hr, ⟨-, ht⟩ | ⟨k, r, hm, hl⟩⟩ := resolveFuel_ends h (by simp)
  · cases ht
  · obtain ⟨-, hk, hc, hs⟩ := firstMatch_sound hm
    obtain ⟨hlo, hhi⟩ := (covers_iff r a').1 hc
    exact ⟨a', k, r, hr, hm, hk, hlo, hhi, hs, hl⟩

/-- Settles O52: a resolution ends where `resolveFuel_ends` says, and the landing fixes the region's kind and the
offset. -/
theorem targetsLieInsideTheirRegions : Obligations.TargetsLieInsideTheirRegions := by
  intro regions a intent k off
  refine ⟨fun h => ?_, fun h => ?_, fun d h => ?_, fun h => ?_⟩
  · obtain ⟨a', j, r, hr, hm, hj, hlo, hhi, hs, hl⟩ := resolve_target_landing h
    obtain ⟨⟨init, hkind⟩, rfl, rfl⟩ := landing_eq_data_iff.1 hl
    refine ⟨r, a', hr, hm, hj, by omega, by omega, ?_⟩
    rcases hkind with hkind | hkind
    · exact .inl ⟨init, hkind⟩
    · rw [hkind, supports_iff] at hs
      exact .inr ⟨by simpa using hs, init, hkind⟩
  · obtain ⟨a', j, r, hr, hm, hj, hlo, hhi, hs, hl⟩ := resolve_target_landing h
    obtain ⟨hkind, rfl, rfl⟩ := landing_eq_device_iff.1 hl
    refine ⟨r, a', hr, hm, hj, by omega, by omega, ?_⟩
    rcases hkind with hkind | hkind | hkind
    · exact .inl hkind
    · rw [hkind, supports_iff] at hs
      exact .inr (.inl ⟨by simpa using hs, hkind⟩)
    · rw [hkind, supports_iff] at hs
      exact .inr (.inr ⟨by simpa using hs, hkind⟩)
  · obtain ⟨a', j, r, hr, hm, hj, hlo, hhi, -, hl⟩ := resolve_target_landing h
    obtain ⟨hkind, rfl⟩ := landing_eq_dummy_iff.1 hl
    exact ⟨hr, j, r, hm, hj, hkind, hlo, hhi⟩
  · obtain ⟨a', hr, ⟨hm, -⟩ | ⟨j, r, hm, hl⟩⟩ := resolveFuel_ends h (by simp)
    · exact ⟨a', hr, hm⟩
    · obtain ⟨-, -, -, hs⟩ := firstMatch_sound hm
      rw [landing_eq_noRegion_iff.1 hl] at hs
      cases hs


/-! ### Chains of Mirrors and cycles (20_memory.md rules R34, R38) -/

theorem mirrorChain_succ_iff {regions : List Region} {n : Nat} {m : Region} :
    mirrorChain regions (n + 1) m = true ↔
      ∃ m' ∈ regions, mirrorArrow m m' = true ∧ mirrorChain regions n m' = true := by
  simp [mirrorChain]

theorem mirrorsAcyclic_iff {regions : List Region} :
    mirrorsAcyclic regions = true ↔ ∀ m ∈ regions, ¬ mirrorChain regions regions.length m = true := by
  simp [mirrorsAcyclic]

/-- There is an arrow from the first region to the second, which is of the list. -/
def LeadsTo (regions : List Region) (x y : Region) : Prop := y ∈ regions ∧ mirrorArrow x y = true

/-- From a region that leads into a cycle there are as many arrows in a row as one likes. -/
theorem mirrorChain_of_cycle {regions : List Region} {m x : Region}
    (hcycle : Relation.TransGen (LeadsTo regions) m m) (hx : Relation.ReflTransGen (LeadsTo regions) x m)
    (n : Nat) : mirrorChain regions n x = true := by
  induction n generalizing x with
  | zero => rfl
  | succ n ih =>
    obtain ⟨y, ⟨hy, harrow⟩, hrest⟩ := Relation.TransGen.head'_iff.1 (Relation.TransGen.trans_right hx hcycle)
    exact mirrorChain_succ_iff.2 ⟨y, hy, harrow, ih hrest⟩

/-- The regions that a chain of arrows passes, each of which leads to all later ones. -/
theorem exists_path_of_mirrorChain {regions : List Region} {n : Nat} {m : Region}
    (h : mirrorChain regions n m = true) :
    ∃ path : List Region, path.length = n ∧ (∀ x ∈ path, x ∈ regions) ∧
      (m :: path).Pairwise (Relation.TransGen (LeadsTo regions)) := by
  induction n generalizing m with
  | zero => exact ⟨[], rfl, by simp, List.pairwise_singleton _ m⟩
  | succ n ih =>
    obtain ⟨m', hm', harrow, hchain⟩ := mirrorChain_succ_iff.1 h
    obtain ⟨path, hlen, hmem, hpath⟩ := ih hchain
    have hstep : LeadsTo regions m m' := ⟨hm', harrow⟩
    refine ⟨m' :: path, by rw [List.length_cons, hlen], List.forall_mem_cons.2 ⟨hm', hmem⟩,
      List.pairwise_cons.2 ⟨List.forall_mem_cons.2 ⟨.single hstep, fun x hx => ?_⟩, hpath⟩⟩
    exact .head hstep (List.rel_of_pairwise_cons hpath hx)

/-- Settles O50: a cycle gives chains of any length; a chain of as many arrows as there are regions passes more regions
than the list has, so without a cycle they could not all be different. -/
theorem mirrorClauseForbidsExactlyTheCycles : Obligations.MirrorClauseForbidsExactlyTheCycles := by
  intro regions
  rw [mirrorsAcyclic_iff]
  refine ⟨fun h m hm hcycle => h m hm (mirrorChain_of_cycle hcycle .refl _), fun h m hm hchain => ?_⟩
  obtain ⟨path, hlen, hmem, hpath⟩ := exists_path_of_mirrorChain hchain
  have hsub : ∀ x ∈ m :: path, x ∈ regions := List.forall_mem_cons.2 ⟨hm, hmem⟩
  have hnodup : (m :: path).Nodup :=
    hpath.imp_of_mem fun {x y} hx _ (hxy : Relation.TransGen (LeadsTo regions) x y) (e : x = y) =>
      h x (hsub x hx) (e ▸ hxy)
  have hle := (hnodup.subperm hsub).length_le
  rw [List.length_cons] at hle
  omega

/-! ### The resolver ends on well-formed lists (20_memory.md rule R38) -/

theorem regionsWellFormed_iff {regions : List Region} : regionsWellFormed regions = true ↔
    (∀ r ∈ regions, r.wellFormed = true) ∧ mirrorsAcyclic regions = true := by
  simp [regionsWellFormed]

/-- An address of a Mirror whose rebased address another Mirror covers gives an arrow between them; the rebased address
may have wrapped past 2^32 (assumption log entry 9). -/
theorem mirrorArrow_of_rebase {m m' : Region} {target target' a : Addr} (hm : m.kind = .mirror target)
    (hm' : m'.kind = .mirror target') (hc : covers m a = true) (hc' : covers m' (rebase m target a) = true) :
    mirrorArrow m m' = true := by
  rw [covers_iff] at hc hc'
  have hrebase : (rebase m target a).toNat = (a.toNat - m.start.toNat + target.toNat) % 2 ^ 32 := by
    simp only [rebase, BitVec.toNat_add, BitVec.toNat_sub]
    omega
  simp only [mirrorArrow, hm, hm', Bool.or_eq_true, Bool.and_eq_true, decide_eq_true_eq]
  omega

/-- A resolution that exhausts its fuel begins at a Mirror. -/
theorem firstMatch_of_resolveFuel_loop {regions : List Region} {intent : Intent} {fuel : Nat} {a : Addr}
    (h : resolveFuel regions intent fuel a = .loop) :
    ∃ k m target, firstMatch a intent 0 regions = some (k, m) ∧ m.kind = .mirror target := by
  rcases firstMatch_cases regions intent a with hm | ⟨k, m, res, hm, hl⟩ | ⟨k, m, a', hm, hl⟩
  · rw [resolveFuel_of_none fuel hm] at h
    cases h
  · rw [resolveFuel_of_landed fuel hm hl] at h
    exact absurd (h ▸ hl) (landing_ne_loop k m a)
  · obtain ⟨target, hkind, -⟩ := landing_eq_inr_iff.1 hl
    exact ⟨k, m, target, hm, hkind⟩

/-- A resolution that exhausts its fuel has followed as many arrows in a row as it had restarts. -/
theorem mirrorChain_of_resolveFuel_loop {regions : List Region} {intent : Intent} {fuel k : Nat} {a : Addr}
    {m : Region} (h : resolveFuel regions intent fuel a = .loop)
    (hm : firstMatch a intent 0 regions = some (k, m)) : mirrorChain regions fuel m = true := by
  induction fuel generalizing a k m with
  | zero => rfl
  | succ fuel ih =>
    obtain ⟨_, _, target, hm', hkind⟩ := firstMatch_of_resolveFuel_loop h
    cases hm.symm.trans hm'
    rw [resolveFuel_succ_of_mirror fuel hm (landing_eq_inr_iff.2 ⟨target, hkind, rfl⟩)] at h
    obtain ⟨k', m', target', hnext, hkind'⟩ := firstMatch_of_resolveFuel_loop h
    obtain ⟨-, -, hc, -⟩ := firstMatch_sound hm
    obtain ⟨-, -, hc', -⟩ := firstMatch_sound hnext
    exact mirrorChain_succ_iff.2
      ⟨m', firstMatch_mem hnext, mirrorArrow_of_rebase hkind hkind' hc hc', ih h hnext⟩

/-- Settles O49: an exhausted resolution would be a chain of as many arrows as there are regions. -/
theorem resolutionEndsOnWellFormedLists : Obligations.ResolutionEndsOnWellFormedLists := by
  intro regions a intent hwf hloop
  obtain ⟨k, m, -, hm, -⟩ := firstMatch_of_resolveFuel_loop hloop
  exact mirrorsAcyclic_iff.1 (regionsWellFormed_iff.1 hwf).2 m (firstMatch_mem hm)
    (mirrorChain_of_resolveFuel_loop hloop hm)

/-- A resolution that ends has the same answer with one more restart to spare. -/
theorem resolveFuel_succ {regions : List Region} {intent : Intent} {fuel : Nat} {a : Addr}
    (h : resolveFuel regions intent fuel a ≠ .loop) :
    resolveFuel regions intent (fuel + 1) a = resolveFuel regions intent fuel a := by
  rcases firstMatch_cases regions intent a with hm | ⟨k, r, res, hm, hl⟩ | ⟨k, r, a', hm, hl⟩
  · rw [resolveFuel_of_none _ hm, resolveFuel_of_none _ hm]
  · rw [resolveFuel_of_landed _ hm hl, resolveFuel_of_landed _ hm hl]
  · cases fuel with
    | zero => exact absurd (resolveFuel_zero_of_mirror hm hl) h
    | succ fuel =>
      rw [resolveFuel_succ_of_mirror _ hm hl] at h ⊢
      rw [resolveFuel_succ_of_mirror _ hm hl, resolveFuel_succ h]

/-- On a well-formed list an address in a Mirror resolves as its rebased address does (20_memory.md rule R37). -/
theorem resolve_of_mirror {regions : List Region} {intent : Intent} {a target : Addr} {k : Nat} {r : Region}
    (hwf : regionsWellFormed regions = true) (hkind : r.kind = .mirror target)
    (hm : firstMatch a intent 0 regions = some (k, r)) :
    resolve regions a intent = resolve regions (rebase r target a) intent := by
  have hends := resolutionEndsOnWellFormedLists regions a intent hwf
  obtain ⟨n, hn⟩ := Nat.exists_eq_add_one.2 (List.length_pos_of_mem (firstMatch_mem hm))
  have hl : landing k r a = .inr (rebase r target a) := landing_eq_inr_iff.2 ⟨target, hkind, rfl⟩
  unfold resolve at hends ⊢
  rw [hn, resolveFuel_succ_of_mirror n hm hl] at hends ⊢
  exact (resolveFuel_succ hends).symm

/-- Settles O51: the rebased address has one restart less, which a resolution that ends does not miss. -/
theorem mirrorsReadAndWriteWhatTheyLeadTo : Obligations.MirrorsReadAndWriteWhatTheyLeadTo := by
  intro s a target k r hwf hkind
  refine ⟨fun intent hm => resolve_of_mirror hwf hkind hm, fun hm => ?_⟩
  unfold State.peek
  rw [resolve_of_mirror hwf hkind hm]
  rfl

/-- Settles O41: a step is stuck only at a byte whose resolution exhausts its fuel. -/
theorem wellFormedBlocksAlwaysStep : Obligations.WellFormedBlocksAlwaysStep := by
  intro s hwf
  by_cases hrun : Stepping s
  · rcases step_cases hrun with ⟨s', hs', -⟩ | ⟨-, intent, a, n, hloop⟩
    · exact ⟨s', hs'⟩
    · obtain ⟨-, x, -, -, -, ⟨hf, -⟩ | ⟨-, hx⟩⟩ := resolveAll_error hloop
      · cases hf
      · exact absurd hx (resolutionEndsOnWellFormedLists s.regions x intent hwf)
  · exact ⟨s, step_of_not_stepping hrun⟩

/-! ### What construction refuses (20_memory.md rule R34) -/

/-- The bounds of a well-formed region, and its initial contents inside its buffer. -/
theorem region_bounds_of_wellFormed {r : Region} (h : r.wellFormed = true) :
    1 ≤ r.size ∧ r.start.toNat + r.size ≤ 2 ^ 32 ∧
      ∀ init, r.kind = .readWriteData init ∨ r.kind = .readOnlyData init → ∀ c ∈ init, c.1 < r.size := by
  rw [Region.wellFormed, Bool.and_eq_true, Bool.and_eq_true, decide_eq_true_eq, decide_eq_true_eq] at h
  obtain ⟨⟨hpos, hend⟩, hinit⟩ := h
  refine ⟨hpos, hend, fun init hkind => ?_⟩
  rcases hkind with hkind | hkind <;>
    · simp only [hkind, contentsFit, Bool.and_eq_true, List.all_eq_true, decide_eq_true_eq] at hinit
      exact hinit.2

/-- Construction admits only well-formed region lists. -/
theorem construct_eq_none {p : Params} (h : ¬ regionsWellFormed p.regions = true) : State.construct p = none :=
  if_neg fun hp => h (Bool.and_eq_true_iff.1 hp).1

/-- Settles O56: each defect breaks a clause of `regionsWellFormed`; an arrow from a Mirror to itself is a cycle. -/
theorem illFormedRegionsAreRefused : Obligations.IllFormedRegionsAreRefused := by
  intro p r hr hdefect
  refine construct_eq_none fun hwf => ?_
  obtain ⟨hregions, hacyclic⟩ := regionsWellFormed_iff.1 hwf
  obtain ⟨hpos, hend, hinit⟩ := region_bounds_of_wellFormed (hregions r hr)
  rcases hdefect with hzero | hlong | ⟨init, c, hc, hkind, hout⟩ | harrow
  · omega
  · omega
  · have := hinit init hkind c hc
    omega
  · exact (mirrorClauseForbidsExactlyTheCycles p.regions).1 hacyclic r hr (.single ⟨hr, harrow⟩)

/-! ### REGIONS and the ReadOnlyData buffers never change (20_memory.md rules R30, R41) -/

/-- The region list is the same, and so is every byte of a ReadOnlyData buffer. -/
def ReadOnlyKept (s t : State) : Prop :=
  t.regions = s.regions ∧
    ∀ (k off : Nat) (r : Region) (init : List Host.Cell), s.regions[k]? = some r → r.kind = .readOnlyData init →
      off < 2 ^ 32 → t.bufferByte k off = s.bufferByte k off

theorem ReadOnlyKept.of_mem {s t : State} (hregions : t.regions = s.regions) (hmem : t.mem = s.mem) :
    ReadOnlyKept s t :=
  ⟨hregions, fun k off _ _ _ _ _ => (memoryKept_of_eq hregions hmem).1 k off⟩

theorem ReadOnlyKept.trans {s t u : State} (h : ReadOnlyKept s t) (h' : ReadOnlyKept t u) : ReadOnlyKept s u := by
  obtain ⟨hregions, hbytes⟩ := h
  obtain ⟨hregions', hbytes'⟩ := h'
  exact ⟨hregions'.trans hregions, fun k off r init hr hk hoff =>
    (hbytes' k off r init (hregions ▸ hr) hk hoff).trans (hbytes k off r init hr hk hoff)⟩

theorem ReadsOnly.readOnlyKept {s t : State} (h : ReadsOnly s t) : ReadOnlyKept s t :=
  .of_mem (by rw [h]) (by rw [h])

/-- No target of a write lies in a ReadOnlyData buffer. -/
theorem resolveAll_write_ne_readOnly {regions : List Region} {as : List Addr} {ts : List Target}
    (hts : resolveAll regions .write as = .ok ts) {k off : Nat} {r : Region} {init : List Host.Cell}
    (hr : regions[k]? = some r) (hk : r.kind = .readOnlyData init) : .data k off ∉ ts := by
  intro ht
  have hw := resolveAll_write_inWritableBuffer hts ht
  simp only [inWritableBuffer, cellKey_div (resolveAll_data_lt hts ht), hr, hk] at hw
  cases hw

theorem writeTargets_readOnlyKept {s : State} {as : List Addr} {ts : List Target} (bytes : List Byte)
    (hts : resolveAll s.regions .write as = .ok ts) : ReadOnlyKept s (s.writeTargets (ts.zip bytes)) := by
  refine ⟨(writeTargets_writesOnly s _).regions, fun k off r init hr hk hoff => ?_⟩
  refine bufferByte_writeTargets_other hoff (fun w hw k' off' hw' => ?_) fun w hw hw' => ?_
  · exact resolveAll_data_lt hts (hw' ▸ (List.of_mem_zip hw).1)
  · exact resolveAll_write_ne_readOnly hts hr hk (hw' ▸ (List.of_mem_zip hw).1)

theorem HandlerEffect.readOnlyKept {i : Instr} {s t : State} (h : HandlerEffect i s t) : ReadOnlyKept s t := by
  cases h with
  | register => exact .of_mem rfl rfl
  | accumulators => exact .of_mem rfl rfl
  | schedule => exact .of_mem rfl rfl
  | log => exact .of_mem rfl rfl
  | load rs rt imm n ts v => exact (readTargets_readsOnly s ts).readOnlyKept.trans (.of_mem rfl rfl)
  | store rs rt imm n ts hi hct hts => exact writeTargets_readOnlyKept _ hts
  | unmapped => exact .of_mem rfl rfl

theorem finish_readOnlyKept {s t : State} (h : ReadOnlyKept s t) : ReadOnlyKept s (s.finish t) := by
  cases hrun : t.run with
  | running => rw [finish_of_running hrun]; exact h.trans (.of_mem rfl rfl)
  | halted d => rw [finish_of_halted hrun]; exact .of_mem rfl rfl

theorem StepEnd.readOnlyKept {s s' : State} (h : StepEnd s s') : ReadOnlyKept s s' := by
  cases h with
  | unmappedFetch => exact .of_mem rfl rfl
  | decodeError w s1 hf => exact (fetch_readsOnly hf).readOnlyKept.trans (.of_mem rfl rfl)
  | branchInDelaySlot w s1 i hf => exact (fetch_readsOnly hf).readOnlyKept.trans (.of_mem rfl rfl)
  | handled w s1 i t hf _ _ he =>
    have hidle : ReadOnlyKept s1 { s1 with sched := .idle } := .of_mem rfl rfl
    exact (fetch_readsOnly hf).readOnlyKept.trans
      (finish_readOnlyKept (hidle.trans (exec_effect he).readOnlyKept))

/-- Settles O44: only stores write the cells, and no target of a write is in a ReadOnlyData buffer. -/
theorem regionsAndReadOnlyBytesNeverChange : Obligations.RegionsAndReadOnlyBytesNeverChange := by
  intro s s' hstep
  by_cases hrun : Stepping s
  · exact (step_end hrun hstep).readOnlyKept
  · rw [step_of_not_stepping hrun] at hstep
    cases hstep
    exact ReadOnlyKept.of_mem rfl rfl

/-! ### A fetch from a Dummy window (20_memory.md rule R42, 30_encoding.md rule R71) -/

theorem fetch_of_dummies {s : State} {d0 d1 d2 d3 : Addr}
    (h : resolveAll s.regions .read (accessAddrs s.pc 4) = .ok [.dummy d0, .dummy d1, .dummy d2, .dummy d3]) :
    s.fetch = .ok (0, { s with log := s.log ++ [.dummyRead d0, .dummyRead d1, .dummyRead d2, .dummyRead d3] }) := by
  rcases fetch_cases s with ⟨ts, hts, hf⟩ | ⟨f, hf, -⟩
  · cases h.symm.trans hts
    rw [hf, readTargets_outputs]
    simp [State.readTargets, State.readTarget, bigEndian, dummyTargetReads, deviceReads]
  · cases h.symm.trans hf

theorem decode_zero : decode 0 = .ok pseudoNop := by decide

/-- The no-op does nothing: its destination is r0. -/
theorem exec_pseudoNop (s : State) : exec pseudoNop s = .next s := rfl

/-- With no effect carried, issuing the no-op advances `pc` and does nothing else. -/
theorem issue_pseudoNop {s : State} (word : InstrWord) (hidle : s.sched = .idle) (hrun : s.run = .running) :
    s.issue exec word pseudoNop = .next { s with pc := s.pc + 4 } := by
  have hslot : ¬ (s.sched ≠ .idle ∧ pseudoNop.isControlTransfer = true) := fun h => h.1 hidle
  rw [issue_of_exec_next word hslot (exec_pseudoNop _), finish_of_running (t := { s with sched := .idle }) hrun]
  simp only [nextPc, hidle]

/-- Settles O47: the fetch reads the word 0, which is the no-op. -/
theorem dummyFetchExecutesANop : Obligations.DummyFetchExecutesANop := by
  intro s d0 d1 d2 d3 hrun hidle hts
  rw [step_of_decode_ok hrun (fetch_of_dummies hts) decode_zero]
  exact issue_pseudoNop 0 hidle hrun.1

/-! ### A value written and read back (20_memory.md rules R46, R50) -/

theorem foldl_bigEndian (bytes : List Byte) (acc : Nat) :
    bytes.foldl (fun acc b => acc * 256 + b.toNat) acc = acc * 256 ^ bytes.length + bigEndian bytes := by
  induction bytes generalizing acc with
  | nil => simp [bigEndian]
  | cons b bytes ih =>
    have hcons : bigEndian (b :: bytes) = bytes.foldl (fun acc b => acc * 256 + b.toNat) b.toNat := by
      simp [bigEndian]
    rw [hcons, List.foldl_cons, ih, ih b.toNat, List.length_cons]
    ring

theorem bigEndian_cons (b : Byte) (bytes : List Byte) :
    bigEndian (b :: bytes) = b.toNat * 256 ^ bytes.length + bigEndian bytes := by
  rw [bigEndian, List.foldl_cons, foldl_bigEndian, Nat.zero_mul, Nat.zero_add]

@[simp] theorem bytesOf_length (n : Nat) (v : Word) : (bytesOf n v).length = n := by simp [bytesOf]

theorem bytesOf_succ (n : Nat) (v : Word) : bytesOf (n + 1) v = v.extractLsb' (8 * n) 8 :: bytesOf n v := by
  simp only [bytesOf, List.range_succ_eq_map, List.map_cons, List.map_map, Nat.add_sub_cancel, Nat.sub_zero]
  congr 1
  refine List.map_congr_left fun i _ => ?_
  simp only [Function.comp_apply]
  rw [show n - i.succ = n - 1 - i by omega]

/-- The bytes of a value, put together again, are its low `8n` bits. -/
theorem bigEndian_bytesOf (n : Nat) (v : Word) : bigEndian (bytesOf n v) = v.toNat % 2 ^ (8 * n) := by
  induction n with
  | zero => simp [bytesOf, bigEndian, Nat.mod_one]
  | succ n ih =>
    rw [bytesOf_succ, bigEndian_cons, ih, bytesOf_length, BitVec.extractLsb'_toNat, Nat.shiftRight_eq_div_pow,
      Nat.mul_succ, pow_add, Nat.mod_mul, show 256 ^ n = 2 ^ (8 * n) by rw [pow_mul]; rfl]
    ring

/-- The targets are bytes of buffers and hold these bytes. -/
def HoldsBytes (s : State) (ts : List Target) (bytes : List Byte) : Prop :=
  List.Forall₂ (fun t b => ∃ k off, t = .data k off ∧ s.bufferByte k off = b) ts bytes

/-- Reading bytes that buffers hold gives them, with no further effect. -/
theorem HoldsBytes.readTargets {s : State} {ts : List Target} {bytes : List Byte} (h : HoldsBytes s ts bytes) :
    s.readTargets ts = (bytes, s) := by
  induction h with
  | nil => rfl
  | cons hb _ ih =>
    obtain ⟨k, off, rfl, rfl⟩ := hb
    simp only [State.readTargets, State.readTarget, ih]

/-- Writing a byte to each of several different bytes of buffers, in canonical memory, puts them there. -/
theorem holdsBytes_writeTargets {s : State} {ts : List Target} {bytes : List Byte} (hc : s.memoryCanonical = true)
    (hlen : ts.length = bytes.length) (hdata : ∀ t ∈ ts, ∃ k off, t = .data k off ∧ off < 2 ^ 32)
    (hnodup : ts.Nodup) : HoldsBytes (s.writeTargets (ts.zip bytes)) ts bytes := by
  induction ts generalizing s bytes with
  | nil =>
    cases bytes with
    | nil => exact .nil
    | cons b bytes => cases hlen
  | cons t ts ih =>
    cases bytes with
    | nil => cases hlen
    | cons b bytes =>
      obtain ⟨⟨k, off, rfl, hoff⟩, hdata'⟩ := List.forall_mem_cons.1 hdata
      obtain ⟨hne, hnodup'⟩ := List.nodup_cons.1 hnodup
      refine .cons ⟨k, off, rfl, ?_⟩
        (ih (writeTarget_memoryCanonical _ b hc) (Nat.succ.inj hlen) hdata' hnodup')
      refine bufferByte_writeTargets_last (before := []) hc hoff (fun w hw k' off' hw' => ?_) fun w hw hw' => ?_
      · obtain ⟨_, _, hd, hlt⟩ := hdata' w.1 (List.of_mem_zip hw).1
        cases hw'.symm.trans hd
        exact hlt
      · exact hne (hw' ▸ (List.of_mem_zip hw).1)

/-- A storage-backed access has the same targets for both intents, different bytes of buffers. -/
theorem StorageBacked.targets {regions : List Region} {a : Addr} {n : Nat} (h : StorageBacked regions a n) :
    ∃ ts, resolveAll regions .write (accessAddrs a n) = .ok ts ∧
      resolveAll regions .read (accessAddrs a n) = .ok ts ∧ ts.length = n ∧
      (∀ t ∈ ts, ∃ k off, t = .data k off ∧ off < 2 ^ 32) ∧ ts.Nodup := by
  obtain ⟨hdata, hdistinct⟩ := h
  choose! k off hwrite hread using hdata
  have hresolved {intent : Intent}
      (hx : ∀ x ∈ accessAddrs a n, resolve regions x intent = .target (.data (k x) (off x))) :
      resolveAll regions intent (accessAddrs a n) =
        .ok ((accessAddrs a n).map fun x => .data (k x) (off x)) :=
    resolveAll_ok_iff.2 (List.forall₂_map_right_iff.2 (List.forall₂_same.2 hx))
  refine ⟨_, hresolved hwrite, hresolved hread, by simp, fun t ht => ?_, ?_⟩
  · obtain ⟨x, -, rfl⟩ := List.mem_map.1 ht
    exact ⟨k x, off x, rfl, resolveAll_data_lt (hresolved hwrite) ht⟩
  · refine List.pairwise_map.2 (hdistinct.imp_of_mem fun hx hy hne => fun e => hne ?_)
    rw [hwrite _ hx, hwrite _ hy, e]

/-- A storage-backed access that has been written is read back in every state with the written memory. -/
theorem memWrite_memRead {s : State} {a : Addr} {n : Nat} (v : Word) (hc : s.memoryCanonical = true)
    (h : StorageBacked s.regions a n) : ∃ t, s.memWrite a n v = .ok t ∧
      ∀ u : State, u.regions = t.regions → u.mem = t.mem → u.memRead a n = .ok (bytesOf n v, u) := by
  obtain ⟨ts, hw, hr, hlen, hdata, hnodup⟩ := h.targets
  refine ⟨s.writeTargets (ts.zip (bytesOf n v)), by simp only [State.memWrite, hw], fun u hregions hmem => ?_⟩
  have hholds : HoldsBytes u ts (bytesOf n v) := by
    have := holdsBytes_writeTargets (bytes := bytesOf n v) hc (by rw [hlen, bytesOf_length]) hdata hnodup
    simpa only [HoldsBytes, State.bufferByte, hregions, hmem] using this
  rw [(writeTargets_writesOnly s _).regions] at hregions
  simp only [State.memRead, hregions, hr, hholds.readTargets]

/-- Settles O53: the bytes read are the bytes written (`memWrite_memRead`), and they make the value. -/
theorem writeThenReadReturnsTheValue : Obligations.WriteThenReadReturnsTheValue := by
  intro s a n v hc _ hbacked
  obtain ⟨t, hw, hr⟩ := memWrite_memRead v hc hbacked
  exact ⟨t, bytesOf n v, hw, hr t rfl rfl, bigEndian_bytesOf n v⟩

/-- Settles O54: the store is that write, and the fetch a read of the same four bytes. -/
theorem storedWordIsFetchedNext : Obligations.StoredWordIsFetchedNext := by
  intro rs rt imm s ea hc hbacked
  obtain ⟨t, hw, hr⟩ := memWrite_memRead (s.readReg rt) hc hbacked
  refine ⟨t, ?_, ?_⟩
  · show storeOp _ 4 rs rt imm s = .next t
    unfold storeOp
    rw [hw]
  · unfold State.fetch
    rw [hr { t with pc := ea } rfl rfl]
    simp only [bigEndian_bytesOf]
    congr 2
    exact BitVec.eq_of_toNat_eq (by simp)

end Sys2Proof.Machine

/-! # The decoder and the encoder (30_encoding.md) -/

namespace Sys2Proof

/-! ### The class of a word's opcode selects the map it is looked up in (rule R63) -/

theorem handlerOf_of_alu {w : InstrWord} (h : fieldOp w = 0x00) : handlerOf w = decodeAlu w := by
  simp [handlerOf, keyOf, h]

theorem handlerOf_of_regimm {w : InstrWord} (h : fieldOp w = 0x01) : handlerOf w = decodeRegimm w := by
  simp [handlerOf, keyOf, h]

theorem handlerOf_of_cop0 {w : InstrWord} (h : fieldOp w = 0x10) : handlerOf w = decodeCop0 w := by
  simp [handlerOf, keyOf, h]

theorem handlerOf_of_primary {w : InstrWord} (h0 : fieldOp w ≠ 0x00) (h1 : fieldOp w ≠ 0x01)
    (h2 : fieldOp w ≠ 0x10) : handlerOf w = decodePrimary w := by
  simp only [handlerOf, keyOf, if_neg h0, if_neg h1, if_neg h2]

/-! ### The round trip, from the instruction and from the word -/

/-- Settles O1, by the class of the encoded word: its opcode selects the map, its selector the entry of the map, and the
fields that entry reads are the operands (the field lemmas of `rWord`, `aluWord`, `iWord`, `jWord` and `cop0Word`). -/
theorem decodeOfEncodeIsTheInstruction : Obligations.DecodeOfEncodeIsTheInstruction := by
  intro i
  rw [decode_ok_iff]
  cases i with
  | sll | srl | sra | sllv | srlv | srav | jr | jalr | syscall | brk | mfhi | mthi | mflo | mtlo | mult | multu | div
  | divu | add | addu | sub | subu | and | or | xor | nor | slt | sltu =>
    simp [encode, handlerOf_of_alu, decodeAlu]
  | bltz | bgez | bltzl | bgezl | bltzal | bgezal | bltzall | bgezall =>
    simp [encode, handlerOf_of_regimm, decodeRegimm]
  | mfc0 | mtc0 =>
    simp [encode, handlerOf_of_cop0, decodeCop0]
  | j | jal | beq | bne | blez | bgtz | addi | beql | bnel | blezl | bgtzl | lb | lh | lwl | lw | lbu | lhu | lwr | lwu
  | sb | sh | swl | sw | swr | cache =>
    simp [encode, handlerOf_of_primary, decodePrimary]

theorem encode_of_decodeAlu {w : InstrWord} {i : Instr} (hop : fieldOp w = 0x00) (h : decodeAlu w = some i) :
    encode i = w := by
  unfold decodeAlu at h
  split at h <;> cases h
  all_goals simp [encode, rWord_fields, aluWord_bits, aluWord_rs_ign, aluWord_rs_rt_ign, aluWord_ign_rd_sa, *]

theorem encode_of_decodeRegimm {w : InstrWord} {i : Instr} (hop : fieldOp w = 0x01) (h : decodeRegimm w = some i) :
    encode i = w := by
  unfold decodeRegimm at h
  split at h <;> cases h
  all_goals exact regimmWord_fields w _ hop ‹_›

theorem encode_of_decodeCop0 {w : InstrWord} {i : Instr} (hop : fieldOp w = 0x10) (h : decodeCop0 w = some i) :
    encode i = w := by
  unfold decodeCop0 at h
  split at h <;> cases h
  all_goals exact cop0Word_fields w _ hop ‹_›

theorem encode_of_decodePrimary {w : InstrWord} {i : Instr} (h : decodePrimary w = some i) : encode i = w := by
  unfold decodePrimary at h
  split at h <;> cases h
  all_goals simp [encode, iWord_fields, jWord_fields, *]

/-- Settles O2, by the class of the word: an entry of its map puts back together the fields it took apart. -/
theorem decodedWordsEncodeBack : Obligations.DecodedWordsEncodeBack := by
  intro w i h
  rw [decode_ok_iff] at h
  cases hk : keyOf w with
  | alu f =>
    have hop := (fieldOp_of_alu hk).1
    exact encode_of_decodeAlu hop (handlerOf_of_alu hop ▸ h)
  | regimm f =>
    have hop := (fieldOp_of_regimm hk).1
    exact encode_of_decodeRegimm hop (handlerOf_of_regimm hop ▸ h)
  | cop0 f =>
    have hop := (fieldOp_of_cop0 hk).1
    exact encode_of_decodeCop0 hop (handlerOf_of_cop0 hop ▸ h)
  | primary f =>
    obtain ⟨-, h0, h1, h2⟩ := fieldOp_of_primary hk
    exact encode_of_decodePrimary (handlerOf_of_primary h0 h1 h2 ▸ h)

/-! ### The key alone selects the handler (rules R63, R64) -/

/-- What O4 compares of two instructions: the constructor, and whether it is a control transfer or a stub. -/
def Instr.traits (i : Instr) : Nat × Bool × Bool := (i.ctorIdx, i.isControlTransfer, i.isStub)

theorem decodeAlu_traits {w w' : InstrWord} (h : fieldFunct w = fieldFunct w') :
    (decodeAlu w).map Instr.traits = (decodeAlu w').map Instr.traits := by
  unfold decodeAlu
  rw [h]
  split <;> rfl

theorem decodeRegimm_traits {w w' : InstrWord} (h : fieldRt w = fieldRt w') :
    (decodeRegimm w).map Instr.traits = (decodeRegimm w').map Instr.traits := by
  unfold decodeRegimm
  rw [h]
  split <;> rfl

theorem decodeCop0_traits {w w' : InstrWord} (h : fieldRs w = fieldRs w') :
    (decodeCop0 w).map Instr.traits = (decodeCop0 w').map Instr.traits := by
  unfold decodeCop0
  rw [h]
  split <;> rfl

theorem decodePrimary_traits {w w' : InstrWord} (h : fieldOp w = fieldOp w') :
    (decodePrimary w).map Instr.traits = (decodePrimary w').map Instr.traits := by
  unfold decodePrimary
  rw [h]
  split <;> rfl

theorem handlerOf_traits {w w' : InstrWord} (h : keyOf w = keyOf w') :
    (handlerOf w).map Instr.traits = (handlerOf w').map Instr.traits := by
  unfold handlerOf
  rw [← h]
  cases hk : keyOf w with
  | alu f => exact decodeAlu_traits ((fieldOp_of_alu hk).2.trans (fieldOp_of_alu (h ▸ hk)).2.symm)
  | regimm f => exact decodeRegimm_traits ((fieldOp_of_regimm hk).2.trans (fieldOp_of_regimm (h ▸ hk)).2.symm)
  | cop0 f => exact decodeCop0_traits ((fieldOp_of_cop0 hk).2.trans (fieldOp_of_cop0 (h ▸ hk)).2.symm)
  | primary f => exact decodePrimary_traits ((fieldOp_of_primary hk).1.trans (fieldOp_of_primary (h ▸ hk)).1.symm)

/-- Settles O4: each map is read at the key's selector, so its entries agree in what `Instr.traits` compares. -/
theorem onlyTheKeySelectsTheHandler : Obligations.OnlyTheKeySelectsTheHandler := by
  intro w w' hkey i hi
  have htraits := handlerOf_traits hkey
  rw [decode_ok_iff.1 hi, Option.map_some, eq_comm, Option.map_eq_some_iff] at htraits
  obtain ⟨i', hi', htraits⟩ := htraits
  simp only [Instr.traits, Prod.mk.injEq] at htraits
  exact ⟨i', decode_ok_iff.2 hi', htraits⟩

/-! ### The keys with a handler (rules R67 to R70, R72) -/

/-- The 28 functions of rule R68. -/
def aluFuncts : List (BitVec 6) :=
  [0x00, 0x02, 0x03, 0x04, 0x06, 0x07, 0x08, 0x09, 0x0C, 0x0D, 0x10, 0x11, 0x12, 0x13] ++
  [0x18, 0x19, 0x1A, 0x1B, 0x20, 0x21, 0x22, 0x23, 0x24, 0x25, 0x26, 0x27, 0x2A, 0x2B]

/-- The 8 selectors of rule R69. -/
def regimmSelectors : List (BitVec 5) := [0x00, 0x01, 0x02, 0x03, 0x10, 0x11, 0x12, 0x13]

/-- The 2 selectors of rule R70. -/
def cop0Selectors : List (BitVec 5) := [0x00, 0x04]

/-- The 25 primary opcodes of rule R67 outside the three classes. -/
def primaryOps : List (BitVec 6) :=
  [0x02, 0x03, 0x04, 0x05, 0x06, 0x07, 0x08, 0x14, 0x15, 0x16, 0x17] ++
  [0x20, 0x21, 0x22, 0x23, 0x24, 0x25, 0x26, 0x27, 0x28, 0x29, 0x2A, 0x2B, 0x2E, 0x2F]

/-- The key of the word is one of those 63: the premise of O3. -/
def Handled (w : InstrWord) : Prop :=
  (fieldOp w = 0x00 ∧ fieldFunct w ∈ aluFuncts) ∨ (fieldOp w = 0x01 ∧ fieldRt w ∈ regimmSelectors) ∨
    (fieldOp w = 0x10 ∧ fieldRs w ∈ cop0Selectors) ∨ fieldOp w ∈ primaryOps

theorem decodeAlu_isSome_iff (w : InstrWord) : (decodeAlu w).isSome = true ↔ fieldFunct w ∈ aluFuncts := by
  simp only [aluFuncts, List.mem_append, List.mem_cons, List.not_mem_nil, ← BitVec.toNat_inj]
  unfold decodeAlu
  split <;> simp_all

theorem decodeRegimm_isSome_iff (w : InstrWord) :
    (decodeRegimm w).isSome = true ↔ fieldRt w ∈ regimmSelectors := by
  simp only [regimmSelectors, List.mem_cons, List.not_mem_nil, ← BitVec.toNat_inj]
  unfold decodeRegimm
  split <;> simp_all

theorem decodeCop0_isSome_iff (w : InstrWord) : (decodeCop0 w).isSome = true ↔ fieldRs w ∈ cop0Selectors := by
  simp only [cop0Selectors, List.mem_cons, List.not_mem_nil, ← BitVec.toNat_inj]
  unfold decodeCop0
  split <;> simp_all

theorem decodePrimary_isSome_iff (w : InstrWord) : (decodePrimary w).isSome = true ↔ fieldOp w ∈ primaryOps := by
  simp only [primaryOps, List.mem_append, List.mem_cons, List.not_mem_nil, ← BitVec.toNat_inj]
  unfold decodePrimary
  split <;> simp_all

theorem handlerOf_isSome_iff (w : InstrWord) : (handlerOf w).isSome = true ↔ Handled w := by
  cases hk : keyOf w with
  | alu f =>
    have hop := (fieldOp_of_alu hk).1
    simp [handlerOf_of_alu hop, decodeAlu_isSome_iff, Handled, hop, primaryOps]
  | regimm f =>
    have hop := (fieldOp_of_regimm hk).1
    simp [handlerOf_of_regimm hop, decodeRegimm_isSome_iff, Handled, hop, primaryOps]
  | cop0 f =>
    have hop := (fieldOp_of_cop0 hk).1
    simp [handlerOf_of_cop0 hop, decodeCop0_isSome_iff, Handled, hop, primaryOps]
  | primary f =>
    obtain ⟨-, h0, h1, h2⟩ := fieldOp_of_primary hk
    simp only [handlerOf_of_primary h0 h1 h2, decodePrimary_isSome_iff, Handled, h0, h1, h2, false_and, false_or]

theorem decode_of_handled {w : InstrWord} (h : Handled w) : ∃ i, decode w = .ok i := by
  obtain ⟨i, hi⟩ := Option.isSome_iff_exists.1 ((handlerOf_isSome_iff w).2 h)
  exact ⟨i, decode_ok_iff.2 hi⟩

theorem decode_of_not_handled {w : InstrWord} (h : ¬ Handled w) : decode w = .error (.noHandler (keyOf w)) := by
  rw [← handlerOf_isSome_iff, Option.not_isSome_iff_eq_none] at h
  unfold decode
  rw [h]

end Sys2Proof

namespace Sys2Proof.Machine

/-- Settles O3: a word has a handler exactly when it is `Handled`, and a step that fetches another halts. -/
theorem theKeysWithHandlersAreThose63 : Obligations.TheKeysWithHandlersAreThose63 := by
  intro w
  refine ⟨decode_of_handled, fun h => ⟨decode_of_not_handled h, fun s s1 hrun hf => ?_⟩⟩
  exact step_of_decode_error hrun hf (decode_of_not_handled h)

/-! ### Targets and links in the terms of the statements (45_branches.md rules R145, R147) -/

theorem branchTarget_eq_branchSum (pc : Addr) (imm : BitVec 16) : branchTarget pc imm = branchSum pc imm := by
  have hfour : BitVec.twoPow 32 2 = 4 := rfl
  unfold branchTarget branchSum
  rw [BitVec.ofInt_add, BitVec.ofInt_add, BitVec.ofInt_mul, BitVec.shiftLeft_eq_mul_twoPow, BitVec.mul_comm, hfour]
  simp [BitVec.signExtend]

theorem linkValue_eq (pc : Addr) : linkValue pc = BitVec.ofNat 64 ((pc.toNat + 8) % 2 ^ 32) :=
  BitVec.eq_of_toNat_eq (by simp [linkValue, zext64])

/-! ### The three shapes a pseudo-instruction's expansion has -/

theorem exec_writesOnlyRegister {i : Instr} {s : State} {rd : RegIdx} {v v' : Word}
    (he : exec i s = .next (s.writeReg rd v')) (hv : v' = v) :
    ∃ t, exec i s = .next t ∧ WritesOnlyRegister s t rd v :=
  ⟨_, he, hv ▸ writesOnlyRegister_writeReg s rd v'⟩

theorem branchOn_schedulesOnly (s : State) (imm : BitVec 16) {taken : Bool} {P : Prop} [Decidable P]
    (h : taken = true ↔ P) :
    ∃ t, branchOn taken imm s = .next t ∧ SchedulesOnly s t P (branchSum s.pc imm) := by
  refine ⟨_, rfl, ?_, registersKept_of_eq rfl, memoryKept_of_eq rfl rfl⟩
  simp only [State.enqueue, branchTarget_eq_branchSum, h]

theorem branchLink_schedulesAndLinks (s : State) (imm : BitVec 16) {cond : Word → Bool} {rs : RegIdx} {P : Prop}
    [Decidable P] (h : cond (s.readReg rs) = true ↔ P) :
    ∃ t, branchLink cond rs imm s = .next t ∧ SchedulesAndLinks s t P (branchSum s.pc imm) 31 := by
  refine ⟨_, rfl, ?_, ?_, memoryKept_of_eq rfl rfl⟩
  · simp only [State.enqueue, State.writeReg_pc, branchTarget_eq_branchSum, h]
    rfl
  · rw [← linkValue_eq]
    exact registerWritten_writeReg s linkIndex (linkValue s.pc)

/-! ### Pseudo-instructions (30_encoding.md rules R73, R75) -/

/-- The opcodes of LUI, ORI and ADDIU are in no map. -/
theorem not_handled_of_constant_builder {op : BitVec 6} (operands : BitVec 26)
    (h : op ∈ ([0x0F, 0x0D, 0x09] : List (BitVec 6))) :
    ¬ Handled (jWord op operands) ∧ keyOf (jWord op operands) = .primary op := by
  simp only [List.mem_cons, List.not_mem_nil, or_false] at h
  rcases h with rfl | rfl | rfl <;> simp [Handled, keyOf, primaryOps]

/-- Settles O58: the words are the encodings of the expansions (O1), the effects are theirs at the operand r0, and the
words of LUI, ORI and ADDIU are among those without a handler (O3). -/
theorem pseudoInstructionsActAsTheirExpansions : Obligations.PseudoInstructionsActAsTheirExpansions := by
  constructor
  · intro rd rs rt imm s
    have hdecode := decodeOfEncodeIsTheInstruction
    refine ⟨⟨decode_zero, exec_pseudoNop s⟩, ⟨hdecode (pseudoMove rd rs), ?_⟩, ⟨hdecode (pseudoLi rt imm), ?_⟩,
      ⟨hdecode (pseudoB imm), ?_⟩, ⟨hdecode (pseudoBal imm), ?_⟩, ⟨hdecode (pseudoNeg rd rt), ?_⟩,
      ⟨hdecode (pseudoNot rd rs), ?_⟩⟩
    · exact exec_writesOnlyRegister rfl BitVec.or_zero
    · exact exec_writesOnlyRegister rfl (BitVec.zero_add _)
    · exact branchOn_schedulesOnly s imm (by simp [condEq])
    · exact branchLink_schedulesAndLinks s imm (by simp [condGez])
    · exact exec_writesOnlyRegister rfl (BitVec.zero_sub _)
    · exact exec_writesOnlyRegister rfl (congrArg _ BitVec.or_zero)
  · intro op hop operands
    obtain ⟨hno, hkey⟩ := not_handled_of_constant_builder operands hop
    rw [← hkey]
    exact (theKeysWithHandlersAreThose63 (jWord op operands)).2 hno

end Sys2Proof.Machine

/-! # The dispatch and the step (40_dispatch_step.md) -/

namespace Sys2Proof.Machine

/-! ### What the fetch keeps (40_dispatch_step.md rule R82) -/

theorem ReadsOnly.pc {s t : State} (h : ReadsOnly s t) : t.pc = s.pc := by rw [h]
theorem ReadsOnly.sched {s t : State} (h : ReadsOnly s t) : t.sched = s.sched := by rw [h]
theorem ReadsOnly.run {s t : State} (h : ReadsOnly s t) : t.run = s.run := by rw [h]
theorem ReadsOnly.runRequest {s t : State} (h : ReadsOnly s t) : t.runRequest = s.runRequest := by rw [h]
theorem ReadsOnly.regs {s t : State} (h : ReadsOnly s t) : t.regs = s.regs := by rw [h]

/-! ### The contract of the handlers (40_dispatch_step.md rule R91) -/

/-- No handler writes what belongs to the driver and to the configuration. -/
theorem HandlerEffect.driver_kept {i : Instr} {s t : State} (h : HandlerEffect i s t) :
    t.pc = s.pc ∧ t.ll = s.ll ∧ t.regions = s.regions ∧ t.runRequest = s.runRequest := by
  cases h with
  | register | accumulators | schedule | log | unmapped => exact ⟨rfl, rfl, rfl, rfl⟩
  | load rs rt imm n ts v =>
    rw [readTargets_readsOnly s ts]
    exact ⟨rfl, rfl, rfl, rfl⟩
  | store rs rt imm n ts =>
    rw [writeTargets_writesOnly s _]
    exact ⟨rfl, rfl, rfl, rfl⟩

/-- The scheduler is the control transfers' alone, and each of them leaves an effect pending. -/
theorem HandlerEffect.sched_kept_or_pending {i : Instr} {s t : State} (h : HandlerEffect i s t) :
    (i.isControlTransfer = false ∧ t.sched = s.sched) ∨
    (i.isControlTransfer = true ∧ ∃ e, t.sched = .pending e) := by
  cases h with
  | register _ _ hct | accumulators _ _ _ hct | log hct | unmapped _ _ _ _ _ _ _ hct => exact .inl ⟨hct, rfl⟩
  | schedule e _ _ hct => exact .inr ⟨hct, e, rfl⟩
  | load rs rt imm n ts v _ hct =>
    rw [readTargets_readsOnly s ts]
    exact .inl ⟨hct, rfl⟩
  | store rs rt imm n ts _ hct =>
    rw [writeTargets_writesOnly s _]
    exact .inl ⟨hct, rfl⟩

/-- Only a load or a store at an unmapped byte of its own access halts (60_exceptions.md rule R213). -/
theorem HandlerEffect.run_kept_or_unmapped {i : Instr} {s t : State} (h : HandlerEffect i s t) :
    t.run = s.run ∨ ∃ rs rt imm n intent a,
      ((intent = .read ∧ isLoad i n rs rt imm) ∨ (intent = .write ∧ isStore i n rs rt imm)) ∧
      resolveAll s.regions intent (accessAddrs (effectiveAddr (s.readReg rs) imm) n) = .error (.unmapped a) ∧
      t = s.halt (.unmappedAddress (some (encode i)) s.pc a) := by
  cases h with
  | register | accumulators | schedule | log => exact .inl rfl
  | load rs rt imm n ts v =>
    rw [readTargets_readsOnly s ts]
    exact .inl rfl
  | store rs rt imm n ts =>
    rw [writeTargets_writesOnly s _]
    exact .inl rfl
  | unmapped rs rt imm n intent a hi _ ha => exact .inr ⟨rs, rt, imm, n, intent, a, hi, ha, rfl⟩

/-- Settles O29: by the effects a handler can have (`exec_effect`). -/
theorem handlersLeaveTheDriversStateAlone : Obligations.HandlersLeaveTheDriversStateAlone := by
  intro i s t h
  have heffect := exec_effect h
  obtain ⟨hpc, hll, hregions, hrequest⟩ := heffect.driver_kept
  refine ⟨hpc, hll, hregions, hrequest, ?_, ?_, heffect.run_kept_or_unmapped⟩
  · rcases heffect.sched_kept_or_pending with ⟨-, hsched⟩ | ⟨hct, -⟩
    · exact fun _ => hsched
    · simp [hct]
  · rcases heffect.sched_kept_or_pending with ⟨hct, -⟩ | ⟨-, hpending⟩
    · simp [hct]
    · exact fun _ => hpending

/-! ### The fetched word (20_memory.md rule R49) -/

/-- Four bytes, the first as the most significant, are the word they make side by side. -/
theorem ofNat_bigEndian_four (b0 b1 b2 b3 : Byte) :
    BitVec.ofNat 32 (bigEndian [b0, b1, b2, b3]) = b0 ++ b1 ++ b2 ++ b3 := by
  apply BitVec.eq_of_toNat_eq
  simp only [BitVec.toNat_ofNat, toNat_append_eq, bigEndian, List.foldl_cons, List.foldl_nil]
  omega

/-- Settles O33: a readable access reads its bytes (`memRead_of_readable`), and they make the word. -/
theorem fetchReadsTheBigEndianWordAtPc : Obligations.FetchReadsTheBigEndianWordAtPc := by
  intro s b0 b1 b2 b3 h
  have hread : s.memRead s.pc 4 =
      .ok ([b0, b1, b2, b3], { s with log := s.log ++ dummyReads s.regions (accessAddrs s.pc 4) }) :=
    memRead_of_readable h
  unfold State.fetch
  rw [hread, ← ofNat_bigEndian_four]

/-! ### A step of a decoded instruction (40_dispatch_step.md rules R84 to R86) -/

theorem exec_ne_refused (i : Instr) (s : State) (r : Refusal) : exec i s ≠ .refused r := by
  rcases exec_cases i s with ⟨t, ht, -⟩ | ⟨hf, -⟩
  · simp [ht]
  · simp [hf]

/-- Settles O32: the step is the issue of the decoded instruction, and the fetch keeps the scheduler. -/
theorem stepRunsTheDecodedInstruction : Obligations.StepRunsTheDecodedInstruction := by
  intro s s1 w i hrun hf hd hslot
  have hsched := (fetch_readsOnly hf).sched
  rw [step_of_decode_ok hrun hf hd, ← hsched]
  rw [← hsched] at hslot
  refine ⟨fun t he ht => ?_, fun t d he ht => ?_, fun f he => issue_of_exec_fault w hslot he, exec_ne_refused i _⟩
  · rw [issue_of_exec_next w hslot he, finish_of_running ht]
    rcases s1.sched with _ | _ | target <;> rfl
  · rw [issue_of_exec_next w hslot he, finish_of_halted ht]
    rfl

/-- A step that completes has executed an instruction: `pc` goes where the carried effect says, and the scheduler holds
an effect exactly after a control transfer, which no effect was carried into. -/
theorem StepEnd.completed {s s' : State} (h : StepEnd s s') (hrun : s'.run = .running) :
    ∃ w s1 i, s.fetch = .ok (w, s1) ∧ decode w = .ok i ∧ s'.pc = nextPc s.sched s.pc ∧
      ((i.isControlTransfer = false ∧ s'.sched = .idle) ∨
       (i.isControlTransfer = true ∧ s.sched = .idle ∧ ∃ e, s'.sched = .pending e)) := by
  cases h with
  | unmappedFetch | decodeError | branchInDelaySlot => cases hrun
  | handled w s1 i t hf hd hslot he =>
    refine ⟨w, s1, i, hf, hd, ?_⟩
    have hfetch := fetch_readsOnly hf
    cases ht : t.run with
    | halted d =>
      rw [finish_of_halted ht] at hrun
      cases hrun
    | running =>
      have heffect := exec_effect he
      obtain ⟨hpc, -⟩ := heffect.driver_kept
      rw [finish_of_running ht, hfetch.sched, hpc, ← hfetch.pc]
      refine ⟨rfl, heffect.sched_kept_or_pending.imp_right fun ⟨hct, hpending⟩ => ⟨hct, ?_, hpending⟩⟩
      by_contra hcarried
      exact hslot ⟨hcarried, hct⟩

/-- A step that halts keeps `pc` and the scheduler (60_exceptions.md rule R212). -/
theorem StepEnd.halted {s s' : State} (h : StepEnd s s') (hrun : s'.run ≠ .running) :
    s'.pc = s.pc ∧ s'.sched = s.sched := by
  cases h with
  | unmappedFetch => exact ⟨rfl, rfl⟩
  | decodeError w s1 hf | branchInDelaySlot w s1 i hf =>
    exact ⟨(fetch_readsOnly hf).pc, (fetch_readsOnly hf).sched⟩
  | handled w s1 i t hf =>
    cases ht : t.run with
    | halted d =>
      rw [finish_of_halted ht]
      exact ⟨(fetch_readsOnly hf).pc, (fetch_readsOnly hf).sched⟩
    | running =>
      rw [finish_of_running ht] at hrun
      exact absurd ht hrun

/-- Settles O37: by the ends a step can have, the delay-slot table being `nextPc`. -/
theorem pcAndSchedulerFollowTheTable : Obligations.PcAndSchedulerFollowTheTable := by
  intro s s1 s' w i hrun hf hd hstep
  have hend := step_end hrun hstep
  refine ⟨fun hrun' => ?_, hend.halted⟩
  obtain ⟨w', s1', i', hf', hd', hpc, hsched⟩ := hend.completed hrun'
  cases hf.symm.trans hf'
  cases hd.symm.trans hd'
  rcases hsched with ⟨hct, hsched'⟩ | ⟨hct, hidle, hpending⟩
  · rcases hs : s.sched with _ | _ | target <;> simp [hpc, hs, nextPc, hct, hsched']
  · simp [hpc, hidle, nextPc, hct, hpending]

/-! ### Blocks that take no step (40_dispatch_step.md rule R92) -/

theorem run_succ_of_step_next {M : Host.Core} {s s' : M.State} (n : Nat) (h : M.step s = .next s') :
    M.run (n + 1) s = M.run n s' := by
  simp only [Host.Core.run, h]

/-- Settles O40: by induction over the iterations, each of which answers the same state. -/
theorem haltedOrPausedBlocksHoldTheirState : Obligations.HaltedOrPausedBlocksHoldTheirState := by
  intro s n h
  induction n with
  | zero => rfl
  | succ n ih => exact (run_succ_of_step_next n (step_of_not_stepping h)).trans ih

/-! ### A redirect takes effect after the delay slot (40_dispatch_step.md rule R90) -/

/-- The absolute jump target as a number: the page of the jump's own address, then the word index. -/
theorem jumpTarget_eq (pc : Addr) (target : BitVec 26) :
    jumpTarget pc target = BitVec.ofNat 32 (pc.toNat / 2 ^ 28 * 2 ^ 28 + 4 * target.toNat) := by
  apply BitVec.eq_of_toNat_eq
  simp only [jumpTarget, toNat_append_eq, BitVec.extractLsb'_toNat, Nat.shiftRight_eq_div_pow, BitVec.toNat_ofNat]
  omega

/-- The step after a pending redirect, if it completes, ends at the redirect's target. -/
theorem step_of_pending_redirect {s u : State} {a : Addr} (h : Stepping s) (hsched : s.sched = .pending (.redirect a))
    (hstep : step s = .next u) (hrun : u.run = .running) : u.pc = a ∧ u.sched = .idle := by
  obtain ⟨-, -, i, -, -, hpc, ⟨-, hidle⟩ | ⟨-, hidle, -⟩⟩ := (step_end h hstep).completed hrun
  · rw [hsched] at hpc
    exact ⟨hpc, hidle⟩
  · cases hsched.symm.trans hidle

/-- From Idle, a step whose handler gives the scheduler a redirect goes on to the next word with the handler's
registers, and the step after it, if it completes, ends at the target. -/
theorem step_of_exec_redirect {s s1 t : State} {w : InstrWord} {i : Instr} {a : Addr} (h : Stepping s)
    (hidle : s.sched = .idle) (hf : s.fetch = .ok (w, s1)) (hd : decode w = .ok i)
    (he : exec i { s1 with sched := .idle } = .next t) (hrun : t.run = .running)
    (hsched : t.sched = .pending (.redirect a)) :
    ∃ t', step s = .next t' ∧ Stepping t' ∧ t'.pc = s.pc + 4 ∧ t'.regs = t.regs ∧
      ∀ u, step t' = .next u → u.run = .running → u.pc = a ∧ u.sched = .idle := by
  have hfetch := fetch_readsOnly hf
  obtain ⟨hpc, -, -, hrequest⟩ := (exec_effect he).driver_kept
  obtain ⟨hnext, -⟩ := stepRunsTheDecodedInstruction s s1 w i h hf hd fun hslot => hslot.1 hidle
  have hstepping : Stepping { t with pc := t.pc + 4 } := ⟨hrun, (hrequest.trans hfetch.runRequest).trans h.2⟩
  refine ⟨{ t with pc := t.pc + 4 }, ?_, hstepping, ?_, rfl,
    fun u hu hrun' => step_of_pending_redirect hstepping hsched hu hrun'⟩
  · rw [hnext t he hrun, hidle]
  · exact congrArg (· + 4) (hpc.trans hfetch.pc)

/-- Settles O46: BEQ and JAL are issued with a redirect (`step_of_exec_redirect`), whose target is theirs. -/
theorem takenBranchTakesEffectAfterTheSlot : Obligations.TakenBranchTakesEffectAfterTheSlot := by
  refine ⟨fun s s1 w rs rt imm h hidle hf hd heq => ?_, fun s s1 w target h hidle hf hd => ?_⟩
  · have hfetch := fetch_readsOnly hf
    have htaken : condEq (s1.readReg rs) (s1.readReg rt) = true := by
      rw [readReg_congr hfetch.regs, readReg_congr hfetch.regs, heq]
      exact beq_self_eq_true _
    have he : exec (.beq rs rt imm) { s1 with sched := .idle } =
        .next ({ s1 with sched := .idle }.enqueue (.redirect (branchSum s.pc imm))) := by
      rw [← branchTarget_eq_branchSum, ← hfetch.pc]
      show branchOn (condEq (s1.readReg rs) (s1.readReg rt)) imm { s1 with sched := .idle } = _
      rw [htaken]
      rfl
    obtain ⟨t, hstep, hrun, hpc, -, hslot⟩ := step_of_exec_redirect h hidle hf hd he (hfetch.run.trans h.1) rfl
    exact ⟨t, hstep, hrun, hpc, hslot⟩
  · have hfetch := fetch_readsOnly hf
    obtain ⟨t, hstep, hrun, hpc, hregs, hslot⟩ :=
      step_of_exec_redirect h hidle hf hd (i := .jal target) rfl (hfetch.run.trans h.1) rfl
    refine ⟨t, hstep, hrun, hpc, ?_, fun u hu hrun' => ?_⟩
    · rw [readReg_congr hregs]
      rw [← linkValue_eq, ← hfetch.pc]
      exact (readReg_writeReg { s1 with sched := .idle } linkIndex 31 _).trans (if_pos ⟨rfl, by decide⟩)
    · obtain ⟨hpc', hidle'⟩ := hslot u hu hrun'
      refine ⟨hidle', hpc'.trans ?_⟩
      rw [← jumpTarget_eq, ← hfetch.pc]

end Sys2Proof.Machine

/-! # Addition and subtraction on 64 bits (41_alu_register.md) -/

namespace Sys2Proof.Machine

/-- Settles O5: each of the words is the encoding of its instruction (O1); the opcode 0x3F of the last is in no map
(O3). -/
theorem wordsOfTheSpecDecodeAsWritten : Obligations.WordsOfTheSpecDecodeAsWritten := by
  have hdecode := decodeOfEncodeIsTheInstruction
  have hno : ¬ Handled 0xFFFFFFFF#32 := by unfold Handled; decide
  exact ⟨hdecode (.add 1 2 3 0), hdecode (.addi 1 2 0xFFFD), hdecode (.sll 0 1 2 4), hdecode (.mult 1 2 0),
    hdecode (.slt 1 2 3 0), hdecode (.beq 1 2 4), hdecode (.bltzal 1 4), hdecode (.j 0x40), hdecode (.jr 31 0),
    hdecode (.sw 1 2 8), hdecode (.syscall 0), hdecode (.mfc0 2 12 0), decode_of_not_handled hno⟩

/-- Settles O6: the words are the encodings of the instructions (O1), and each writes one register only, with the
wrapping sum or difference of the sources as they were (`exec_writesOnlyRegister`). -/
theorem addAndSubtractWrapOnSixtyFourBits : Obligations.AddAndSubtractWrapOnSixtyFourBits := by
  intro rs rt rd sa s
  have hdecode := decodeOfEncodeIsTheInstruction
  exact ⟨⟨hdecode (.add rs rt rd sa), exec_writesOnlyRegister rfl rfl⟩,
    ⟨hdecode (.addu rs rt rd sa), exec_writesOnlyRegister rfl rfl⟩,
    ⟨hdecode (.sub rs rt rd sa), exec_writesOnlyRegister rfl rfl⟩,
    ⟨hdecode (.subu rs rt rd sa), exec_writesOnlyRegister rfl rfl⟩⟩

/-- Adding a sign-extended immediate is the sum over the integers modulo 2^64. -/
theorem add_immWord (a : Word) (imm : BitVec 16) : a + immWord imm = BitVec.ofInt 64 (a.toInt + imm.toInt) := by
  rw [BitVec.ofInt_add, BitVec.ofInt_toInt]
  rfl

/-- Settles O7: the word is the encoding of ADDI (O1), which writes `rt` only, with the sum of `add_immWord`. -/
theorem addImmediateSignExtends : Obligations.AddImmediateSignExtends := by
  intro rs rt imm s
  exact ⟨decodeOfEncodeIsTheInstruction (.addi rs rt imm),
    exec_writesOnlyRegister rfl (add_immWord (s.readReg rs) imm)⟩

end Sys2Proof.Machine

/-! # Shifts (42_shifts.md) -/

namespace Sys2Proof.Machine

/-! ### Amounts and results as numbers (rules R110 to R112) -/

theorem low32_toNat (v : Word) : (low32 v).toNat = v.toNat % 2 ^ 32 := by
  rw [low32, BitVec.extractLsb'_toNat, Nat.shiftRight_zero]

/-- A register gives its low five bits as the amount. -/
theorem shiftAmount_toNat (v : Word) : (shiftAmount v).toNat = v.toNat % 32 := by
  rw [shiftAmount, BitVec.extractLsb'_toNat, Nat.shiftRight_zero]

section
variable (v : Word) {n : BitVec 5} {k : Nat} (h : n.toNat = k)
include h

theorem shiftLeft_eq : shiftLeft v n = BitVec.ofNat 64 (v.toNat * 2 ^ k) := by
  apply BitVec.eq_of_toNat_eq
  rw [shiftLeft, h, BitVec.toNat_shiftLeft, Nat.shiftLeft_eq, BitVec.toNat_ofNat]

theorem shiftRight_eq : shiftRight v n = BitVec.ofNat 64 (v.toNat / 2 ^ k) := by
  rw [shiftRight, h, ← Nat.shiftRight_eq_div_pow, ← BitVec.toNat_ushiftRight, BitVec.ofNat_toNat, BitVec.setWidth_eq]

/-- The shift is logical on the low 32 bits, SRA's retained defect (rule R112). -/
theorem shiftRightTruncated_eq :
    shiftRightTruncated v n = BitVec.ofNat 64 (v.toNat % 2 ^ 32 / 2 ^ k) := by
  rw [shiftRightTruncated, h, ← low32_toNat, ← Nat.shiftRight_eq_div_pow, ← BitVec.toNat_ushiftRight,
    BitVec.ofNat_toNat, zext64]

end

/-- Settles O8: the words are the encodings of the instructions (O1), and each writes `rd` only, with `x[rt]` shifted
by `sa`. -/
theorem immediateShiftsFollowTheirWidths : Obligations.ImmediateShiftsFollowTheirWidths := by
  intro rs rt rd sa s
  have hdecode := decodeOfEncodeIsTheInstruction
  exact ⟨⟨hdecode (.sll rs rt rd sa), exec_writesOnlyRegister rfl (shiftLeft_eq _ rfl)⟩,
    ⟨hdecode (.srl rs rt rd sa), exec_writesOnlyRegister rfl (shiftRight_eq _ rfl)⟩,
    ⟨hdecode (.sra rs rt rd sa), exec_writesOnlyRegister rfl (shiftRightTruncated_eq _ rfl)⟩⟩

/-- Settles O9: as O8, with the amount `x[rs]` modulo 32 (`shiftAmount_toNat`). -/
theorem variableShiftsUseFiveBits : Obligations.VariableShiftsUseFiveBits := by
  intro rs rt rd sa s
  have hdecode := decodeOfEncodeIsTheInstruction
  have hamount := shiftAmount_toNat (s.readReg rs)
  exact ⟨⟨hdecode (.sllv rs rt rd sa), exec_writesOnlyRegister rfl (shiftLeft_eq _ hamount)⟩,
    ⟨hdecode (.srlv rs rt rd sa), exec_writesOnlyRegister rfl (shiftRight_eq _ hamount)⟩,
    ⟨hdecode (.srav rs rt rd sa), exec_writesOnlyRegister rfl (shiftRightTruncated_eq _ hamount)⟩⟩

end Sys2Proof.Machine

/-! # Multiply, divide, HI and LO (43_muldiv_hilo.md) -/

namespace Sys2Proof.Machine

/-! ### The words of the family, field by field (30_encoding.md rule R61) -/

theorem decode_of_encode_eq {w : InstrWord} {i : Instr} (h : encode i = w) : decode w = .ok i :=
  h ▸ decodeOfEncodeIsTheInstruction i

/-- The encoder brackets the operand bits of a word together; the statements write its fields in a row. -/
theorem aluWord_append {j k : Nat} (x : BitVec j) (y : BitVec k) (f : BitVec 6) (h : j + k = 20) :
    aluWord ((x ++ y).cast h) f = (0x00#6 ++ x ++ y ++ f).cast (by omega) := by
  apply BitVec.eq_of_toNat_eq
  simp only [aluWord_toNat, BitVec.toNat_cast, toNat_append_eq]
  simp

theorem aluWord_append_append {j k l : Nat} (x : BitVec j) (y : BitVec k) (z : BitVec l) (f : BitVec 6)
    (h : j + k + l = 20) :
    aluWord ((x ++ y ++ z).cast h) f = (0x00#6 ++ x ++ y ++ z ++ f).cast (by omega) := by
  apply BitVec.eq_of_toNat_eq
  simp only [aluWord_toNat, BitVec.toNat_cast, toNat_append_eq]
  simp

/-! ### The halves that HI and LO take, as signed numbers (rule R128) -/

@[simp] theorem sext64_toInt (v : BitVec 32) : (sext64 v).toInt = v.toInt :=
  BitVec.toInt_signExtend_of_le (by decide)

theorem sext64_ofInt_toInt (n : Int) : (sext64 (BitVec.ofInt 32 n)).toInt = n.bmod (2 ^ 32) := by
  rw [sext64_toInt, BitVec.toInt_ofInt]

/-- The product is held modulo 2^64; dividing that residue by 2^32 still gives the floor of the exact product by 2^32,
modulo 2^32. -/
theorem sext64_upper_ofInt_toInt (p : Int) :
    (sext64 ((BitVec.ofInt 64 p).extractLsb' 32 32)).toInt = (p / 2 ^ 32).bmod (2 ^ 32) := by
  rw [sext64_toInt, BitVec.toInt_extractLsb', BitVec.toNat_ofInt, Nat.shiftRight_eq_div_pow, ← Int.emod_bmod,
    ← Int.emod_bmod (p / _)]
  congr 1
  omega

theorem sext64_lower_ofInt_toInt (p : Int) :
    (sext64 ((BitVec.ofInt 64 p).extractLsb' 0 32)).toInt = p.bmod (2 ^ 32) := by
  rw [sext64_toInt, BitVec.toInt_extractLsb', BitVec.toNat_ofInt, Nat.shiftRight_zero, ← Int.emod_bmod,
    ← Int.emod_bmod p]
  congr 1
  omega

/-! ### What the shared operations write (rules R120 to R123) -/

theorem exec_writesOnlyHiLo {i : Instr} {s : State} {hi lo : Word}
    (he : exec i s = .next { s with hi := hi, lo := lo }) :
    ∃ t, exec i s = .next t ∧ WritesOnlyHiLo s t hi lo :=
  ⟨_, he, rfl, registersKept_of_eq rfl, memoryKept_of_eq rfl rfl⟩

theorem exec_writesProduct {i : Instr} {s : State} {p : Int}
    (he : exec i s = .next (s.writeProduct (BitVec.ofInt 64 p))) :
    ∃ t hi lo, exec i s = .next t ∧ WritesOnlyHiLo s t hi lo ∧
      hi.toInt = (p / 2 ^ 32).bmod (2 ^ 32) ∧ lo.toInt = p.bmod (2 ^ 32) := by
  obtain ⟨t, ht, hw⟩ := exec_writesOnlyHiLo he
  exact ⟨t, _, _, ht, hw, sext64_upper_ofInt_toInt p, sext64_lower_ofInt_toInt p⟩

theorem exec_writesQuotient {i : Instr} {s : State} {q r : Int} (he : exec i s = .next (s.writeQuotient q r)) :
    ∃ t hi lo, exec i s = .next t ∧ WritesOnlyHiLo s t hi lo ∧
      lo.toInt = q.bmod (2 ^ 32) ∧ hi.toInt = r.bmod (2 ^ 32) := by
  obtain ⟨t, ht, hw⟩ := exec_writesOnlyHiLo he
  exact ⟨t, _, _, ht, hw, sext64_ofInt_toInt q, sext64_ofInt_toInt r⟩

theorem exec_drawsHiLo {i : Instr} {s : State} (he : exec i s = .next s.drawHiLo) :
    ∃ t, exec i s = .next t ∧
      t = { s with hi := t.hi, lo := t.lo, draws := t.draws } ∧ RegistersKept s t ∧ MemoryKept s t :=
  ⟨_, he, rfl, registersKept_of_eq rfl, memoryKept_of_eq rfl rfl⟩

/-! ### DIV and DIVU, an equation per case (rules R122, R123, R129) -/

section
variable {rs rt : RegIdx} {s : State} (ign : BitVec 10)

theorem exec_div_of_zero (h : (low32 (s.readReg rt)).toInt = 0) : exec (.div rs rt ign) s = .next s.drawHiLo :=
  if_pos h

theorem exec_div_of_ne_zero (h : (low32 (s.readReg rt)).toInt ≠ 0) :
    exec (.div rs rt ign) s = .next (s.writeQuotient
      ((low32 (s.readReg rs)).toInt.tdiv (low32 (s.readReg rt)).toInt)
      ((low32 (s.readReg rs)).toInt.tmod (low32 (s.readReg rt)).toInt)) :=
  if_neg h

theorem exec_divu_of_zero (h : (low32 (s.readReg rt)).toNat = 0) : exec (.divu rs rt ign) s = .next s.drawHiLo :=
  if_pos h

theorem exec_divu_of_ne_zero (h : (low32 (s.readReg rt)).toNat ≠ 0) :
    exec (.divu rs rt ign) s = .next (s.writeQuotient
      ((low32 (s.readReg rs)).toNat / (low32 (s.readReg rt)).toNat : Nat)
      ((low32 (s.readReg rs)).toNat % (low32 (s.readReg rt)).toNat : Nat)) :=
  if_neg h

end

/-! ### The signed quotient and remainder (rules R130, R131) -/

/-- The exact quotient has a signed 32-bit value, but for -2^31 by -1. -/
theorem tdiv_bmod {a b : BitVec 32} (h : ¬ (a.toInt = -2 ^ 31 ∧ b.toInt = -1)) :
    (a.toInt.tdiv b.toInt).bmod (2 ^ 32) = a.toInt.tdiv b.toInt := by
  have hcorner : a ≠ BitVec.intMin 32 ∨ b ≠ -1#32 := by
    by_contra! hab
    obtain ⟨rfl, rfl⟩ := hab
    exact h (by decide)
  rw [← BitVec.toInt_sdiv, BitVec.toInt_sdiv_of_ne_or_ne a b hcorner]

theorem tmod_bmod (a b : BitVec 32) : (a.toInt.tmod b.toInt).bmod (2 ^ 32) = a.toInt.tmod b.toInt := by
  rw [← BitVec.toInt_srem, BitVec.toInt_bmod_cancel]

theorem abs_tmod_lt (a : Int) {b : Int} (h : b ≠ 0) : |a.tmod b| < |b| := by
  rw [Int.abs_eq_natAbs, Int.abs_eq_natAbs, Int.natAbs_tmod]
  exact Int.ofNat_lt.2 (Nat.mod_lt _ (Int.natAbs_pos.2 h))

theorem tmod_eq_zero_or_neg_iff (a b : Int) : a.tmod b = 0 ∨ (a.tmod b < 0 ↔ a < 0) := by
  have hsign := Int.sign_tmod a b
  split at hsign
  · exact .inl (Int.sign_eq_zero_iff_zero.1 hsign)
  · exact .inr (by rw [← Int.sign_neg_iff, hsign, Int.sign_neg_iff])

/-- Settles O12: the words are the encodings of the instructions (O1), and each writes the halves of the exact product
of its operands (`exec_writesProduct`). -/
theorem productsSplitIntoHiAndLo : Obligations.ProductsSplitIntoHiAndLo := by
  intro rs rt ign s
  refine ⟨⟨decode_of_encode_eq (aluWord_append_append rs rt ign 0x18 rfl), exec_writesProduct rfl⟩,
    ⟨decode_of_encode_eq (aluWord_append_append rs rt ign 0x19 rfl), exec_writesProduct ?_⟩⟩
  rw [← low32_toNat, ← low32_toNat, BitVec.ofInt_natCast]
  rfl

/-- Settles O13: away from the two corners DIV writes the quotient rounded toward zero and its remainder, neither of
which the narrowing to 32 bits changes; DIVU writes the floor and the residue. -/
theorem signedQuotientTruncatesTowardZero : Obligations.SignedQuotientTruncatesTowardZero := by
  constructor
  · intro rs rt ign s a b hb hcorner
    obtain ⟨t, hi, lo, ht, hw, hlo, hhi⟩ := exec_writesQuotient (exec_div_of_ne_zero (rs := rs) ign hb)
    refine ⟨t, hi, lo, ht, hw, ?_⟩
    rw [hlo.trans (tdiv_bmod hcorner), hhi.trans (tmod_bmod _ _)]
    exact ⟨(Int.tdiv_mul_add_tmod a b).symm, abs_tmod_lt a hb, tmod_eq_zero_or_neg_iff a b⟩
  · intro rs rt ign s a b hb
    simp only [a, b, ← low32_toNat] at hb ⊢
    exact exec_writesQuotient (exec_divu_of_ne_zero ign hb)

/-- Settles O14: the exact quotient 2^31 is truncated to 32 bits, and the remainder is 0. -/
theorem signedDivideOverflowTruncates : Obligations.SignedDivideOverflowTruncates := by
  intro rs rt ign s hrs hrt
  have hdividend : (low32 (s.readReg rs)).toInt = -2 ^ 31 := by rw [low32, hrs]; decide
  have hdivisor : (low32 (s.readReg rt)).toInt = -1 := by rw [low32, hrt]; decide
  have hdiv := exec_div_of_ne_zero (rs := rs) ign (by rw [hdivisor]; decide)
  have hquotient : sext64 (BitVec.ofInt 32 (Int.tdiv (-2 ^ 31) (-1))) = 0xFFFFFFFF80000000 := by decide
  have hremainder : sext64 (BitVec.ofInt 32 (Int.tmod (-2 ^ 31) (-1))) = 0 := by decide
  rw [hdividend, hdivisor, State.writeQuotient, hquotient, hremainder] at hdiv
  exact exec_writesOnlyHiLo hdiv

/-- Settles O15: the words are the encodings of the instructions (O1), and by a zero divisor both take the branch that
draws HI and LO. -/
theorem divideByZeroCompletes : Obligations.DivideByZeroCompletes := by
  intro rs rt ign s
  refine ⟨decode_of_encode_eq (aluWord_append_append rs rt ign 0x1A rfl),
    decode_of_encode_eq (aluWord_append_append rs rt ign 0x1B rfl), fun hzero => ?_⟩
  exact ⟨exec_drawsHiLo (exec_div_of_zero ign (by rw [low32, hzero]; rfl)),
    exec_drawsHiLo (exec_divu_of_zero ign (by rw [low32, hzero]; rfl))⟩

/-- Settles O16: the words are the encodings of the instructions (O1), and each writes one register, or one of HI and
LO while the other keeps its value. -/
theorem accumulatorsMoveWhole : Obligations.AccumulatorsMoveWhole := by
  intro r sa ign10 ign15 s
  exact ⟨⟨decode_of_encode_eq (aluWord_append_append ign10 r sa 0x10 rfl), exec_writesOnlyRegister rfl rfl⟩,
    ⟨decode_of_encode_eq (aluWord_append_append ign10 r sa 0x12 rfl), exec_writesOnlyRegister rfl rfl⟩,
    ⟨decode_of_encode_eq (aluWord_append r ign15 0x11 rfl), exec_writesOnlyHiLo rfl⟩,
    ⟨decode_of_encode_eq (aluWord_append r ign15 0x13 rfl), exec_writesOnlyHiLo rfl⟩⟩

end Sys2Proof.Machine


/-! # Comparison and bitwise logic on 64 bits (44_compare_bitwise.md) -/

namespace Sys2Proof.Machine

/-- Settles O10: the words are the encodings of the instructions (O1), and each writes `rd` only, with the comparison
(`lessSigned`, `lessUnsigned`) of the sources as they were. -/
theorem comparesWriteOneOrZero : Obligations.ComparesWriteOneOrZero := by
  intro rs rt rd sa s
  have hdecode := decodeOfEncodeIsTheInstruction
  exact ⟨⟨hdecode (.slt rs rt rd sa), exec_writesOnlyRegister rfl rfl⟩,
    ⟨hdecode (.sltu rs rt rd sa), exec_writesOnlyRegister rfl rfl⟩⟩

theorem exec_writesOnlyRegister_bits {i : Instr} {s : State} {rd : RegIdx} {v : Word} {bit : Nat → Bool}
    (he : exec i s = .next (s.writeReg rd v)) (hbit : ∀ n, n < 64 → v.getLsbD n = bit n) :
    ∃ t v, exec i s = .next t ∧ WritesOnlyRegister s t rd v ∧ ∀ n, n < 64 → v.getLsbD n = bit n := by
  obtain ⟨t, ht, hw⟩ := exec_writesOnlyRegister he rfl
  exact ⟨t, v, ht, hw, hbit⟩

/-- A position of the word is one of NOR's 64: none is left out of the inversion (rule R141). -/
theorem getLsbD_nor (a b : Word) {n : Nat} (h : n < 64) :
    (~~~(a ||| b)).getLsbD n = !(a.getLsbD n || b.getLsbD n) := by
  rw [BitVec.getLsbD_not, decide_eq_true h, Bool.true_and, BitVec.getLsbD_or]

/-- Settles O11: the words are the encodings of the instructions (O1), and each writes `rd` only, with the operation
done position by position. -/
theorem bitwiseActOnEachBit : Obligations.BitwiseActOnEachBit := by
  intro rs rt rd sa s
  have hdecode := decodeOfEncodeIsTheInstruction
  exact ⟨⟨hdecode (.and rs rt rd sa), exec_writesOnlyRegister_bits rfl fun _ _ => BitVec.getLsbD_and⟩,
    ⟨hdecode (.or rs rt rd sa), exec_writesOnlyRegister_bits rfl fun _ _ => BitVec.getLsbD_or⟩,
    ⟨hdecode (.xor rs rt rd sa), exec_writesOnlyRegister_bits rfl fun _ _ => BitVec.getLsbD_xor⟩,
    ⟨hdecode (.nor rs rt rd sa), exec_writesOnlyRegister_bits rfl fun _ => getLsbD_nor _ _⟩⟩

end Sys2Proof.Machine

/-! # The conditional branches (45_branches.md) -/

namespace Sys2Proof.Machine

/-! ### The conditions in the terms of the statements (rules R149 to R154) -/

theorem condEq_iff {a b : Word} : condEq a b = true ↔ a = b := beq_iff_eq

theorem not_condEq_iff {a b : Word} : (!condEq a b) = true ↔ a ≠ b := by
  rw [Bool.not_eq_true', ← Bool.not_eq_true, condEq_iff]

theorem condLez_iff {v : Word} : condLez v = true ↔ v.toInt ≤ 0 := decide_eq_true_iff
theorem condGtz_iff {v : Word} : condGtz v = true ↔ v.toInt > 0 := decide_eq_true_iff
theorem condLtz_iff {v : Word} : condLtz v = true ↔ v.toInt < 0 := decide_eq_true_iff
theorem condGez_iff {v : Word} : condGez v = true ↔ v.toInt ≥ 0 := decide_eq_true_iff

/-! ### The two shapes of a branch (rules R146, R147) -/

theorem exec_schedulesOnly {i : Instr} {s : State} {imm : BitVec 16} {taken : Bool} {P : Prop} [Decidable P]
    (he : exec i s = branchOn taken imm s) (h : taken = true ↔ P) :
    ∃ t, exec i s = .next t ∧ SchedulesOnly s t P (branchSum s.pc imm) :=
  he ▸ branchOn_schedulesOnly s imm h

/-- The condition reads `s`, the state before the link is written: `rs = 31` is no exception. -/
theorem exec_schedulesAndLinks {i : Instr} {s : State} {imm : BitVec 16} {cond : Word → Bool} {rs : RegIdx} {P : Prop}
    [Decidable P] (he : exec i s = branchLink cond rs imm s) (h : cond (s.readReg rs) = true ↔ P) :
    ∃ t, exec i s = .next t ∧ SchedulesAndLinks s t P (branchSum s.pc imm) 31 :=
  he ▸ branchLink_schedulesAndLinks s imm h

theorem sameEffect_of_eq {i j : Instr} {f : State → Result} (hi : exec i = f) (hj : exec j = f) : SameEffect i j :=
  fun s => congrFun (hi.trans hj.symm) s

/-! ### The statements -/

/-- Settles O20: the words are the encodings of the instructions (O1), and each handler is `branchLink`, which writes
the link whatever the condition on the old register says. -/
theorem linkingBranchesLinkTakenOrNot : Obligations.LinkingBranchesLinkTakenOrNot := by
  intro rs imm s
  have hdecode := decodeOfEncodeIsTheInstruction
  exact ⟨⟨hdecode (.bltzal rs imm), exec_schedulesAndLinks rfl condLtz_iff⟩,
    ⟨hdecode (.bgezal rs imm), exec_schedulesAndLinks rfl condGez_iff⟩,
    ⟨hdecode (.bltzall rs imm), exec_schedulesAndLinks rfl condLtz_iff⟩,
    ⟨hdecode (.bgezall rs imm), exec_schedulesAndLinks rfl condGez_iff⟩⟩

/-- Settles O17: the words are the encodings of the instructions (O1), and each handler is `branchOn` with the
comparison of the two registers. -/
theorem twoRegisterBranchesScheduleTheirTarget : Obligations.TwoRegisterBranchesScheduleTheirTarget := by
  intro rs rt imm s
  have hdecode := decodeOfEncodeIsTheInstruction
  exact ⟨⟨hdecode (.beq rs rt imm), exec_schedulesOnly rfl condEq_iff⟩,
    ⟨hdecode (.bne rs rt imm), exec_schedulesOnly rfl not_condEq_iff⟩,
    ⟨hdecode (.beql rs rt imm), exec_schedulesOnly rfl condEq_iff⟩,
    ⟨hdecode (.bnel rs rt imm), exec_schedulesOnly rfl not_condEq_iff⟩⟩

/-- Settles O18: the words are the encodings of the instructions (O1) with `rt` kept, which no handler reads; each
handler is `branchOn` with a comparison of `rs` with 0. -/
theorem zeroTestBranchesScheduleTheirTarget : Obligations.ZeroTestBranchesScheduleTheirTarget := by
  intro rs rt imm s
  have hdecode := decodeOfEncodeIsTheInstruction
  exact ⟨⟨hdecode (.blez rs rt imm), exec_schedulesOnly rfl condLez_iff⟩,
    ⟨hdecode (.bgtz rs rt imm), exec_schedulesOnly rfl condGtz_iff⟩,
    ⟨hdecode (.blezl rs rt imm), exec_schedulesOnly rfl condLez_iff⟩,
    ⟨hdecode (.bgtzl rs rt imm), exec_schedulesOnly rfl condGtz_iff⟩⟩

/-- Settles O19: the words are the encodings of the instructions (O1), and each handler is `branchOn` with the sign of
`rs`. -/
theorem signTestBranchesScheduleTheirTarget : Obligations.SignTestBranchesScheduleTheirTarget := by
  intro rs imm s
  have hdecode := decodeOfEncodeIsTheInstruction
  exact ⟨⟨hdecode (.bltz rs imm), exec_schedulesOnly rfl condLtz_iff⟩,
    ⟨hdecode (.bgez rs imm), exec_schedulesOnly rfl condGez_iff⟩,
    ⟨hdecode (.bltzl rs imm), exec_schedulesOnly rfl condLtz_iff⟩,
    ⟨hdecode (.bgezl rs imm), exec_schedulesOnly rfl condGez_iff⟩⟩

/-- Settles O21: a likely form and its twin are the same shape (`branchTwo`, `branchTest`, `branchLink`) at the same
condition, so their effects are one function of the state. -/
theorem likelyBranchesAreTheirTwins : Obligations.LikelyBranchesAreTheirTwins := by
  intro rs rt imm
  exact ⟨sameEffect_of_eq (f := branchTwo condEq rs rt imm) rfl rfl,
    sameEffect_of_eq (f := branchTwo (fun a b => !condEq a b) rs rt imm) rfl rfl,
    sameEffect_of_eq (f := branchTest condLez rs imm) rfl rfl, sameEffect_of_eq (f := branchTest condGtz rs imm) rfl rfl,
    sameEffect_of_eq (f := branchTest condLtz rs imm) rfl rfl, sameEffect_of_eq (f := branchTest condGez rs imm) rfl rfl,
    sameEffect_of_eq (f := branchLink condLtz rs imm) rfl rfl, sameEffect_of_eq (f := branchLink condGez rs imm) rfl rfl⟩

end Sys2Proof.Machine

/-! # Jumps (46_jumps.md) -/

namespace Sys2Proof.Machine

/-! ### The two shapes of a jump, always taken (rule R170) -/

theorem exec_redirects {i : Instr} {s : State} {a dest : Addr} (he : exec i s = .next (s.enqueue (.redirect a)))
    (ha : a = dest) : ∃ t, exec i s = .next t ∧ SchedulesOnly s t True dest :=
  ⟨_, he, ha ▸ rfl, registersKept_of_eq rfl, memoryKept_of_eq rfl rfl⟩

/-- `a` is given before the link is written: a target read from the link register is the old one. -/
theorem exec_redirectsAndLinks {i : Instr} {s : State} {rd : RegIdx} {a dest : Addr}
    (he : exec i s = .next ((s.writeReg rd (linkValue s.pc)).enqueue (.redirect a))) (ha : a = dest) :
    ∃ t, exec i s = .next t ∧ SchedulesAndLinks s t True dest rd := by
  refine ⟨_, he, ha ▸ rfl, ?_, memoryKept_of_eq rfl rfl⟩
  rw [← linkValue_eq]
  exact registerWritten_writeReg s rd (linkValue s.pc)

theorem registerTarget_eq (v : Word) : registerTarget v = BitVec.ofNat 32 v.toNat :=
  BitVec.eq_of_toNat_eq (low32_toNat v)

/-! ### The statements -/

/-- Settles O22: the words are the encodings of the instructions (O1), and both handlers redirect to the target of
`jumpTarget_eq`. -/
theorem absoluteJumpsKeepThePage : Obligations.AbsoluteJumpsKeepThePage := by
  intro target s
  have hdecode := decodeOfEncodeIsTheInstruction
  have hdest := jumpTarget_eq s.pc target
  exact ⟨⟨hdecode (.j target), exec_redirects rfl hdest⟩, ⟨hdecode (.jal target), exec_redirectsAndLinks rfl hdest⟩⟩

/-- Settles O23: the words are the encodings of the instructions (O1), and both handlers redirect to the low half of
`x[rs]` in the state before the link. -/
theorem registerJumpsTakeTheOldLowHalf : Obligations.RegisterJumpsTakeTheOldLowHalf := by
  intro rs a rd b ign s
  have hdest := registerTarget_eq (s.readReg rs)
  exact ⟨⟨decode_of_encode_eq (aluWord_append rs ign 0x08 rfl), exec_redirects rfl hdest⟩,
    ⟨decodeOfEncodeIsTheInstruction (.jalr rs a rd b), exec_redirectsAndLinks rfl hdest⟩⟩

end Sys2Proof.Machine

/-! # Loads, stores and the stubs (47_loads_stores.md, 48_system_stubs.md) -/

namespace Sys2Proof.Machine

theorem WritesOnly.regs {s t : State} (h : WritesOnly s t) : t.regs = s.regs := by rw [h]

/-! ### The effective address and the loaded values (47_loads_stores.md rules R180 to R186) -/

/-- The low half of the 64-bit sum is the sum over the integers modulo 2^32. -/
theorem effectiveAddr_eq (base : Word) (imm : BitVec 16) :
    effectiveAddr base imm = BitVec.ofInt 32 (base.toInt + imm.toInt) := by
  rw [effectiveAddr, add_immWord]
  apply BitVec.eq_of_toNat_eq
  rw [low32_toNat, BitVec.toNat_ofInt, BitVec.toNat_ofInt]
  omega

theorem bigEndian_one (b : Byte) : bigEndian [b] = b.toNat := by simp [bigEndian]

/-- One byte more, at the next address, goes below the bytes put side by side so far. -/
theorem bigEndian_concat {w : Nat} {bytes : List Byte} {v : BitVec w} (b : Byte) (h : bigEndian bytes = v.toNat) :
    bigEndian (bytes ++ [b]) = (v ++ b).toNat := by
  rw [toNat_append_eq, ← h]
  exact List.foldl_append

theorem bigEndian_two (b0 b1 : Byte) : bigEndian [b0, b1] = (b0 ++ b1).toNat :=
  bigEndian_concat b1 (bigEndian_one b0)

theorem bigEndian_four (b0 b1 b2 b3 : Byte) : bigEndian [b0, b1, b2, b3] = (b0 ++ b1 ++ b2 ++ b3).toNat :=
  bigEndian_concat b3 (bigEndian_concat b2 (bigEndian_two b0 b1))

theorem loadSign_eq {w : Nat} {bytes : List Byte} {v : BitVec w} (hw : 8 * bytes.length = w)
    (h : bigEndian bytes = v.toNat) : loadSign bytes = v.signExtend 64 := by
  subst hw
  rw [loadSign, h, BitVec.ofNat_toNat, BitVec.setWidth_eq]

theorem loadZero_eq {w : Nat} {bytes : List Byte} {v : BitVec w} (h : bigEndian bytes = v.toNat) :
    loadZero bytes = v.setWidth 64 := by
  rw [loadZero, h, BitVec.ofNat_toNat]

/-! ### What a load changes (47_loads_stores.md rule R180) -/

section
variable {i : Instr} {s : State} {word : InstrWord} {n : Nat} {rs rt : RegIdx} {imm : BitVec 16}

theorem loadOp_of_memRead {extend : List Byte → Word} {bytes : List Byte} {t : State}
    (h : s.memRead (effectiveAddr (s.readReg rs) imm) n = .ok (bytes, t)) :
    loadOp word n extend rs rt imm s = .next (t.writeReg rt (extend bytes)) := by
  rw [loadOp, h]

theorem exec_loadsOnly {extend : List Byte → Word} {bytes : List Byte} {v : Word}
    (he : exec i s = loadOp word bytes.length extend rs rt imm s) (hv : extend bytes = v)
    (h : Readable s (BitVec.ofInt 32 ((s.readReg rs).toInt + imm.toInt)) bytes) :
    ∃ t, exec i s = .next t ∧
      LoadsOnly s t (BitVec.ofInt 32 ((s.readReg rs).toInt + imm.toInt)) bytes.length rt v := by
  rw [← effectiveAddr_eq] at h ⊢
  rw [he, loadOp_of_memRead (memRead_of_readable h), hv]
  exact ⟨_, rfl, registerWritten_writeReg _ rt v, memoryKept_of_eq rfl rfl, rfl⟩

theorem exec_loadsFrom {extend : List Byte → Word} {targets : List Target}
    (he : exec i s = loadOp word n extend rs rt imm s)
    (h : resolveAll s.regions .read (accessAddrs (effectiveAddr (s.readReg rs) imm) n) = .ok targets) :
    ∃ t, exec i s = .next t ∧ LoadsFrom s t targets rt extend := by
  have hread : s.memRead (effectiveAddr (s.readReg rs) imm) n = .ok (s.readTargets targets) := by
    rw [State.memRead, h]
  rw [he, loadOp_of_memRead hread, readTargets_outputs]
  refine ⟨_, rfl, ⟨_, readTargets_length s targets, ?_, registerWritten_writeReg _ rt _⟩, memoryKept_of_eq rfl rfl,
    rfl⟩
  rintro before x after rfl
  exact readTargets_byte s before x after

/-! ### What a store changes (47_loads_stores.md rule R180, 20_memory.md rule R46) -/

theorem writeTargets_storesOnly {writes : List (Target × Byte)} (hc : s.memoryCanonical = true)
    (hoff : ∀ w ∈ writes, ∀ k off, w.1 = .data k off → off < 2 ^ 32) :
    StoresOnly s (s.writeTargets writes) writes := by
  refine ⟨registersKept_of_eq (writeTargets_writesOnly s writes).regs, writeTargets_outputs s writes,
    fun k off hlt => bufferByte_writeTargets_other hlt hoff, ?_, fun a => peek_writeTargets_other hoff⟩
  rintro before k off b after rfl hlast
  obtain ⟨-, hoff⟩ := List.forall_mem_append.1 hoff
  obtain ⟨hself, hafter⟩ := List.forall_mem_cons.1 hoff
  exact bufferByte_writeTargets_last hc (hself k off rfl) hafter hlast

theorem exec_storesOnly {bytes : List Byte} {targets : List Target}
    (he : exec i s = storeOp word n rs rt imm s) (hbytes : bytesOf n (s.readReg rt) = bytes)
    (hc : s.memoryCanonical = true)
    (h : resolveAll s.regions .write (accessAddrs (effectiveAddr (s.readReg rs) imm) n) = .ok targets) :
    ∃ t, exec i s = .next t ∧ StoresOnly s t (targets.zip bytes) := by
  refine ⟨s.writeTargets (targets.zip bytes), ?_, writeTargets_storesOnly hc fun w hw k off hdata => ?_⟩
  · rw [he, storeOp, State.memWrite, h, hbytes]
  · exact resolveAll_data_lt h (hdata ▸ (List.of_mem_zip hw).1)

end

/-! ### The statements -/

/-- Settles O24: the words are the encodings of the instructions (O1), each handler is `loadOp`, which reads the bytes
`peek` finds (`memRead_of_readable`), and the extensions are of those bytes put side by side. -/
theorem loadsExtendTheBigEndianValue : Obligations.LoadsExtendTheBigEndianValue := by
  intro rs rt imm b0 b1 b2 b3 s
  have hdecode := decodeOfEncodeIsTheInstruction
  exact ⟨⟨hdecode (.lb rs rt imm), exec_loadsOnly rfl (loadSign_eq rfl (bigEndian_one b0))⟩,
    ⟨hdecode (.lbu rs rt imm), exec_loadsOnly rfl (loadZero_eq (bigEndian_one b0))⟩,
    ⟨hdecode (.lh rs rt imm), exec_loadsOnly rfl (loadSign_eq rfl (bigEndian_two b0 b1))⟩,
    ⟨hdecode (.lhu rs rt imm), exec_loadsOnly rfl (loadZero_eq (bigEndian_two b0 b1))⟩,
    ⟨hdecode (.lw rs rt imm), exec_loadsOnly rfl (loadSign_eq rfl (bigEndian_four b0 b1 b2 b3))⟩,
    ⟨hdecode (.lwu rs rt imm), exec_loadsOnly rfl (loadZero_eq (bigEndian_four b0 b1 b2 b3))⟩⟩

/-- Settles O26: the words are the encodings of the instructions (O1), and each handler is `storeOp`, which writes
`bytesOf` the register to the targets in order; a later write to a byte wins (`bufferByte_writeTargets_last`). -/
theorem storesWriteTheirBytesAndNoOthers : Obligations.StoresWriteTheirBytesAndNoOthers := by
  intro rs rt imm s targets hc
  have hdecode := decodeOfEncodeIsTheInstruction
  exact ⟨⟨hdecode (.sb rs rt imm), exec_storesOnly rfl rfl hc⟩,
    ⟨hdecode (.sh rs rt imm), exec_storesOnly rfl rfl hc⟩,
    ⟨hdecode (.sw rs rt imm), exec_storesOnly rfl rfl hc⟩⟩

/-- Settles O25: each handler is `loadOp`, which reads the resolved targets in order (`readTargets_byte`,
`readTargets_outputs`) before it writes `rt`. -/
theorem loadsCompleteWhereverTheBytesResolve : Obligations.LoadsCompleteWhereverTheBytesResolve := by
  intro rs rt imm s targets
  exact ⟨exec_loadsFrom rfl, exec_loadsFrom rfl, exec_loadsFrom rfl, exec_loadsFrom rfl, exec_loadsFrom rfl,
    exec_loadsFrom rfl⟩

/-! ### The stubs (47_loads_stores.md rules R190 to R194, 48_system_stubs.md rule R200) -/

/-- The encoder brackets the last 21 bits of a coprocessor-0 word together; the statement writes its fields in a row. -/
theorem cop0Word_append (sel rt rd : BitVec 5) (ign : BitVec 11) :
    cop0Word sel (rt ++ rd ++ ign) = 0x10#6 ++ sel ++ rt ++ rd ++ ign := by
  apply BitVec.eq_of_toNat_eq
  simp only [cop0Word_toNat, toNat_append_eq]
  simp
  omega

/-- A stub's record carries the word that decodes to it. -/
theorem exec_logs {w : InstrWord} {i : Instr} {s : State} (hw : encode i = w)
    (he : exec i s = stubOp (encode i) s) :
    decode w = .ok i ∧ exec i s = .next { s with log := s.log ++ [.unimplementedInstruction w s.pc] } :=
  ⟨decode_of_encode_eq hw, hw ▸ he⟩

/-- Settles O28: each word is the encoding of its instruction, and each handler is `stubOp` with that word. -/
theorem stubsOnlyLog : Obligations.StubsOnlyLog := by
  intro rs rt rd imm code ign s
  exact ⟨exec_logs rfl rfl, exec_logs rfl rfl, exec_logs rfl rfl, exec_logs rfl rfl, exec_logs rfl rfl,
    exec_logs rfl rfl, exec_logs rfl rfl, exec_logs (cop0Word_append 0x00 rt rd ign) rfl,
    exec_logs (cop0Word_append 0x04 rt rd ign) rfl⟩

end Sys2Proof.Machine

/-! # Fatal conditions (60_exceptions.md) -/

namespace Sys2Proof.Machine

/-! ### What a halt keeps (rules R211, R212) -/

/-- Halting after a fetch keeps everything but the run state and the fetch's outputs. -/
theorem ReadsOnly.haltedUnchanged {s s1 : State} (h : ReadsOnly s s1) (d : Diagnostic) :
    HaltedUnchanged s (s1.halt d) d := by
  rw [h]
  exact ⟨rfl, registersKept_of_eq rfl, memoryKept_of_eq rfl rfl⟩

/-- The end of a step keeps the handler's verdict on the run. -/
theorem finish_run (s t : State) : (s.finish t).run = t.run := by
  cases ht : t.run with
  | running => rw [finish_of_running ht]; exact ht
  | halted d => rw [finish_of_halted ht, State.halt_run]

/-- However a step comes to halt, it does so from the state of its fetch: nothing of the handler's is kept. -/
theorem StepEnd.haltedUnchanged {s s' : State} {d : Diagnostic} (h : StepEnd s s') (hd : s'.run = .halted d) :
    HaltedUnchanged s s' d := by
  cases h with
  | unmappedFetch =>
    cases hd
    exact ReadsOnly.haltedUnchanged (s1 := s) rfl _
  | decodeError w s1 hf | branchInDelaySlot w s1 i hf =>
    cases hd
    exact (fetch_readsOnly hf).haltedUnchanged _
  | handled w s1 i t hf =>
    rw [finish_of_halted ((finish_run s1 t).symm.trans hd)]
    exact (fetch_readsOnly hf).haltedUnchanged d

/-! ### The three conditions of the driver (rules R211, R213 (i), R217) -/

/-- Settles O34: the fetch fails at that byte, and the step is the failed access. -/
theorem unmappedFetchHaltsWithNoWord : Obligations.UnmappedFetchHaltsWithNoWord := by
  intro s a hrun ha
  rcases fetch_cases s with ⟨ts, hts, -⟩ | ⟨f, hf, hfetch⟩
  · cases ha.symm.trans hts
  · cases ha.symm.trans hf
    exact step_of_fetch_error hrun hfetch

/-- Settles O35: the step halts from the state of the fetch (`ReadsOnly.haltedUnchanged`), which keeps the scheduler. -/
theorem unknownKeyHaltsWithDecodeError : Obligations.UnknownKeyHaltsWithDecodeError := by
  intro s s1 w hrun hf hno
  cases hd : decode w with
  | ok i => exact absurd hd (hno i)
  | error r =>
    exact ⟨_, step_of_decode_error hrun hf hd, (fetch_readsOnly hf).haltedUnchanged _, rfl⟩

/-- Settles O36: the fetch keeps the carried effect, so the issue is the one in a delay slot (`issue_of_slot`). -/
theorem branchInADelaySlotHalts : Obligations.BranchInADelaySlotHalts := by
  intro s s1 w i hrun hcarried hf hd hct
  have hfetch := fetch_readsOnly hf
  refine ⟨s1.halt (.branchInDelaySlot w s.pc), ?_, hfetch.haltedUnchanged _, rfl⟩
  rw [step_of_decode_ok hrun hf hd, issue_of_slot w ⟨hfetch.sched ▸ hcarried, hct⟩, hfetch.pc]

/-! ### The condition of a handler: an unmapped byte of its access (rule R213, 20_memory.md rule R47) -/

section
variable {i : Instr} {s : State} {n : Nat} {rs rt : RegIdx} {imm : BitVec 16} {a : Addr}

theorem exec_load_of_unmapped {extend : List Byte → Word}
    (he : exec i s = loadOp (encode i) n extend rs rt imm s)
    (ha : resolveAll s.regions .read (accessAddrs (effectiveAddr (s.readReg rs) imm) n) = .error (.unmapped a)) :
    exec i s = .next (s.halt (.unmappedAddress (some (encode i)) s.pc a)) := by
  rw [he, loadOp, State.memRead, ha]
  rfl

theorem exec_store_of_unmapped (he : exec i s = storeOp (encode i) n rs rt imm s)
    (ha : resolveAll s.regions .write (accessAddrs (effectiveAddr (s.readReg rs) imm) n) = .error (.unmapped a)) :
    exec i s = .next (s.halt (.unmappedAddress (some (encode i)) s.pc a)) := by
  rw [he, storeOp, State.memWrite, ha]
  rfl

end

/-- The reported byte is one of the access, and the bytes before it in access order have their targets. -/
theorem resolveAll_accessAddrs_unmapped {regions : List Region} {intent : Intent} {ea a : Addr} {n : Nat}
    (h : resolveAll regions intent (accessAddrs ea n) = .error (.unmapped a)) :
    ∃ j, j < n ∧ a = ea + BitVec.ofNat 32 j ∧ resolve regions a intent = .noRegion ∧
      ∀ k, k < j → ∃ t, resolve regions (ea + BitVec.ofNat 32 k) intent = .target t := by
  obtain ⟨before, b, after, hsplit, hbefore, ⟨hb, hno⟩ | ⟨hloop, -⟩⟩ := resolveAll_error h
  · cases hb
    have hlen : before.length < n := by
      have := congrArg List.length hsplit
      simp only [accessAddrs_length, List.length_append, List.length_cons] at this
      omega
    have hget {k : Nat} (hk : k < n) : (before ++ a :: after)[k]? = some (ea + BitVec.ofNat 32 k) := by
      rw [← hsplit, ← accessAddrs_get ea n k (by simpa using hk)]
      exact List.getElem?_eq_getElem _
    refine ⟨before.length, hlen, ?_, hno, fun k hk => hbefore _ (List.mem_of_getElem? (i := k) ?_)⟩
    · simpa using hget hlen
    · rw [← hget (by omega), List.getElem?_append_left hk]
  · cases hloop

/-- Settles O27: each handler is `loadOp` or `storeOp` with its own word, and fails before it performs anything; where
the access fails is `resolveAll_accessAddrs_unmapped`. -/
theorem unmappedAccessHaltsWithNothingDone : Obligations.UnmappedAccessHaltsWithNothingDone := by
  intro rs rt imm s a
  exact ⟨exec_load_of_unmapped rfl, exec_load_of_unmapped rfl, exec_load_of_unmapped rfl, exec_load_of_unmapped rfl,
    exec_load_of_unmapped rfl, exec_load_of_unmapped rfl, exec_store_of_unmapped rfl, exec_store_of_unmapped rfl,
    exec_store_of_unmapped rfl, fun _ _ => resolveAll_accessAddrs_unmapped⟩

/-! ### The complete list, and the law of fatal conditions (rules R210, R212, R220) -/

/-- A handler that halts a running block is that of a load or a store, at an unmapped byte of its access. -/
theorem exec_halted {i : Instr} {s t : State} {d : Diagnostic} (he : exec i s = .next t) (hs : s.run = .running)
    (ht : t.run = .halted d) : ∃ rs rt imm n intent a,
      ((intent = .read ∧ isLoad i n rs rt imm) ∨ (intent = .write ∧ isStore i n rs rt imm)) ∧
      resolveAll s.regions intent (accessAddrs (effectiveAddr (s.readReg rs) imm) n) = .error (.unmapped a) ∧
      d = .unmappedAddress (some (encode i)) s.pc a := by
  rcases (exec_effect he).run_kept_or_unmapped with hkept | ⟨rs, rt, imm, n, intent, a, hi, ha, rfl⟩
  · cases (hkept.trans hs).symm.trans ht
  · cases ht
    exact ⟨rs, rt, imm, n, intent, a, hi, ha, rfl⟩

/-- Settles O39: by the ends a step can have; of the handlers only those of `exec_halted` halt, and their diagnostic has
the fetched word, which is the instruction's encoding (O2). -/
theorem onlyTheListedEventsHalt : Obligations.OnlyTheListedEventsHalt := by
  intro s s' d hrun hstep hd
  cases step_end hrun hstep with
  | unmappedFetch a ha =>
    cases hd
    exact .inl ⟨a, ha, rfl⟩
  | decodeError w s1 hf hno =>
    cases hd
    exact .inr ⟨w, s1, hf, .inl ⟨hno, rfl⟩⟩
  | branchInDelaySlot w s1 i hf hdecode hcarried hct =>
    cases hd
    exact .inr ⟨w, s1, hf, .inr (.inl ⟨i, hdecode, hct, hcarried, rfl⟩)⟩
  | handled w s1 i t hf hdecode _ he =>
    refine .inr ⟨w, s1, hf, .inr (.inr ?_)⟩
    have hfetch := fetch_readsOnly hf
    obtain ⟨rs, rt, imm, n, intent, a, hi, ha, rfl⟩ :=
      exec_halted he (hfetch.run.trans hrun.1) ((finish_run s1 t).symm.trans hd)
    have hregs : { s1 with sched := .idle }.readReg rs = s.readReg rs := readReg_congr hfetch.regs rs
    have hregions : s1.regions = s.regions := by rw [hfetch]
    rw [hregs, hregions] at ha
    refine ⟨a, rs, rt, imm, intent, n, ?_, ha, ?_⟩
    · rw [decodedWordsEncodeBack w i hdecode, hfetch.pc]
    · rw [hdecode]
      simpa only [isLoad, isStore, Except.ok.injEq, and_or_left, or_assoc] using hi

/-- Settles O38: the frame by the ends a step can have (`StepEnd.haltedUnchanged`), the pc in the diagnostic by the list
of events (O39); a halted block takes no step. -/
theorem fatalConditionsChangeNothing : Obligations.FatalConditionsChangeNothing := by
  intro s s' d hrun hstep hd
  refine ⟨(step_end hrun hstep).haltedUnchanged hd, ?_, fun request => step_of_not_stepping fun h => ?_⟩
  · rcases onlyTheListedEventsHalt s s' d hrun hstep hd with
      ⟨a, -, rfl⟩ | ⟨w, -, -, ⟨-, rfl⟩ | ⟨i, -, -, -, rfl⟩ | ⟨a, -, -, -, -, -, rfl, -⟩⟩
    · exact .inr (.inl ⟨none, a, rfl⟩)
    · exact .inl ⟨w, rfl⟩
    · exact .inr (.inr ⟨w, rfl⟩)
    · exact .inr (.inl ⟨some w, a, rfl⟩)
  · cases hd.symm.trans h.1

end Sys2Proof.Machine

/-! # Reset and the initial contents (70_reset_and_hazards.md) -/

namespace Sys2Proof.Machine

/-! ### What construction admits (rule R241) -/

theorem construct_eq_some_iff {p : Params} {s : State} :
    State.construct p = some s ↔ p.wellFormed = true ∧ State.initial p = s := by
  rw [State.construct, Option.ite_none_right_eq_some, Option.some.injEq]

theorem presetsWellFormed_iff (p : Params) : p.presetsWellFormed = true ↔
    p.preset.toList.Nodup ∧ 0 ∉ p.preset.toList ∧ p.spIndex ∉ p.preset.toList := by
  simp [Params.presetsWellFormed, and_assoc]

theorem construct_eq_none_of_presets {p : Params} (h : ¬ p.presetsWellFormed = true) : State.construct p = none :=
  if_neg fun hp => h (Bool.and_eq_true_iff.1 hp).2

theorem mem_preset_toList (p : Params) (i : Fin 5) : p.preset[i] ∈ p.preset.toList :=
  Vector.mem_toList_iff.2 (Vector.getElem_mem i.isLt)

/-- Presets that repeat, or include r0 or the stack pointer, are refused. -/
theorem not_presetsWellFormed {p : Params} (h : (∃ i j : Fin 5, i ≠ j ∧ p.preset[i] = p.preset[j]) ∨
    ∃ i : Fin 5, p.preset[i] = 0 ∨ p.preset[i] = p.spIndex) : ¬ p.presetsWellFormed = true := by
  rw [presetsWellFormed_iff]
  rintro ⟨hdistinct, hzero, hsp⟩
  rcases h with ⟨i, j, hij, heq⟩ | ⟨i, heq | heq⟩
  · refine hij (Fin.ext ((hdistinct.getElem_inj_iff (hi := by simp) (hj := by simp)).1 ?_))
    exact heq
  · exact hzero (heq ▸ mem_preset_toList p i)
  · exact hsp (heq ▸ mem_preset_toList p i)

/-! ### The register file that a list of writes leaves -/

section
variable {writes : List (RegIdx × Word)} {i : RegIdx}

theorem foldl_putReg_of_not_mem (regs : Vector Word 32) (h : i ∉ writes.map Prod.fst) :
    (writes.foldl (fun regs iv => putReg regs iv.1 iv.2) regs)[i.toNat] = regs[i.toNat] := by
  induction writes generalizing regs with
  | nil => rfl
  | cons w writes ih =>
    rw [List.map_cons, List.mem_cons, not_or] at h
    obtain ⟨hw, hrest⟩ := h
    refine (ih _ hrest).trans ?_
    rw [putReg_get, if_neg fun e => hw (BitVec.eq_of_toNat_eq e.1.symm)]

theorem foldl_putReg_of_mem {v : Word} (regs : Vector Word 32) (hdistinct : (writes.map Prod.fst).Nodup) (hi : i ≠ 0)
    (h : (i, v) ∈ writes) : (writes.foldl (fun regs iv => putReg regs iv.1 iv.2) regs)[i.toNat] = v := by
  induction writes generalizing regs with
  | nil => cases h
  | cons w writes ih =>
    obtain ⟨hw, hrest⟩ := List.nodup_cons.1 hdistinct
    rcases List.mem_cons.1 h with rfl | h
    · refine (foldl_putReg_of_not_mem _ hw).trans ?_
      rw [putReg_get, if_pos ⟨rfl, hi⟩]
    · exact ih _ hrest h

end

/-! ### The registers after reset (rule R241) -/

/-- The writes of the reset sequence: the presets, then the stack pointer. -/
def resetWrites (p : Params) : List (RegIdx × Word) :=
  p.preset.toList.zip presetValues ++ [(p.spIndex, p.resetSp)]

theorem resetRegs_eq_foldl (p : Params) : resetRegs p =
    (resetWrites p).foldl (fun regs iv => putReg regs iv.1 iv.2) (Vector.replicate 32 0) := by
  rw [resetWrites, List.foldl_append]
  rfl

theorem resetWrites_fst (p : Params) : (resetWrites p).map Prod.fst = p.preset.toList ++ [p.spIndex] := by
  rw [resetWrites, List.map_append, List.map_fst_zip (by simp [presetValues])]
  rfl

theorem resetWrites_distinct {p : Params} (h : p.presetsWellFormed = true) :
    ((resetWrites p).map Prod.fst).Nodup := by
  obtain ⟨hdistinct, -, hsp⟩ := (presetsWellFormed_iff p).1 h
  rw [resetWrites_fst, ← List.concat_eq_append]
  exact hdistinct.concat hsp

theorem readReg_initial (p : Params) {r : RegIdx} (h : r ≠ 0) :
    (State.initial p).readReg r = (resetRegs p)[r.toNat] := if_neg h

/-- Every register the reset sequence writes has its value. -/
theorem readReg_initial_of_mem {p : Params} (h : p.presetsWellFormed = true) {r : RegIdx} {v : Word} (hr : r ≠ 0)
    (hv : (r, v) ∈ resetWrites p) : (State.initial p).readReg r = v := by
  simp only [readReg_initial p hr, resetRegs_eq_foldl]
  exact foldl_putReg_of_mem _ (resetWrites_distinct h) hr hv

theorem readReg_initial_preset {p : Params} (h : p.presetsWellFormed = true) (i : Fin 5) :
    (State.initial p).readReg p.preset[i] = presetValues[i.val]'i.isLt := by
  obtain ⟨-, hzero, -⟩ := (presetsWellFormed_iff p).1 h
  refine readReg_initial_of_mem h (fun h0 => hzero (h0 ▸ mem_preset_toList p i)) (List.mem_append_left _ ?_)
  exact List.mem_iff_getElem.2 ⟨i, by simp [presetValues], List.getElem_zip⟩

theorem readReg_initial_spIndex {p : Params} (h : p.presetsWellFormed = true) :
    (State.initial p).readReg p.spIndex = if p.spIndex = 0 then 0 else p.resetSp := by
  split
  · next h0 =>
    rw [h0]
    exact readReg_zero _
  · next h0 => exact readReg_initial_of_mem h h0 (List.mem_append_right _ List.mem_cons_self)

theorem readReg_initial_other {p : Params} {r : RegIdx} (hr : r ∉ p.preset.toList) (hsp : r ≠ p.spIndex) :
    (State.initial p).readReg r = 0 := by
  by_cases h0 : r = 0
  · rw [h0]
    exact readReg_zero _
  · have hno : r ∉ (resetWrites p).map Prod.fst := by simp [resetWrites_fst, hr, hsp]
    simp only [readReg_initial p h0, resetRegs_eq_foldl, foldl_putReg_of_not_mem _ hno, Vector.getElem_replicate]

/-- Settles O55: the registers hold what the last write of the reset sequence put there, and the rest of the state is
given by `State.initial`. -/
theorem resetPutsEveryPieceAtItsValue : Obligations.ResetPutsEveryPieceAtItsValue := by
  refine ⟨fun p s hs => ?_, fun p h => construct_eq_none_of_presets (not_presetsWellFormed h)⟩
  obtain ⟨hwf, rfl⟩ := construct_eq_some_iff.1 hs
  have hpresets : p.presetsWellFormed = true := (Bool.and_eq_true_iff.1 hwf).2
  have hpreset := readReg_initial_preset hpresets
  exact ⟨hpreset 0, hpreset 1, hpreset 2, hpreset 3, hpreset 4, readReg_initial_spIndex hpresets,
    fun _ => readReg_initial_other, rfl, rfl, rfl, rfl, rfl, rfl, rfl, fun _ _ _ hr hoff => bufferByte_initial hoff hr,
    fun s0 => ⟨s0.runRequest, s0.draws, rfl⟩⟩

/-! ### Contents given sparsely (rule R246) -/

section
variable {dflt : Nat → Byte} {key : Nat} {keep : Host.Cell → Bool} {cells : List Host.Cell}

/-- A selection of the cells that keeps those of a key reads there as all of them. -/
theorem Memory.get_filter_of_keep (h : ∀ c, c.1 = key → keep c = true) :
    Memory.get dflt (cells.filter keep) key = Memory.get dflt cells key := by
  induction cells with
  | nil => rfl
  | cons c cells ih =>
    by_cases hc : c.1 = key
    · simp [h c hc, Memory.get, hc]
    · by_cases hk : keep c = true <;> simp [hk, Memory.get, hc, ih]

theorem Memory.get_of_not_listed (h : ∀ c ∈ cells, c.1 ≠ key) : Memory.get dflt cells key = dflt key := by
  induction cells with
  | nil => rfl
  | cons c cells ih =>
    obtain ⟨hc, hrest⟩ := List.forall_mem_cons.1 h
    rw [Memory.get, if_neg hc, ih hrest]

end

theorem get_romHeader (rom : Image) {n : Nat} (h : n < headerSize) :
    Memory.get (fun _ => 0) (romHeader rom) n = Memory.get (fun _ => 0) rom.bytes n :=
  Memory.get_filter_of_keep fun _ hc => decide_eq_true (hc ▸ h)

theorem get_romHeader_after (rom : Image) {n : Nat} (h : headerSize ≤ n) :
    Memory.get (fun _ => 0) (romHeader rom) n = 0 := by
  refine Memory.get_of_not_listed fun c hc => ?_
  have hlt : c.1 < headerSize := of_decide_eq_true (List.mem_filter.1 hc).2
  omega

/-! ### The default map (92_eei_decisions.md D27) -/

/-- An address in a Data region holds that region's initial byte, when every region registered before it ends below. -/
theorem peek_initial_of_first {p : Params} {k off : Nat} {r : Region} {a : Addr} {init : List Host.Cell}
    (hr : p.regions[k]? = some r) (hkind : r.kind = .readWriteData init ∨ r.kind = .readOnlyData init)
    (ha : a.toNat = r.start.toNat + off) (hoff : off < r.size)
    (hbefore : ∀ r' ∈ p.regions.take k, r'.start.toNat + r'.size ≤ r.start.toNat) :
    (State.initial p).peek a = some (Memory.get (fun _ => 0) init off) := by
  have hmatches : RegionMatches a .read r :=
    ⟨(covers_iff r a).2 (by omega), (supports_iff _ _).2 (by rcases hkind with h | h <;> simp [h])⟩
  have hfirst : firstMatch a .read 0 p.regions = some (0 + k, r) := by
    refine firstMatch_eq_some_iff.2 ⟨hr, hmatches, fun j r' hj hr' hm => ?_⟩
    have hend := hbefore r' (List.mem_of_getElem? ((List.getElem?_take_of_lt hj).trans hr'))
    have hcovers := (covers_iff r' a).1 hm.1
    omega
  rw [Nat.zero_add] at hfirst
  have hinit : bufferInit r off = Memory.get (fun _ => 0) init off := by
    unfold bufferInit
    rcases hkind with h | h <;> rw [h]
  have htarget := resolve_of_data hfirst hkind
  rw [ha, Nat.add_sub_cancel_left] at htarget
  rw [peek_initial htarget hr, hinit]

/-- Offsets into a window that ends below 2^32 do not wrap. -/
theorem toNat_add_ofNat {start : Addr} {n : Nat} (h : start.toNat + n < 2 ^ 32) :
    (start + BitVec.ofNat 32 n).toNat = start.toNat + n := by
  rw [BitVec.toNat_add, BitVec.toNat_ofNat]
  omega

section
variable (rom : Image) {n : Nat}

theorem peek_default_ram (h : n < 0x00400000) :
    (State.initial (defaultParams rom)).peek (BitVec.ofNat 32 n) = some 0 := by
  have ha : (BitVec.ofNat 32 n).toNat = 0 + n := by
    rw [BitVec.toNat_ofNat]
    omega
  exact peek_initial_of_first (k := 0) (r := ⟨0x00000000, defaultRamSize, .readWriteData []⟩) rfl (.inl rfl) ha h
    (by simp)

theorem peek_default_scratchpad (h : n < 0x2000) :
    (State.initial (defaultParams rom)).peek (0xA4000000 + BitVec.ofNat 32 n) =
      some (Memory.get (fun _ => 0) (romHeader rom) n) := by
  have hwindow : 0xA4000000 + n < 2 ^ 32 := by omega
  exact peek_initial_of_first (k := 1) (r := ⟨0xA4000000, 0x2000, .readWriteData (romHeader rom)⟩) rfl (.inl rfl)
    (toNat_add_ofNat hwindow) h (by simp [defaultParams, defaultRegions, defaultRamSize])

theorem peek_default_headerWindow (h : n < 0x1000) :
    (State.initial (defaultParams rom)).peek (0xB0000000 + BitVec.ofNat 32 n) =
      some (Memory.get (fun _ => 0) (romHeader rom) n) := by
  have hwindow : 0xB0000000 + n < 2 ^ 32 := by omega
  exact peek_initial_of_first (k := 11) (r := ⟨0xB0000000, headerSize, .readOnlyData (romHeader rom)⟩) rfl (.inr rfl)
    (toNat_add_ofNat hwindow) h (by simp [defaultParams, defaultRegions, deviceWindow, defaultRamSize])

end

/-- Settles O57: construction is `State.initial`, whose bytes are the header's in both windows, and 0 past its end and
in RAM. -/
theorem defaultMapHoldsTheRomHeader : Obligations.DefaultMapHoldsTheRomHeader := by
  intro rom s _ hs
  obtain ⟨-, rfl⟩ := construct_eq_some_iff.1 hs
  refine ⟨fun n hn => ?_, fun n hlo hhi => ?_, fun n => peek_default_ram rom⟩
  · rw [peek_default_scratchpad rom (by omega), peek_default_headerWindow rom hn, get_romHeader rom hn]
    exact ⟨rfl, rfl⟩
  · rw [peek_default_scratchpad rom hhi, get_romHeader_after rom hlo]

end Sys2Proof.Machine
